-- ==== Sys2Proof/Word.lean ====
section
/-!
DEFINITION. The word types: a register of the block is one 32-bit word (20_memory.md R51), a payload byte is
8 bits (00_scope.md section 4).
-/

namespace Sys2Proof

/-- One 32-bit register word; bit `i` has weight `2 ^ i` (00_scope.md section 4). -/
abbrev Word := BitVec 32

/-- One byte, bits 7 down to 0 (00_scope.md section 4). -/
abbrev Byte := BitVec 8

end Sys2Proof
end

