-- ==== Sys2Proof/Syntax.lean ====
section
/-!
DEFINITION. The command set (00_scope.md R3, 30_encoding.md R96): one constructor per row of opcode_table.json.
-/

namespace Sys2Proof

/-- The four abstract commands of 30_encoding.md R96. Pin identifiers are integers, valid or not (10_state.md R21);
a SEND carries its bytes by value (10_state.md R35). -/
inductive Instr where
  /-- `CONSTRUCT(clk, dat)`, 40_lifecycle.md R110. -/
  | construct (clk dat : Int)
  /-- `INITIALIZE`, 40_lifecycle.md R111. -/
  | initialise
  /-- `SEND(bytes)`, 41_send.md R140. -/
  | send (bytes : List Byte)
  /-- `TEARDOWN`, 40_lifecycle.md R116. -/
  | teardown
  deriving DecidableEq, Repr

end Sys2Proof
end

