-- ==== Sys2Proof/WellFormed.lean ====
section
/-!
DEFINITION. Which abstract commands the 32-bit command word can carry (30_encoding.md R82, R84): the operand ranges
of the encoding. The meanings do not need it: they take every abstract command (R96).
-/

namespace Sys2Proof

/-- A pin identifier fits the 8-bit unsigned field of a CONSTRUCT word (30_encoding.md R82). -/
abbrev PinEncodable (p : Int) : Prop := 0 ≤ p ∧ p ≤ 255

/-- The command has a command word: pins in `0..255` (R82), `LEN` at most `2^30 - 1` (R84). -/
abbrev Instr.WellFormed (i : Instr) : Prop :=
  match i with
  | .construct clk dat => PinEncodable clk ∧ PinEncodable dat
  | .initialise => True
  | .send bytes => bytes.length < 2 ^ 30
  | .teardown => True

end Sys2Proof
end

