-- ==== Sys2Proof/Decode.lean ====
section
/-!
DEFINITION. The decoder and the encoder of the command word (30_encoding.md R80 to R88), over the byte stream of the
host's command port; the assembler text of R93. The four bytes of the word come least significant first (log entry 8),
then the payload, BUF[0] first (R84).
-/

namespace Sys2Proof

/-- What the bytes at the command port say. -/
inductive Decoded where
  /-- A complete command and the bytes after it. -/
  | command (i : Instr) (rest : List Byte)
  /-- Fewer than four bytes have arrived: no command word yet. -/
  | incompleteWord
  /-- A SEND word with fewer than LEN payload bytes so far: the controller waits (30_encoding.md R84). -/
  | incompletePayload
  /-- A word whose must-be-zero bits are not all zero: not a command (30_encoding.md R88). -/
  | reservedBits
  deriving DecidableEq, Repr

/-- One row of opcode_table.json: the word is the row's command when `word & mask = match`. -/
structure OpcodeRow where
  fixed : Word
  mask : Word
  deriving DecidableEq, Repr

/-- 30_encoding.md R82. -/
def rowConstruct : OpcodeRow := ⟨0x00000000, 0xFFFF0000⟩
/-- 30_encoding.md R83. -/
def rowInitialise : OpcodeRow := ⟨0x40000000, 0xFFFFFFFF⟩
/-- 30_encoding.md R84. -/
def rowSend : OpcodeRow := ⟨0x80000000, 0xC0000000⟩
/-- 30_encoding.md R85. -/
def rowTeardown : OpcodeRow := ⟨0xC0000000, 0xFFFFFFFF⟩

/-- The word carries the fixed bits of the row. -/
def OpcodeRow.hits (r : OpcodeRow) (w : Word) : Bool := w &&& r.mask == r.fixed

/-- The row of a command. -/
def Instr.row (i : Instr) : OpcodeRow :=
  match i with
  | .construct _ _ => rowConstruct
  | .initialise => rowInitialise
  | .send _ => rowSend
  | .teardown => rowTeardown

/-- The field `C[15:8] = clk` of a CONSTRUCT word, zero-extended (30_encoding.md R82). -/
def wordClk (w : Word) : Int := (w.extractLsb' 8 8).toNat

/-- The field `C[7:0] = dat` of a CONSTRUCT word, zero-extended (30_encoding.md R82). -/
def wordDat (w : Word) : Int := (w.extractLsb' 0 8).toNat

/-- The field `C[29:0] = LEN` of a SEND word (30_encoding.md R84). -/
def wordLen (w : Word) : Nat := (w.extractLsb' 0 30).toNat

/-- A command from its word and the bytes that follow it (30_encoding.md R80, R81): the one row that the word hits,
or no command (R88). -/
def decodeWord (w : Word) (after : List Byte) : Decoded :=
  if rowConstruct.hits w then .command (.construct (wordClk w) (wordDat w)) after
  else if rowInitialise.hits w then .command .initialise after
  else if rowSend.hits w then
    if wordLen w ≤ after.length then .command (.send (after.take (wordLen w))) (after.drop (wordLen w))
    else .incompletePayload
  else if rowTeardown.hits w then .command .teardown after
  else .reservedBits

/-- Four bytes as one word, the first the least significant (log entry 8). -/
def wordOfBytes (b0 b1 b2 b3 : Byte) : Word := b3 ++ b2 ++ b1 ++ b0

/-- Byte `k` of a word: bits `[8*k + 7 : 8*k]` (20_memory.md R61). -/
def wordByte (w : Word) (k : Nat) : Byte := w.extractLsb' (8 * k) 8

/-- A word as four bytes, the first the least significant (log entry 8). -/
def bytesOfWord (w : Word) : List Byte := [wordByte w 0, wordByte w 1, wordByte w 2, wordByte w 3]

/-- The decoder: total on any bytes. -/
def decode (bytes : List Byte) : Decoded :=
  match bytes with
  | b0 :: b1 :: b2 :: b3 :: after => decodeWord (wordOfBytes b0 b1 b2 b3) after
  | _ => .incompleteWord

/-- The command word of a command (30_encoding.md R82 to R85). -/
def encodeWord (i : Instr) : Word :=
  match i with
  | .construct clk dat => 0#16 ++ BitVec.ofInt 8 clk ++ BitVec.ofInt 8 dat
  | .initialise => 0x40000000
  | .send bytes => 0b10#2 ++ BitVec.ofNat 30 bytes.length
  | .teardown => 0xC0000000

/-- The payload that follows the word: only SEND has one (30_encoding.md R80). -/
def encodePayload (i : Instr) : List Byte :=
  match i with
  | .construct _ _ => []
  | .initialise => []
  | .send bytes => bytes
  | .teardown => []

/-- The encoder: word, then payload. -/
def encode (i : Instr) : List Byte := bytesOfWord (encodeWord i) ++ encodePayload i

/-- How many payload bytes follow the word `w` (30_encoding.md R80: LEN when `C[31:30] = 0b10`, else none). -/
def payloadLength (w : Word) : Nat := if rowSend.hits w then wordLen w else 0

/-- The bytes of an instruction whose bits, numbered as opcode_table.json numbers them, are the low `nbits` bits of
`w` and zeros above: four bytes of the word, then its payload. -/
def tableBytes (nbits w : Nat) : List Byte :=
  let bits := w % 2 ^ nbits
  (List.range (4 + payloadLength (BitVec.ofNat 32 bits))).map fun k => BitVec.ofNat 8 (bits >>> (8 * k))

/-- The instruction the decoder reads from those bytes. -/
def decodeTableWord (nbits w : Nat) : Option Instr :=
  match decode (tableBytes nbits w) with
  | .command i _ => some i
  | .incompleteWord => none
  | .incompletePayload => none
  | .reservedBits => none

/-- One hexadecimal digit. -/
def hexDigit (n : Nat) : Char :=
  if n < 10 then Char.ofNat (48 + n) else Char.ofNat (55 + n)

/-- A byte as the assembler writes it: `0x` and two hexadecimal digits (30_encoding.md R93). -/
def assembleByte (b : Byte) : String :=
  "0x" ++ String.ofList [hexDigit (b.toNat / 16), hexDigit (b.toNat % 16)]

/-- The assembler text of a command (30_encoding.md R93). -/
def assemble (i : Instr) : String :=
  match i with
  | .construct clk dat => "CONSTRUCT " ++ toString clk ++ ", " ++ toString dat
  | .initialise => "INITIALIZE"
  | .send bytes => "SEND [" ++ ", ".intercalate (bytes.map assembleByte) ++ "]"
  | .teardown => "TEARDOWN"

end Sys2Proof
end

