-- ==== Sys2Proof/Config.lean ====
section
/-!
DEFINITION. What one platform fixes (CFG, 00_scope.md section 3) and the free values: everything the spec leaves to
the platform, to other agents or to nobody. The opaque constants have no body, so no proof can use a value of them.
-/

namespace Sys2Proof

/-- `CFG.BIT_ORDER` (00_scope.md R11). The normative value is `msbFirst`; `lsbFirst` is its mirror (41_send.md R143). -/
inductive BitOrder where
  | msbFirst
  | lsbFirst
  deriving DecidableEq, Repr, Inhabited

/-- The configuration record `CFG` (00_scope.md R6 to R11). -/
structure Cfg where
  /-- `CFG.PIN_COUNT`, R6. -/
  pinCount : Nat
  /-- `CFG.GPIO_BASE_PHYS`, R7; only handed to MAP. -/
  basePhys : Nat
  /-- `CFG.GPIO_BLOCK_LEN` in bytes, R7. -/
  blockLen : Nat
  /-- `CFG.CTRL_OFF`, R8. -/
  ctrlOff : Nat
  /-- `CFG.SET_OFF`, R8. -/
  setOff : Nat
  /-- `CFG.CLR_OFF`, R8. -/
  clrOff : Nat
  /-- `CFG.FSEL_PINS_PER_WORD`, the `P` of R9. -/
  pinsPerWord : Nat
  /-- `CFG.FSEL_OUTPUT`, the 3-bit code of a digital output, R9. -/
  fselOutput : BitVec 3
  /-- `CFG.T_SETTLE`, a lower bound in the platform's unit, R10. -/
  tSettle : Nat
  /-- `CFG.T_HIGH`, R10. -/
  tHigh : Nat
  /-- `CFG.T_LOW`, R10. -/
  tLow : Nat
  /-- `CFG.BIT_ORDER`, R11. -/
  bitOrder : BitOrder
  deriving DecidableEq, Repr, Inhabited

/-- `NF`, the number of control words: `ceil(PIN_COUNT / P)` (00_scope.md R12). -/
def Cfg.nf (c : Cfg) : Nat := (c.pinCount + c.pinsPerWord - 1) / c.pinsPerWord

/-- `NW`, the number of set words and of clear words: `ceil(PIN_COUNT / 32)` (00_scope.md R12). -/
def Cfg.nw (c : Cfg) : Nat := (c.pinCount + 31) / 32

/-- The byte ranges `[a, a + la)` and `[b, b + lb)` do not meet. -/
abbrev RangesApart (a la b lb : Nat) : Prop := a + la ≤ b ∨ b + lb ≤ a

/-- A well-formed configuration, clause by clause as 00_scope.md R12 lists them (`FSEL_OUTPUT <= 7` by its type). -/
abbrev Cfg.WellFormed (c : Cfg) : Prop :=
  2 ≤ c.pinCount ∧
  0 < c.blockLen ∧ c.blockLen % 4 = 0 ∧
  c.ctrlOff % 4 = 0 ∧ c.setOff % 4 = 0 ∧ c.clrOff % 4 = 0 ∧
  1 ≤ c.pinsPerWord ∧ c.pinsPerWord ≤ 10 ∧
  c.ctrlOff + 4 * c.nf ≤ c.blockLen ∧
  c.setOff + 4 * c.nw ≤ c.blockLen ∧
  c.clrOff + 4 * c.nw ≤ c.blockLen ∧
  RangesApart c.ctrlOff (4 * c.nf) c.setOff (4 * c.nw) ∧
  RangesApart c.ctrlOff (4 * c.nf) c.clrOff (4 * c.nw) ∧
  RangesApart c.setOff (4 * c.nw) c.clrOff (4 * c.nw)

/-- A platform: a configuration together with the proof that it is well formed. An ill-formed CFG gets no meaning
(00_scope.md R12): no machine can be built on one, and `State.configure` refuses it by name. -/
abbrev Platform := { c : Cfg // c.WellFormed }

/-- The example platform `EX1` of 00_scope.md R12 (93_implementation_defined.md G1), used only to replay the vectors of
95_test_vectors.md and the worked example of 30_encoding.md R87; its delays are symbolic in the spec and set
to 0 here. PRESUMED: log entry 1. -/
def ex1 : Cfg :=
  { pinCount := 54, basePhys := 0x20200000, blockLen := 4096, ctrlOff := 0x00, setOff := 0x1C, clrOff := 0x28,
    pinsPerWord := 10, fselOutput := 0b001, tSettle := 0, tHigh := 0, tLow := 0, bitOrder := .msbFirst }

theorem ex1_wellFormed : ex1.WellFormed := by decide

/-- `EX1` as a platform. -/
def ex1Platform : Platform := ⟨ex1, ex1_wellFormed⟩

/-- The answer of the platform capability to one request (20_memory.md R62). -/
inductive Answer where
  | ok
  | fail
  deriving DecidableEq, Repr, Inhabited

/-- One move of the environment (20_memory.md R68): another agent changes the function-select field, or the output
latch, of one line. A move on an owned pin or on a line that does not exist is no move (Machine/Ops.lean). -/
inductive EnvMove where
  /-- Rewrite the 3-bit field of a line. -/
  | field (pin : Nat) (code : BitVec 3)
  /-- Set or clear the latch of a line. -/
  | latch (pin : Nat) (high : Bool)
  deriving DecidableEq, Repr

/-- One well-formed configuration, two pins in a block of three words. It shows that there is one, which a free
constant of the type needs, and serves nothing else: no proof can find it behind `Config.platformOf`. -/
def Config.twoPins : Platform :=
  ⟨{ pinCount := 2, basePhys := 0, blockLen := 12, ctrlOff := 0, setOff := 4, clrOff := 8, pinsPerWord := 10,
     fselOutput := 0, tSettle := 0, tHigh := 0, tLow := 0, bitOrder := .msbFirst }, by decide⟩

/-- FREE VALUE: some platform, given that there is one. Nothing is known of it but its type, which says that the
configuration is well formed. Log entry 1. -/
opaque Config.platformOf : [Inhabited Platform] → Platform

/-- The platform of the machine after reset: any well-formed configuration (00_scope.md R6 to R12). An ill-formed
configuration is no value of the type; `State.configure` refuses it. A claim about `Config.platform` holds of every
well-formed configuration. -/
def Config.platform : Platform := @Config.platformOf ⟨Config.twoPins⟩

/-- FREE VALUE: the platform's answer to its n-th request, where the state scripts none (20_memory.md R62,
93_implementation_defined.md U9). Log entry 3. -/
opaque Config.platformAnswer : Nat → Answer

/-- FREE VALUE: what the environment does in its n-th slot, where the state scripts nothing (20_memory.md R68). Log
entry 4. -/
opaque Config.envMoves : Nat → List EnvMove

/-- FREE VALUE: what a read of an offset outside the control region returns (93_implementation_defined.md U6), for
the n-th slot; the engine never makes such a read (20_memory.md R60). Log entry 12. -/
opaque Config.undefinedRead : Nat → Word

end Sys2Proof
end

