-- ==== Sys2Proof/Machine/Operands.lean ====
section
/-!
DEFINITION. Operand assembly: what the engine derives from a valid pin (30_encoding.md R86, R87), which register of
the block an offset names (20_memory.md R51 to R54), and the bit a SEND transmits next (41_send.md R142, R143).
-/

namespace Sys2Proof.Machine

/-- `valid(p)`: `0 <= p < CFG.PIN_COUNT` (00_scope.md R6). -/
abbrev PinValid (c : Cfg) (p : Int) : Prop := 0 ≤ p ∧ p < c.pinCount

/-- `mask(p) = 1 << (p mod 32)` (30_encoding.md R86). -/
def maskOf (p : Nat) : Word := 1#32 <<< (p % 32)

/-- `lvlw(p) = p div 32`, the index of the set and clear word (30_encoding.md R86). -/
def lvlw (p : Nat) : Nat := p / 32

/-- `setoff(p)` (30_encoding.md R86). -/
def setoff (c : Cfg) (p : Nat) : Nat := c.setOff + 4 * lvlw p

/-- `clroff(p)` (30_encoding.md R86). -/
def clroff (c : Cfg) (p : Nat) : Nat := c.clrOff + 4 * lvlw p

/-- `fselw(p) = p div P`, the index of the control word (30_encoding.md R86). -/
def fselw (c : Cfg) (p : Nat) : Nat := p / c.pinsPerWord

/-- The byte offset of control word `j` (20_memory.md R52). -/
def ctrlWordOff (c : Cfg) (j : Nat) : Nat := c.ctrlOff + 4 * j

/-- `fseloff(p)` (30_encoding.md R86). -/
def fseloff (c : Cfg) (p : Nat) : Nat := ctrlWordOff c (fselw c p)

/-- `fselsh(p) = 3 * (p mod P)`, where the pin's field begins (30_encoding.md R86). -/
def fselsh (c : Cfg) (p : Nat) : Nat := 3 * (p % c.pinsPerWord)

/-- The 3-bit field of a word at a bit position. -/
def fieldAt (v : Word) (sh : Nat) : BitVec 3 := v.extractLsb' sh 3

/-- A word with one 3-bit field replaced: `(v & ~(0b111 << sh)) | (code << sh)`. -/
def insertField (v : Word) (sh : Nat) (code : BitVec 3) : Word :=
  (v &&& ~~~(7#32 <<< sh)) ||| (code.setWidth 32 <<< sh)

/-- `fselnew(v, p)`, the control word that makes pin `p` an output and keeps every other bit (30_encoding.md R87). -/
def fselnew (c : Cfg) (v : Word) (p : Nat) : Word := insertField v (fselsh c p) c.fselOutput

/-- A register of the block (20_memory.md R51). -/
inductive Register where
  /-- Control word `FSEL[j]`, R52. -/
  | fsel (j : Nat)
  /-- Set word `w`, R53. -/
  | set (w : Nat)
  /-- Clear word `w`, R54. -/
  | clr (w : Nat)
  deriving DecidableEq, Repr

/-- The index of the word that `off` names in the region of `n` words at `base`, if it names one. -/
def wordIndex (base n off : Nat) : Option Nat :=
  if base ≤ off ∧ off < base + 4 * n ∧ (off - base) % 4 = 0 then some ((off - base) / 4) else none

/-- The register at a byte offset (20_memory.md R52 to R54); none elsewhere: the spec says nothing of what is there
(R51). -/
def regAt (c : Cfg) (off : Nat) : Option Register :=
  match wordIndex c.ctrlOff c.nf off with
  | some j => some (.fsel j)
  | none =>
    match wordIndex c.setOff c.nw off with
    | some w => some (.set w)
    | none => (wordIndex c.clrOff c.nw off).map .clr

/-- `bitsel(x, n)`: the bit sent after `n` bits of the byte (41_send.md R142 most significant first, R143 its
mirror). -/
def bitsel (o : BitOrder) (x : Byte) (n : Nat) : Bool :=
  match o with
  | .msbFirst => x.getLsbD (7 - n)
  | .lsbFirst => x.getLsbD n

end Sys2Proof.Machine
end

