-- ==== Sys2Proof/Machine/State.lean ====
section
/-!
DEFINITION. The machine's state as plain data (10_state.md), why a step can stop, and the state after reset
(10_state.md R40, 70_reset_and_hazards.md R200).
-/

namespace Sys2Proof.Machine

/-- `LC`, the lifecycle register (10_state.md R28). -/
inductive Lifecycle where
  | absent
  | constructed
  | ready
  | tornDown
  deriving DecidableEq, Repr

/-- `STATUS` (10_state.md R34): success or one of the three error kinds. -/
inductive Status where
  | ok
  | configurationError
  | mappingFailure
  | preconditionViolation
  deriving DecidableEq, Repr

/-- The error kinds a command can raise (60_exceptions.md R170). -/
inductive ErrorKind where
  | configurationError
  | mappingFailure
  | preconditionViolation
  deriving DecidableEq, Repr

/-- `PHASE`, the named phases of 10_state.md R31. -/
inductive Phase where
  | idle
  | iOpen
  | iMap
  | iMasks
  | iClkRd
  | iClkWr
  | iDatRd
  | iDatWr
  | iIdleClk
  | iIdleDat
  | sData
  | sSettle
  | sClkHi
  | sHoldHi
  | sClkLo
  | sHoldLo
  | sRestore
  | tUnmap
  | tClose
  deriving DecidableEq, Repr

/-- `SEQ`, the sequencer position (10_state.md R30). -/
structure Seq where
  phase : Phase
  byteIdx : Nat
  bitCnt : Fin 8
  deriving DecidableEq, Repr

/-- The position while no command is in progress (10_state.md R30). -/
def Seq.idle : Seq := ⟨.idle, 0, 0⟩

/-- The three delays (00_scope.md R10). -/
inductive DelayKind where
  | settle
  | high
  | low
  deriving DecidableEq, Repr

/-- One event of the trace: a micro-operation with its operands and its answer (10_state.md R38). -/
inductive Event where
  | openEv (ans : Answer)
  | mapEv (base len : Nat) (ans : Answer)
  | unmapEv (ans : Answer)
  | closeEv (ans : Answer)
  | rd32 (off : Nat) (value : Word)
  | wr32 (off : Nat) (value : Word)
  | delay (k : DelayKind)
  deriving DecidableEq, Repr

/-- The machine's state: the engine's registers (10_state.md R21 to R35), the peripheral's (R36, R37), the trace
(R38), and the model's own fields for the parameters and inputs of the step relation (R39). -/
@[ext]
structure State where
  /-- The model's own: `CFG`, a parameter of the step relation (R39); no step writes it. Log entry 1. -/
  cfg : Platform
  /-- `LC`, R28. -/
  lc : Lifecycle
  /-- `BUSY`, R32. -/
  busy : Bool
  /-- `SEQ`, R30. -/
  seq : Seq
  /-- `SESSION_VALID`, R24. -/
  sessionValid : Bool
  /-- `MAPPED`, R25. -/
  mapped : Bool
  /-- `CFGERR`, R27. -/
  cfgErr : Bool
  /-- `STATUS`, R34. -/
  status : Status
  /-- `CLKPIN`, R21. -/
  clkPin : Int
  /-- `DATPIN`, R21. -/
  datPin : Int
  /-- `CLKMASK`, R22. -/
  clkMask : Word
  /-- `DATMASK`, R22. -/
  datMask : Word
  /-- `BUF`, its length is `LEN`, R35. -/
  buf : List Byte
  /-- `v`, the holding register of the read-modify-write (40_lifecycle.md R112). -/
  hold : Word
  /-- The pending error of a `T_CLOSE` entered from `I_MAP` (40_lifecycle.md R112, R117). -/
  pending : Option ErrorKind
  /-- `FSEL`, R36: the bytes of the register block by offset, little-endian in each word (20_memory.md R61), in
  canonical form. -/
  block : List Host.Cell
  /-- `LEVEL`, R37: one latch for each line, `true` = high. -/
  level : List Bool
  /-- `TR`, R38, oldest event first. -/
  tr : List Event
  /-- The model's own: the bytes at the host's command port that the engine has not taken. Log entry 8. -/
  cmdIn : List Byte
  /-- The model's own: the platform's answers to the coming requests, oldest first (20_memory.md R62). Log entry 3. -/
  answers : List Answer
  /-- The model's own: requests made so far, the argument of the free answer. Log entry 3. -/
  asked : Nat
  /-- The model's own: the environment's moves in the coming slots, oldest first (20_memory.md R68). Log entry 4. -/
  env : List (List EnvMove)
  /-- The model's own: slots passed so far, the argument of the free moves and reads. Log entry 4. -/
  ticks : Nat
  deriving DecidableEq, Repr

/-- Why a step stops with no next state. -/
inductive Fault where
  /-- Raised by `step` when no complete command word is at the port and no command is in progress: the engine waits
  for a command (70_reset_and_hazards.md R200). Safe: the machine goes on only when the host sends more. -/
  | awaitingCommand
  /-- Raised by `step` when a SEND word is at the port with fewer than LEN payload bytes: "until then the controller
  waits and nothing happens" (30_encoding.md R84; stuck by 93_implementation_defined.md U10). Safe, for the same
  reason. -/
  | awaitingPayload
  deriving DecidableEq, Repr

/-- Why a command gets no meaning. -/
inductive Refusal where
  /-- Raised by `exec` for an instruction that has no meaning yet. Safe. No arm answers so now. -/
  | notModelled (mnemonic : String)
  /-- Raised by `step` on a word whose must-be-zero bits are not all zero (30_encoding.md R88, 60_exceptions.md R186).
  Safe: the spec says that the word is not accepted and nothing happens. -/
  | reservedBitsSet
  /-- Raised by `State.configure` for a configuration that is not well formed (00_scope.md R12: a model refuses it).
  Safe: no machine is built, so nothing is claimed. -/
  | illFormedConfiguration
  /-- Raised by `exec` when a command is in progress (10_state.md R32; 93_implementation_defined.md U11 says that a
  model which offers such a move must refuse it). Safe; `step` never asks for it. -/
  | commandInProgress
  deriving DecidableEq, Repr

/-- The machine on a given platform right after power-on (10_state.md R40, 70_reset_and_hazards.md R200). The values
R40 leaves unspecified are the model's: log entries 6 and 7. -/
def State.powerOn (c : Platform) : State :=
  { cfg := c
    lc := .absent
    busy := false
    seq := Seq.idle
    sessionValid := false
    mapped := false
    cfgErr := false
    status := .ok
    clkPin := 0
    datPin := 0
    clkMask := 0
    datMask := 0
    buf := []
    hold := 0
    pending := none
    block := []
    level := List.replicate c.val.pinCount false
    tr := []
    cmdIn := []
    answers := []
    asked := 0
    env := []
    ticks := 0 }

/-- The state after reset, on the platform `Config.platform`, of which nothing is known but that it is well formed. -/
def State.reset : State := State.powerOn Config.platform

end Sys2Proof.Machine
end

