-- ==== Sys2Proof/Machine/Flags.lean ====
section
/-!
DEFINITION. The flag and status computations: CFGERR (10_state.md R27), the status codes (30_encoding.md R90), which
pins this engine owns, and the level a line shows (20_memory.md R59).
-/

namespace Sys2Proof.Machine

/-- What CONSTRUCT latches in `CFGERR` (10_state.md R27): the pins are identical or one is not valid. -/
def configError (c : Cfg) (clk dat : Int) : Bool :=
  decide (clk = dat) || !decide (PinValid c clk) || !decide (PinValid c dat)

/-- The 2-bit code of a status (10_state.md R34, 30_encoding.md R90). -/
def Status.code (st : Status) : BitVec 2 :=
  match st with
  | .ok => 0b00
  | .configurationError => 0b01
  | .mappingFailure => 0b10
  | .preconditionViolation => 0b11

/-- The name of a status as the spec writes it (30_encoding.md R90). -/
def Status.text (st : Status) : String :=
  match st with
  | .ok => "OK"
  | .configurationError => "ConfigurationError"
  | .mappingFailure => "MappingFailure"
  | .preconditionViolation => "PreconditionViolation"

/-- A command's assembler line with its status after `->` (30_encoding.md R93). -/
def assembleLine (i : Instr) (st : Status) : String := assemble i ++ " -> " ++ st.text

/-- The status that reports an error kind (60_exceptions.md R170). -/
def ErrorKind.status (k : ErrorKind) : Status :=
  match k with
  | .configurationError => .configurationError
  | .mappingFailure => .mappingFailure
  | .preconditionViolation => .preconditionViolation

/-- The clock pin as a line number; only valid pins are ever used so (10_state.md R33). -/
def State.clk (s : State) : Nat := s.clkPin.toNat

/-- The data pin as a line number; only valid pins are ever used so (10_state.md R33). -/
def State.dat (s : State) : Nat := s.datPin.toNat

/-- Line `p` is owned by this engine: it is one of the pins of a live instance (20_memory.md R68, 10_state.md R41).
Before CONSTRUCT there are no such pins, and after TEARDOWN the assumption binds nobody
(93_implementation_defined.md U14). Log entry 5. -/
def State.owns (s : State) (p : Nat) : Bool :=
  (decide (s.lc = .constructed) || decide (s.lc = .ready)) && (decide (s.clkPin = p) || decide (s.datPin = p))

/-- `LEVEL[p]` (10_state.md R37). -/
def State.levelOf (s : State) (p : Nat) : Bool := s.level.getD p false

end Sys2Proof.Machine
end

