-- ==== Sys2Proof/Machine/Ops.lean ====
section
/-!
DEFINITION. The named operations over the state: building a machine on a configuration, the bytes of the register block, its registers, the environment's
slot, the seven micro-operations (00_scope.md section 5), beginning a command, finishing it and raising an error
(40_lifecycle.md, 60_exceptions.md R176).
-/

namespace Sys2Proof.Machine

/-! ### The configuration -/

/-- The machine that a platform's declared configuration makes: powered on when the configuration is well formed,
refused when it is not (00_scope.md R12). -/
def State.configure (c : Cfg) : Host.Outcome State Fault Refusal :=
  if h : c.WellFormed then .next (State.powerOn ⟨c, h⟩) else .refused .illFormedConfiguration

/-! ### The bytes of the register block -/

/-- What an offset that no cell lists reads as. DESIGN CHOICE, unsafe: log entry 7. -/
def unlisted : Byte := 0

/-- The canonical form: offsets strictly rising, and no cell equal to what an unlisted offset reads as. -/
abbrev MemoryWf (m : List Host.Cell) : Prop :=
  m.Pairwise (fun a b => a.1 < b.1) ∧ ∀ c ∈ m, c.2 ≠ unlisted

/-- The byte at an offset. -/
def readByte (m : List Host.Cell) (a : Nat) : Byte :=
  match m with
  | [] => unlisted
  | (k, v) :: rest => if a = k then v else readByte rest a

/-- A cell before a list of cells, left out when it would list what an unlisted offset reads as. -/
def consCell (a : Nat) (b : Byte) (m : List Host.Cell) : List Host.Cell :=
  if b = unlisted then m else (a, b) :: m

/-- Write one byte and keep the canonical form. -/
def writeByte (m : List Host.Cell) (a : Nat) (b : Byte) : List Host.Cell :=
  match m with
  | [] => consCell a b []
  | (k, v) :: rest =>
    if a < k then consCell a b ((k, v) :: rest)
    else if a = k then consCell a b rest
    else (k, v) :: writeByte rest a b

/-- The 32-bit word at an offset, little-endian (20_memory.md R61). -/
def readWord (m : List Host.Cell) (off : Nat) : Word :=
  wordOfBytes (readByte m off) (readByte m (off + 1)) (readByte m (off + 2)) (readByte m (off + 3))

/-- Replace the 32-bit word at an offset, little-endian (20_memory.md R56, R61). -/
def writeWord (m : List Host.Cell) (off : Nat) (v : Word) : List Host.Cell :=
  writeByte (writeByte (writeByte (writeByte m off (wordByte v 0)) (off + 1) (wordByte v 1)) (off + 2) (wordByte v 2))
    (off + 3) (wordByte v 3)

/-! ### The registers of the block -/

/-- `FSEL[j]` (10_state.md R36). -/
def State.fsel (s : State) (j : Nat) : Word := readWord s.block (ctrlWordOff s.cfg.val j)

/-- The function-select field of line `p` in the bytes of the block (20_memory.md R52). -/
def blockField (c : Cfg) (m : List Host.Cell) (p : Nat) : BitVec 3 :=
  fieldAt (readWord m (fseloff c p)) (fselsh c p)

/-- The function-select field of line `p` (20_memory.md R52). -/
def State.fieldOf (s : State) (p : Nat) : BitVec 3 := blockField s.cfg.val s.block p

/-- The level line `p` is driven at, while its field is the output code; none while it is not, for then the spec
does not say what the line does (20_memory.md R59). Log entry 15. -/
def State.lineLevel (s : State) (p : Nat) : Option Bool :=
  if s.fieldOf p = s.cfg.val.fselOutput then some (s.levelOf p) else none

/-- The latches after the set bits of `v`, written to set or clear word `w`, drive their lines to `high`; every other
latch stays (20_memory.md R57, R58). -/
def driveLatches (lvl : List Bool) (w : Nat) (v : Word) (high : Bool) : List Bool :=
  lvl.zipIdx.map fun x => if x.2 / 32 = w ∧ v.getLsbD (x.2 % 32) = true then high else x.1

/-- The control words after a write of `v` to offset `off`: only a control word changes (20_memory.md R56). -/
def blockAfterWrite (c : Cfg) (m : List Host.Cell) (off : Nat) (v : Word) : List Host.Cell :=
  match regAt c off with
  | some (.fsel _) => writeWord m off v
  | some (.set _) => m
  | some (.clr _) => m
  | none => m

/-- The latches after a write of `v` to offset `off`: only the set and clear words change any (20_memory.md R57,
R58). -/
def levelAfterWrite (c : Cfg) (lvl : List Bool) (off : Nat) (v : Word) : List Bool :=
  match regAt c off with
  | some (.fsel _) => lvl
  | some (.set w) => driveLatches lvl w v true
  | some (.clr w) => driveLatches lvl w v false
  | none => lvl

/-- What a read of offset `off` returns: a control word (20_memory.md R55); elsewhere a free value
(93_implementation_defined.md U6), which no step of the engine asks for (20_memory.md R60). -/
def State.readReg (s : State) (off : Nat) : Word :=
  match regAt s.cfg.val off with
  | some (.fsel _) => readWord s.block off
  | some (.set _) => Config.undefinedRead s.ticks
  | some (.clr _) => Config.undefinedRead s.ticks
  | none => Config.undefinedRead s.ticks

/-! ### The environment's slot -/

/-- The environment may touch line `p`: it exists and this engine does not own it (20_memory.md R68). -/
def State.foreign (s : State) (p : Nat) : Bool := decide (p < s.cfg.val.pinCount) && !s.owns p

/-- One move's effect on the control words; `free` says which lines it may touch. -/
def moveBlock (c : Cfg) (free : Nat → Bool) (m : List Host.Cell) (mv : EnvMove) : List Host.Cell :=
  match mv with
  | .field p code =>
    if free p then writeWord m (fseloff c p) (insertField (readWord m (fseloff c p)) (fselsh c p) code) else m
  | .latch _ _ => m

/-- One move's effect on the latches. -/
def moveLevel (free : Nat → Bool) (lvl : List Bool) (mv : EnvMove) : List Bool :=
  match mv with
  | .field _ _ => lvl
  | .latch p high => if free p then lvl.set p high else lvl

/-- What the environment does in the `k`-th coming slot: the state's script, then free values. -/
def State.movesAt (s : State) (k : Nat) : List EnvMove :=
  match s.env[k]? with
  | some mvs => mvs
  | none => Config.envMoves (s.ticks + k)

/-- The environment's slot before a micro-operation, or before a command is taken (20_memory.md R68): any moves on
lines this engine does not own. -/
def State.envTick (s : State) : State :=
  { s with
    block := (s.movesAt 0).foldl (moveBlock s.cfg.val s.foreign) s.block
    level := (s.movesAt 0).foldl (moveLevel s.foreign) s.level
    env := s.env.tail
    ticks := s.ticks + 1 }

/-! ### Single registers -/

/-- `SESSION_VALID <- b` (10_state.md R24). -/
def State.setSession (s : State) (b : Bool) : State := { s with sessionValid := b }

/-- `MAPPED <- b` (10_state.md R25). -/
def State.setMapped (s : State) (b : Bool) : State := { s with mapped := b }

/-- `CLKMASK <- mask(CLKPIN)`; `DATMASK <- mask(DATPIN)` (10_state.md R22). -/
def State.setMasks (s : State) : State := { s with clkMask := maskOf s.clk, datMask := maskOf s.dat }

/-- `v <- w`, the holding register (40_lifecycle.md R112). -/
def State.setHold (s : State) (w : Word) : State := { s with hold := w }

/-- `LC <- l` (10_state.md R28). -/
def State.setLc (s : State) (l : Lifecycle) : State := { s with lc := l }

/-- `BUF <- bytes` (10_state.md R35). -/
def State.setBuf (s : State) (bytes : List Byte) : State := { s with buf := bytes }

/-- The pending error of `T_CLOSE` (40_lifecycle.md R112). -/
def State.setPending (s : State) (e : Option ErrorKind) : State := { s with pending := e }

/-- The sequencer's position (10_state.md R30). -/
def State.setSeq (s : State) (q : Seq) : State := { s with seq := q }

/-! ### Micro-operations (00_scope.md section 5) -/

/-- Append one event to the trace (10_state.md R38). -/
def State.emit (s : State) (e : Event) : State := { s with tr := s.tr ++ [e] }

/-- The platform's answer to the next request: the state's script, then free values (20_memory.md R62). -/
def State.nextAnswer (s : State) : Answer :=
  match s.answers with
  | a :: _ => a
  | [] => Config.platformAnswer s.asked

/-- The request has been answered. -/
def State.answered (s : State) : State := { s with answers := s.answers.tail, asked := s.asked + 1 }

/-- A request to the platform capability, recorded with its answer (20_memory.md R62). -/
def State.request (s : State) (ev : Answer → Event) : Answer × State :=
  (s.nextAnswer, (s.envTick.answered).emit (ev s.nextAnswer))

/-- `OPEN()`. -/
def State.openReq (s : State) : Answer × State := s.request .openEv

/-- `MAP(CFG.GPIO_BASE_PHYS, CFG.GPIO_BLOCK_LEN)`. -/
def State.mapReq (s : State) : Answer × State := s.request (.mapEv s.cfg.val.basePhys s.cfg.val.blockLen)

/-- `UNMAP()`. -/
def State.unmapReq (s : State) : Answer × State := s.request .unmapEv

/-- `CLOSE()`. -/
def State.closeReq (s : State) : Answer × State := s.request .closeEv

/-- `RD32(off)`: the value the block holds at that moment, after the environment's slot (20_memory.md R55). -/
def State.rd32 (s : State) (off : Nat) : Word × State :=
  (s.envTick.readReg off, s.envTick.emit (.rd32 off (s.envTick.readReg off)))

/-- `WR32(off, v)`: the write takes effect before the next micro-operation (20_memory.md R56 to R58, R66). -/
def State.wr32 (s : State) (off : Nat) (v : Word) : State :=
  { s.envTick with
    block := blockAfterWrite s.cfg.val s.envTick.block off v
    level := levelAfterWrite s.cfg.val s.envTick.level off v
    tr := s.tr ++ [.wr32 off v] }

/-- `DELAY(k)`: an event and nothing else (60_exceptions.md R183). -/
def State.delay (s : State) (k : DelayKind) : State := s.envTick.emit (.delay k)

/-! ### Beginning and finishing a command (40_lifecycle.md, opening paragraph) -/

/-- A command is accepted: `BUSY <- 1` (10_state.md R32). -/
def State.accept (s : State) : State := { s with busy := true }

/-- The first position of a phase: `SEQ <- (p, 0, 0)`. -/
def State.goto (s : State) (p : Phase) : State := { s with seq := ⟨p, 0, 0⟩ }

/-- A command completes: `BUSY <- 0`, `SEQ <- (IDLE, 0, 0)`, `STATUS <- st` (10_state.md R30, R32, R34). -/
def State.finish (s : State) (st : Status) : State :=
  { s with busy := false, seq := Seq.idle, pending := none, status := st }

/-- `raise k`: the command ends at once with that status; nothing is saved and no mode changes (60_exceptions.md
R176). The one operation by which every command reports an error; there is no return from it (R177). -/
def State.raiseError (s : State) (k : ErrorKind) : State := s.finish k.status

/-- The engine takes a command from the port and leaves `rest` there, after the environment's slot since the last
command (20_memory.md R68). -/
def State.taken (s : State) (rest : List Byte) : State := { s.envTick with cmdIn := rest }

end Sys2Proof.Machine
end

