-- ==== Sys2Proof/Machine/Sequencer.lean ====
section
/-!
DEFINITION. The micro-operation sequencer (the pin toggle FSM): one definition per phase of 10_state.md R31, each at
most one micro-operation, as 40_lifecycle.md R112, R117 and 41_send.md R146 tabulate them; and running a command
until it completes.
-/

namespace Sys2Proof.Machine

/-! ### INITIALIZE (40_lifecycle.md R112) -/

/-- `I_OPEN`. -/
def phaseOpen (s : State) : State :=
  match s.openReq with
  | (.ok, t) => (t.setSession true).goto .iMap
  | (.fail, t) => t.raiseError .mappingFailure

/-- `I_MAP`: on `fail` the session is closed with `MappingFailure` pending. -/
def phaseMap (s : State) : State :=
  match s.mapReq with
  | (.ok, t) => (t.setMapped true).goto .iMasks
  | (.fail, t) => (t.setPending (some .mappingFailure)).goto .tClose

/-- `I_MASKS`: no micro-operation (10_state.md R22). -/
def phaseMasks (s : State) : State :=
  s.setMasks.goto .iClkRd

/-- `I_CLK_RD`. -/
def phaseClkRd (s : State) : State :=
  ((s.rd32 (fseloff s.cfg.val s.clk)).2.setHold (s.rd32 (fseloff s.cfg.val s.clk)).1).goto .iClkWr

/-- `I_CLK_WR`. -/
def phaseClkWr (s : State) : State :=
  (s.wr32 (fseloff s.cfg.val s.clk) (fselnew s.cfg.val s.hold s.clk)).goto .iDatRd

/-- `I_DAT_RD`. -/
def phaseDatRd (s : State) : State :=
  ((s.rd32 (fseloff s.cfg.val s.dat)).2.setHold (s.rd32 (fseloff s.cfg.val s.dat)).1).goto .iDatWr

/-- `I_DAT_WR`. -/
def phaseDatWr (s : State) : State :=
  (s.wr32 (fseloff s.cfg.val s.dat) (fselnew s.cfg.val s.hold s.dat)).goto .iIdleClk

/-- `I_IDLE_CLK`. -/
def phaseIdleClk (s : State) : State := (s.wr32 (clroff s.cfg.val s.clk) s.clkMask).goto .iIdleDat

/-- `I_IDLE_DAT`: the last write, then `LC <- READY`. -/
def phaseIdleDat (s : State) : State :=
  ((s.wr32 (clroff s.cfg.val s.dat) s.datMask).setLc .ready).finish .ok

/-! ### SEND (41_send.md R146) -/

/-- The next phase of the same bit. -/
def State.sameBit (s : State) (p : Phase) : State :=
  s.setSeq { s.seq with phase := p }

/-- The bit at the sequencer's position: `bitsel(BUF[BYTE_IDX], BIT_CNT)`. -/
def State.currentBit (s : State) : Bool :=
  bitsel s.cfg.val.bitOrder (s.buf.getD s.seq.byteIdx 0) s.seq.bitCnt.val

/-- Where the data line is written for a bit: the set word for 1, the clear word for 0 (41_send.md R141 step a). -/
def dataOff (c : Cfg) (p : Nat) (b : Bool) : Nat := if b then setoff c p else clroff c p

/-- `S_DATA`. -/
def phaseData (s : State) : State :=
  (s.wr32 (dataOff s.cfg.val s.dat s.currentBit) s.datMask).sameBit .sSettle

/-- `S_SETTLE`. -/
def phaseSettle (s : State) : State := (s.delay .settle).sameBit .sClkHi

/-- `S_CLK_HI`: the rising edge. -/
def phaseClkHi (s : State) : State := (s.wr32 (setoff s.cfg.val s.clk) s.clkMask).sameBit .sHoldHi

/-- `S_HOLD_HI`. -/
def phaseHoldHi (s : State) : State := (s.delay .high).sameBit .sClkLo

/-- `S_CLK_LO`: the falling edge. -/
def phaseClkLo (s : State) : State := (s.wr32 (clroff s.cfg.val s.clk) s.clkMask).sameBit .sHoldLo

/-- The position after a bit: the next bit of the byte, the first bit of the next byte, or the idle restore. -/
def nextBit (q : Seq) (len : Nat) : Seq :=
  if h : q.bitCnt.val < 7 then ⟨.sData, q.byteIdx, ⟨q.bitCnt.val + 1, by omega⟩⟩
  else if q.byteIdx + 1 < len then ⟨.sData, q.byteIdx + 1, 0⟩
  else ⟨.sRestore, q.byteIdx, 7⟩

/-- `S_HOLD_LO`. -/
def phaseHoldLo (s : State) : State :=
  (s.delay .low).setSeq (nextBit s.seq s.buf.length)

/-- `S_RESTORE`: the idle restore (41_send.md R144). -/
def phaseRestore (s : State) : State := (s.wr32 (clroff s.cfg.val s.dat) s.datMask).finish .ok

/-! ### TEARDOWN (40_lifecycle.md R117) -/

/-- `T_UNMAP`: the answer is ignored. -/
def phaseUnmap (s : State) : State :=
  (if s.mapped then s.unmapReq.2.setMapped false else s).goto .tClose

/-- Release the session if one is held; the answer is ignored. -/
def State.release (s : State) : State :=
  if s.sessionValid then s.closeReq.2.setSession false else s

/-- `LC` after TEARDOWN (40_lifecycle.md R116). -/
def lcAfterTeardown (l : Lifecycle) : Lifecycle := if l = .absent then .absent else .tornDown

/-- `T_CLOSE`: entered from `I_MAP` it reports the pending error and leaves `LC`; entered from TEARDOWN it ends the
lifetime. -/
def phaseClose (s : State) : State :=
  match s.pending with
  | some k => s.release.raiseError k
  | none => (s.release.setLc (lcAfterTeardown s.lc)).finish .ok

/-! ### The step of the sequencer -/

/-- One micro-step (10_state.md R31). In `IDLE` there is nothing to do. -/
def microStep (s : State) : State :=
  match s.seq.phase with
  | .idle => s
  | .iOpen => phaseOpen s
  | .iMap => phaseMap s
  | .iMasks => phaseMasks s
  | .iClkRd => phaseClkRd s
  | .iClkWr => phaseClkWr s
  | .iDatRd => phaseDatRd s
  | .iDatWr => phaseDatWr s
  | .iIdleClk => phaseIdleClk s
  | .iIdleDat => phaseIdleDat s
  | .sData => phaseData s
  | .sSettle => phaseSettle s
  | .sClkHi => phaseClkHi s
  | .sHoldHi => phaseHoldHi s
  | .sClkLo => phaseClkLo s
  | .sHoldLo => phaseHoldLo s
  | .sRestore => phaseRestore s
  | .tUnmap => phaseUnmap s
  | .tClose => phaseClose s

/-- Run the command in progress for at most `fuel` micro-steps; it stops when `BUSY = 0`. -/
def runCommand (fuel : Nat) (s : State) : State :=
  match fuel with
  | 0 => s
  | n + 1 => if s.busy then runCommand n (microStep s) else s

/-- The micro-steps an INITIALIZE takes at most (40_lifecycle.md R112). -/
def initialiseBudget : Nat := 9

/-- The micro-steps a SEND of `len` bytes takes (41_send.md R147). -/
def sendBudget (len : Nat) : Nat := 48 * len + 1

/-- The micro-steps a TEARDOWN takes (40_lifecycle.md R117). -/
def teardownBudget : Nat := 2

end Sys2Proof.Machine
end

