-- ==== Sys2Proof/Machine/Lifecycle.lean ====
section
/-!
DEFINITION. The meanings of the lifecycle commands CONSTRUCT, INITIALIZE and TEARDOWN (40_lifecycle.md).
-/

namespace Sys2Proof.Machine

/-- The registers CONSTRUCT latches (40_lifecycle.md R110). -/
def State.latchPins (s : State) (clk dat : Int) : State :=
  { s with clkPin := clk, datPin := dat, cfgErr := configError s.cfg.val clk dat, lc := .constructed }

/-- `CONSTRUCT(clk, dat)` from acceptance to completion (40_lifecycle.md R110); it has no micro-operation. -/
def construct (clk dat : Int) (s : State) : State :=
  if s.lc ≠ .absent then s.accept.raiseError .preconditionViolation
  else if configError s.cfg.val clk dat then (s.accept.latchPins clk dat).raiseError .configurationError
  else (s.accept.latchPins clk dat).finish .ok

/-- The accept row of INITIALIZE (40_lifecycle.md R112): the checks in the order of 60_exceptions.md R175. -/
def acceptInitialise (s : State) : State :=
  if s.lc ≠ .constructed then s.accept.raiseError .preconditionViolation
  else if s.cfgErr then s.accept.raiseError .configurationError
  else s.accept.goto .iOpen

/-- The accept row of TEARDOWN (40_lifecycle.md R117): nothing is checked. -/
def acceptTeardown (s : State) : State := (s.accept.setPending none).goto .tUnmap

/-- CONSTRUCT; a command in progress excludes it (10_state.md R32). -/
def execConstruct (clk dat : Int) (s : State) : Host.Outcome State Fault Refusal :=
  if s.busy then .refused .commandInProgress else .next (construct clk dat s)

/-- INITIALIZE: the accept row, then its micro-steps until it completes (40_lifecycle.md R111, R112). -/
def execInitialise (s : State) : Host.Outcome State Fault Refusal :=
  if s.busy then .refused .commandInProgress else .next (runCommand initialiseBudget (acceptInitialise s))

/-- TEARDOWN: the accept row, then its micro-steps until it completes (40_lifecycle.md R116, R117). -/
def execTeardown (s : State) : Host.Outcome State Fault Refusal :=
  if s.busy then .refused .commandInProgress else .next (runCommand teardownBudget (acceptTeardown s))

end Sys2Proof.Machine
end

