-- ==== Sys2Proof/Machine/Send.lean ====
section
/-!
DEFINITION. The meaning of SEND (41_send.md).
-/

namespace Sys2Proof.Machine

/-- The accept row of SEND (41_send.md R146): `PreconditionViolation` unless READY, the snapshot of the buffer, and
nothing more to do when it is empty (R145). -/
def acceptSend (bytes : List Byte) (s : State) : State :=
  if s.lc ≠ .ready then s.accept.raiseError .preconditionViolation
  else if bytes.length = 0 then (s.accept.setBuf bytes).finish .ok
  else (s.accept.setBuf bytes).goto .sData

/-- SEND: the accept row, then its micro-steps until it completes (41_send.md R140, R146, R147); a command in
progress excludes it (10_state.md R32). -/
def execSend (bytes : List Byte) (s : State) : Host.Outcome State Fault Refusal :=
  if s.busy then .refused .commandInProgress else .next (runCommand (sendBudget bytes.length) (acceptSend bytes s))

end Sys2Proof.Machine
end

