-- ==== Sys2Proof/Machine/Dispatch.lean ====
section
/-!
DEFINITION. One arm per command: the direct call of its meaning.
-/

namespace Sys2Proof.Machine

def exec (i : Instr) (s : State) : Host.Outcome State Fault Refusal :=
  match i with
  | .construct clk dat => Sys2Proof.Machine.execConstruct clk dat s
  | .initialise => Sys2Proof.Machine.execInitialise s
  | .send bytes => Sys2Proof.Machine.execSend bytes s
  | .teardown => Sys2Proof.Machine.execTeardown s

end Sys2Proof.Machine
end

