-- ==== Sys2Proof/Machine/Step.lean ====
section
/-!
DEFINITION. One step of the machine. With no command in progress the engine takes the next command from the host's
port and carries it out; with a command in progress (a state no step leaves behind, 10_state.md R32) it makes one
micro-step of it. Log entry 2.
-/

namespace Sys2Proof.Machine

/-- What the engine does with what the port holds (30_encoding.md R80, R84, R88). -/
def stepDecoded (d : Decoded) (s : State) : Host.Outcome State Fault Refusal :=
  match d with
  | .command i rest => exec i (s.taken rest)
  | .incompleteWord => .fault .awaitingCommand
  | .incompletePayload => .fault .awaitingPayload
  | .reservedBits => .refused .reservedBitsSet

/-- One step. -/
def step (s : State) : Host.Outcome State Fault Refusal :=
  if s.busy then .next (microStep s) else stepDecoded (decode s.cmdIn) s

/-- The state with an instruction of the opcode table at the front of the command port, and no command in progress,
so that the next step takes it. Log entry 14. -/
def State.withFetchWord (s : State) (nbits w : Nat) : State :=
  { s with busy := false, seq := Seq.idle, cmdIn := tableBytes nbits w ++ s.cmdIn }

end Sys2Proof.Machine
end

