-- ==== Sys2Proof/Machine/BigStep.lean ====
section
/-!
DEFINITION. The commands as the spec's big-step pseudocode writes them (40_lifecycle.md R111, R113, R116; 41_send.md
R140, R141), line by line over the same micro-operations. No step calls these: the statements say that the sequencer
does exactly what they do.
-/

namespace Sys2Proof.Machine

/-- `CONFIG_OUTPUT(p)`: `v <- RD32(fseloff(p)); WR32(fseloff(p), fselnew(v, p))` (40_lifecycle.md R113). -/
def configOutput (s : State) (p : Nat) : State :=
  let r := s.rd32 (fseloff s.cfg.val p)
  (r.2.setHold r.1).wr32 (fseloff s.cfg.val p) (fselnew s.cfg.val r.1 p)

/-- Steps 4 to 6 of INITIALIZE, once the block is mapped (40_lifecycle.md R111). -/
def bigConfigure (s : State) : State :=
  let s := s.setMasks
  let s := configOutput s s.clk
  let s := configOutput s s.dat
  let s := s.wr32 (clroff s.cfg.val s.clk) s.clkMask
  let s := s.wr32 (clroff s.cfg.val s.dat) s.datMask
  (s.setLc .ready).finish .ok

/-- INITIALIZE (40_lifecycle.md R111). -/
def bigInitialise (s : State) : State :=
  if s.lc ≠ .constructed then s.finish .preconditionViolation
  else if s.cfgErr then s.finish .configurationError
  else
    match s.openReq with
    | (.fail, s) => s.finish .mappingFailure
    | (.ok, s) =>
      match (s.setSession true).mapReq with
      | (.fail, s) => (s.closeReq.2.setSession false).finish .mappingFailure
      | (.ok, s) => bigConfigure (s.setMapped true)

/-- TEARDOWN (40_lifecycle.md R116). -/
def bigTeardown (s : State) : State :=
  let s := if s.mapped then s.unmapReq.2.setMapped false else s
  let s := if s.sessionValid then s.closeReq.2.setSession false else s
  let s := if s.lc ≠ .absent then s.setLc .tornDown else s
  s.finish .ok

/-- `BIT(b)`, the six micro-operations of one bit (41_send.md R141). -/
def sendBit (s : State) (b : Bool) : State :=
  let s := if b then s.wr32 (setoff s.cfg.val s.dat) s.datMask else s.wr32 (clroff s.cfg.val s.dat) s.datMask
  let s := s.delay .settle
  let s := s.wr32 (setoff s.cfg.val s.clk) s.clkMask
  let s := s.delay .high
  let s := s.wr32 (clroff s.cfg.val s.clk) s.clkMask
  s.delay .low

/-- The bits of a byte in the order they are sent: `bitsel(x, 0), ..., bitsel(x, 7)` (41_send.md R142). -/
def byteBits (o : BitOrder) (x : Byte) : List Bool := (List.range 8).map (bitsel o x)

/-- The inner loop of SEND: one byte. -/
def sendByte (s : State) (x : Byte) : State := (byteBits s.cfg.val.bitOrder x).foldl sendBit s

/-- SEND (41_send.md R140). -/
def bigSend (bytes : List Byte) (s : State) : State :=
  if s.lc ≠ .ready then s.finish .preconditionViolation
  else
    let s := s.setBuf bytes
    let s := bytes.foldl sendByte s
    let s := if bytes.length > 0 then s.wr32 (clroff s.cfg.val s.dat) s.datMask else s
    s.finish .ok

end Sys2Proof.Machine
end

