-- ==== Sys2Proof/Safety.lean ====
section
/-!
DEFINITION. The terms the statements use: the trace a SEND leaves, what a receiver reads from a trace, counts and
hold times over a trace, quiet environments, the lifecycle table, and the invariant of the machine.
-/

namespace Sys2Proof.Machine

/-! ### The trace of a SEND -/

/-- The six events of `BIT(b)` (41_send.md R141). -/
def bitTrace (s : State) (b : Bool) : List Event :=
  [.wr32 (if b then setoff s.cfg.val s.dat else clroff s.cfg.val s.dat) s.datMask,
   .delay .settle,
   .wr32 (setoff s.cfg.val s.clk) s.clkMask,
   .delay .high,
   .wr32 (clroff s.cfg.val s.clk) s.clkMask,
   .delay .low]

/-- Every bit of a buffer, in the order sent (41_send.md R140, R142). -/
def bufferBits (o : BitOrder) (bytes : List Byte) : List Bool := bytes.flatMap (byteBits o)

/-- The events a SEND accepted in READY appends: six for each bit, then the idle restore when there was any bit
(41_send.md R140, R141, R144). -/
def sendTrace (s : State) (bytes : List Byte) : List Event :=
  (bufferBits s.cfg.val.bitOrder bytes).flatMap (bitTrace s) ++
    if bytes.length > 0 then [.wr32 (clroff s.cfg.val s.dat) s.datMask] else []

/-! ### Reading a trace (30_encoding.md R92) -/

/-- What a receiver that samples the data line at every rising edge of the clock reads, from the levels before the
trace (41_send.md R150): the clock's latch goes from low to high in one write. -/
def samples (c : Cfg) (clk dat : Nat) (lvl : List Bool) (tr : List Event) : List Bool :=
  match tr with
  | [] => []
  | .wr32 off v :: rest =>
    if lvl.getD clk false = false ∧ (levelAfterWrite c lvl off v).getD clk false = true then
      (levelAfterWrite c lvl off v).getD dat false :: samples c clk dat (levelAfterWrite c lvl off v) rest
    else samples c clk dat (levelAfterWrite c lvl off v) rest
  | .openEv _ :: rest => samples c clk dat lvl rest
  | .mapEv _ _ _ :: rest => samples c clk dat lvl rest
  | .unmapEv _ :: rest => samples c clk dat lvl rest
  | .closeEv _ :: rest => samples c clk dat lvl rest
  | .rd32 _ _ :: rest => samples c clk dat lvl rest
  | .delay _ :: rest => samples c clk dat lvl rest

/-- The lower bound a delay holds for (00_scope.md R10). -/
def holdOf (c : Cfg) (k : DelayKind) : Nat :=
  match k with
  | .settle => c.tSettle
  | .high => c.tHigh
  | .low => c.tLow

/-- The lower bound one event takes: only a delay takes any (70_reset_and_hazards.md R220). -/
def eventTime (c : Cfg) (e : Event) : Nat :=
  match e with
  | .delay k => holdOf c k
  | .openEv _ => 0
  | .mapEv _ _ _ => 0
  | .unmapEv _ => 0
  | .closeEv _ => 0
  | .rd32 _ _ => 0
  | .wr32 _ _ => 0

/-- The lower bound a trace takes. -/
def traceTime (c : Cfg) (tr : List Event) : Nat := (tr.map (eventTime c)).sum

/-- A successful OPEN. -/
def Event.isOpenOk (e : Event) : Bool := e == .openEv .ok

/-- A CLOSE, whatever its answer. -/
def Event.isClose (e : Event) : Bool := e == .closeEv .ok || e == .closeEv .fail

/-- An UNMAP, whatever its answer. -/
def Event.isUnmap (e : Event) : Bool := e == .unmapEv .ok || e == .unmapEv .fail

/-- A successful MAP. -/
def Event.isMapOk (e : Event) : Bool :=
  match e with
  | .mapEv _ _ ans => ans == .ok
  | .openEv _ => false
  | .unmapEv _ => false
  | .closeEv _ => false
  | .rd32 _ _ => false
  | .wr32 _ _ => false
  | .delay _ => false

/-- An event without the values the register block decides: the value a read returned and the value written back to a
control word (93_implementation_defined.md U1). -/
def eventShape (c : Cfg) (e : Event) : Event :=
  match e with
  | .rd32 off _ => .rd32 off 0
  | .wr32 off v =>
    match regAt c off with
    | some (.fsel _) => .wr32 off 0
    | some (.set _) => .wr32 off v
    | some (.clr _) => .wr32 off v
    | none => .wr32 off v
  | .openEv ans => .openEv ans
  | .mapEv base len ans => .mapEv base len ans
  | .unmapEv ans => .unmapEv ans
  | .closeEv ans => .closeEv ans
  | .delay k => .delay k

/-- An aligned offset with its whole word inside the block (20_memory.md R50, R63). -/
abbrev OffsetOk (c : Cfg) (off : Nat) : Prop := off % 4 = 0 ∧ off + 4 ≤ c.blockLen

/-- The offset of a control word. -/
abbrev InControl (c : Cfg) (off : Nat) : Prop := ∃ j, j < c.nf ∧ off = ctrlWordOff c j

/-- The offset of a word of one of the three regions. -/
abbrev InRegions (c : Cfg) (off : Nat) : Prop :=
  InControl c off ∨ (∃ w, w < c.nw ∧ off = c.setOff + 4 * w) ∨ (∃ w, w < c.nw ∧ off = c.clrOff + 4 * w)

/-- The accesses the engine makes: reads of control words, writes in the three regions, each aligned and inside the
block (20_memory.md R60, R63). -/
def AccessOk (c : Cfg) (e : Event) : Prop :=
  match e with
  | .rd32 off _ => InControl c off ∧ OffsetOk c off
  | .wr32 off _ => InRegions c off ∧ OffsetOk c off
  | .openEv _ => True
  | .mapEv _ _ _ => True
  | .unmapEv _ => True
  | .closeEv _ => True
  | .delay _ => True

/-- An access of a word that holds an owned pin: reads of the pins' control words, writes of the pins' control, set and
clear words (20_memory.md R60); no other event is an access. -/
def OwnAccess (s : State) (e : Event) : Prop :=
  match e with
  | .rd32 off _ => off = fseloff s.cfg.val s.clk ∨ off = fseloff s.cfg.val s.dat
  | .wr32 off _ =>
    off = fseloff s.cfg.val s.clk ∨ off = fseloff s.cfg.val s.dat ∨ off = setoff s.cfg.val s.clk ∨
      off = setoff s.cfg.val s.dat ∨ off = clroff s.cfg.val s.clk ∨ off = clroff s.cfg.val s.dat
  | .openEv _ => True
  | .mapEv _ _ _ => True
  | .unmapEv _ => True
  | .closeEv _ => True
  | .delay _ => True

/-- What must be held for an event (10_state.md R25, 20_memory.md R62): the mapping for an access and for UNMAP, the
session for MAP and for CLOSE. -/
def Event.Allowed (e : Event) (sessionValid mapped : Bool) : Prop :=
  match e with
  | .rd32 _ _ => mapped = true
  | .wr32 _ _ => mapped = true
  | .unmapEv _ => mapped = true
  | .mapEv _ _ _ => sessionValid = true
  | .closeEv _ => sessionValid = true
  | .openEv _ => True
  | .delay _ => True

/-! ### Environment -/

/-- The environment does nothing in the next `n` slots. -/
def State.Quiet (s : State) (n : Nat) : Prop := ∀ k, k < n → s.movesAt k = []

/-! ### The lifecycle table -/

/-- The outcomes the table of 10_state.md R29 allows a command accepted in lifecycle state `l`. -/
def lifecycleTable (i : Instr) (l : Lifecycle) (err : Bool) : List (Lifecycle × Status) :=
  match i, l with
  | .construct _ _, .absent => [(.constructed, .ok), (.constructed, .configurationError)]
  | .construct _ _, .constructed => [(.constructed, .preconditionViolation)]
  | .construct _ _, .ready => [(.ready, .preconditionViolation)]
  | .construct _ _, .tornDown => [(.tornDown, .preconditionViolation)]
  | .initialise, .absent => [(.absent, .preconditionViolation)]
  | .initialise, .constructed =>
    if err then [(.constructed, .configurationError)] else [(.ready, .ok), (.constructed, .mappingFailure)]
  | .initialise, .ready => [(.ready, .preconditionViolation)]
  | .initialise, .tornDown => [(.tornDown, .preconditionViolation)]
  | .send _, .absent => [(.absent, .preconditionViolation)]
  | .send _, .constructed => [(.constructed, .preconditionViolation)]
  | .send _, .ready => [(.ready, .ok)]
  | .send _, .tornDown => [(.tornDown, .preconditionViolation)]
  | .teardown, .absent => [(.absent, .ok)]
  | .teardown, .constructed => [(.tornDown, .ok)]
  | .teardown, .ready => [(.tornDown, .ok)]
  | .teardown, .tornDown => [(.tornDown, .ok)]

/-! ### The invariant -/

/-- The flags while INITIALIZE configures: the block is mapped and the pins are good. -/
abbrev State.Configuring (s : State) : Prop :=
  s.lc = .constructed ∧ s.cfgErr = false ∧ s.sessionValid = true ∧ s.mapped = true

/-- The masks are those of the pins (10_state.md R22). -/
abbrev State.MasksSet (s : State) : Prop := s.clkMask = maskOf s.clk ∧ s.datMask = maskOf s.dat

/-- Line `p` is configured as an output (20_memory.md R52). -/
abbrev State.IsOutput (s : State) (p : Nat) : Prop := s.fieldOf p = s.cfg.val.fselOutput

/-- A SEND is in progress at a bit of its buffer. -/
abbrev State.Sending (s : State) : Prop :=
  s.lc = .ready ∧ s.sessionValid = true ∧ s.mapped = true ∧ s.seq.byteIdx < s.buf.length

/-- What holds in each phase of the sequencer (10_state.md R31; 40_lifecycle.md R112, R117; 41_send.md R146, R149). -/
def State.PhaseInv (s : State) : Prop :=
  match s.seq.phase with
  | .idle => True
  | .iOpen => s.lc = .constructed ∧ s.cfgErr = false ∧ s.sessionValid = false ∧ s.mapped = false
  | .iMap => s.lc = .constructed ∧ s.cfgErr = false ∧ s.sessionValid = true ∧ s.mapped = false
  | .iMasks => s.Configuring
  | .iClkRd => s.Configuring ∧ s.MasksSet
  | .iClkWr => s.Configuring ∧ s.MasksSet
  | .iDatRd => s.Configuring ∧ s.MasksSet ∧ s.IsOutput s.clk
  | .iDatWr => s.Configuring ∧ s.MasksSet ∧ s.IsOutput s.clk ∧
      (fselw s.cfg.val s.clk = fselw s.cfg.val s.dat →
        fieldAt s.hold (fselsh s.cfg.val s.clk) = s.cfg.val.fselOutput)
  | .iIdleClk => s.Configuring ∧ s.MasksSet ∧ s.IsOutput s.clk ∧ s.IsOutput s.dat
  | .iIdleDat => s.Configuring ∧ s.MasksSet ∧ s.IsOutput s.clk ∧ s.IsOutput s.dat ∧ s.levelOf s.clk = false
  | .sData => s.Sending ∧ s.levelOf s.clk = false
  | .sSettle => s.Sending ∧ s.levelOf s.clk = false ∧ s.levelOf s.dat = s.currentBit
  | .sClkHi => s.Sending ∧ s.levelOf s.clk = false ∧ s.levelOf s.dat = s.currentBit
  | .sHoldHi => s.Sending ∧ s.levelOf s.clk = true ∧ s.levelOf s.dat = s.currentBit
  | .sClkLo => s.Sending ∧ s.levelOf s.clk = true ∧ s.levelOf s.dat = s.currentBit
  | .sHoldLo => s.Sending ∧ s.levelOf s.clk = false ∧ s.levelOf s.dat = s.currentBit
  | .sRestore => s.lc = .ready ∧ s.sessionValid = true ∧ s.mapped = true ∧ s.levelOf s.clk = false
  | .tUnmap => s.pending = none ∧ s.mapped = s.sessionValid ∧ (s.mapped = true ↔ s.lc = .ready)
  | .tClose => s.mapped = false ∧
      ((s.pending = some .mappingFailure ∧ s.lc = .constructed ∧ s.cfgErr = false ∧ s.sessionValid = true) ∨
       (s.pending = none ∧ (s.sessionValid = true ↔ s.lc = .ready)))

/-- The invariant of the machine: every step keeps it, and it holds after reset. -/
structure State.Inv (s : State) : Prop where
  /-- The block's bytes are in canonical form. -/
  blockWf : MemoryWf s.block
  /-- One latch for each line (10_state.md R37). -/
  levelLength : s.level.length = s.cfg.val.pinCount
  /-- No command in progress: `SEQ = (IDLE, 0, 0)` (10_state.md R30). -/
  idleSeq : s.busy = false → s.seq = Seq.idle
  /-- A command in progress is in some phase of its own (10_state.md R31, R32). -/
  busyPhase : s.busy = true → s.seq.phase ≠ .idle
  /-- An error is pending only while a failed INITIALIZE closes its session (40_lifecycle.md R112). -/
  pendingCloses : s.pending ≠ none → s.seq.phase = .tClose
  /-- `CFGERR` is the check of the latched pins (10_state.md R27). -/
  cfgErrLatched : s.lc ≠ .absent → s.cfgErr = configError s.cfg.val s.clkPin s.datPin
  /-- READY is reached with good pins only, and with both masks written and both pins outputs (10_state.md R22, R28;
  20_memory.md R59). -/
  readyPins : s.lc = .ready → s.cfgErr = false ∧ s.MasksSet ∧ s.IsOutput s.clk ∧ s.IsOutput s.dat
  /-- At a quiescent point the resources are held together, and exactly in READY (10_state.md R26). -/
  quiescent : s.busy = false → s.mapped = s.sessionValid ∧ (s.mapped = true ↔ s.lc = .ready)
  /-- At a quiescent point in READY both lines are at the idle level (41_send.md R144, R145). -/
  idleLevels : s.busy = false → s.lc = .ready → s.levelOf s.clk = false ∧ s.levelOf s.dat = false
  /-- What each phase may rely on. -/
  phase : s.PhaseInv
  /-- Every successful OPEN is closed, or is the session held (40_lifecycle.md R118). -/
  opens : s.tr.countP Event.isOpenOk = s.tr.countP Event.isClose + s.sessionValid.toNat
  /-- Every successful MAP is unmapped, or is the mapping held (40_lifecycle.md R118). -/
  maps : s.tr.countP Event.isMapOk = s.tr.countP Event.isUnmap + s.mapped.toNat
  /-- Every access was one the engine may make (20_memory.md R60). -/
  accesses : ∀ e ∈ s.tr, AccessOk s.cfg.val e

end Sys2Proof.Machine
end

