-- ==== Sys2Proof/Certificates/Slice0/Obligations.lean ====
section
/-!
DEFINITION. The statements for the provers. Each docstring names the rule of spec/ it formalises.
-/

open Sys2Proof Sys2Proof.Machine

/-! ### Encoding -/

/-- Words written out from 30_encoding.md R82 to R85 and R88, at the command port with their payload (the words of
95_test_vectors.md section 2.4). The byte order of the word is the model's: log entry 8. -/
def Obligations.CommandWordsDecode : Prop :=
  decode (bytesOfWord 0b00000000000000000000101100001010#32) = .command (.construct 11 10) [] ∧
  decode (bytesOfWord 0b00000000000000001111111111111110#32) = .command (.construct 255 254) [] ∧
  decode (bytesOfWord 0b01000000000000000000000000000000#32) = .command .initialise [] ∧
  decode (bytesOfWord 0b10000000000000000000000000000000#32) = .command (.send []) [] ∧
  decode (bytesOfWord 0b10000000000000000000000000000001#32 ++ [0xA5#8]) = .command (.send [0xA5#8]) [] ∧
  decode (bytesOfWord 0b11000000000000000000000000000000#32) = .command .teardown [] ∧
  decode (bytesOfWord 0b00000000000000010000101100001010#32) = .reservedBits ∧
  decode (bytesOfWord 0b01000000000000000000000000000001#32) = .reservedBits ∧
  decode (bytesOfWord 0b11000000000000000000000100000000#32) = .reservedBits

/-- Decoding an encoded command gives it back, for every command the word can carry, whatever follows it on the port
(30_encoding.md R80 to R85). -/
def Obligations.DecodeOfEncodeGivesTheCommand : Prop :=
  ∀ (i : Instr) (rest : List Byte), i.WellFormed → decode (encode i ++ rest) = .command i rest

/-- The bytes a command is decoded from are its encoding: no word decodes to a command it does not encode
(30_encoding.md R80 to R85, R88). -/
def Obligations.EncodeOfDecodeGivesTheBytes : Prop :=
  ∀ (bytes : List Byte) (i : Instr) (rest : List Byte),
    decode bytes = .command i rest → i.WellFormed ∧ bytes = encode i ++ rest

/-- A word whose must-be-zero bits (30_encoding.md R81) are not all zero is refused by name and the step has no next
state, so no state changes (R88). That the word stands at the port least significant byte first is the model's choice:
log entry 8; that the run ends there: log entry 9. -/
def Obligations.ReservedWordIsRefused : Prop :=
  ∀ (s : State) (w : Word) (rest : List Byte), s.busy = false → s.cmdIn = bytesOfWord w ++ rest →
    ((w.extractLsb' 30 2 = 0b00#2 ∧ w.extractLsb' 16 14 ≠ 0#14) ∨
     (w.extractLsb' 30 2 = 0b01#2 ∧ w.extractLsb' 0 30 ≠ 0#30) ∨
     (w.extractLsb' 30 2 = 0b11#2 ∧ w.extractLsb' 0 30 ≠ 0#30)) →
    step s = .refused .reservedBitsSet

/-- A SEND word with fewer than LEN payload bytes, and a word of fewer than four bytes, make the engine wait
(30_encoding.md R84; 93_implementation_defined.md U10). The port and the two named faults are the model's: log entries 8
and 10. -/
def Obligations.IncompleteCommandWaits : Prop :=
  (∀ (s : State) (w : Word) (part : List Byte), s.busy = false → s.cmdIn = bytesOfWord w ++ part →
    w.extractLsb' 30 2 = 0b10#2 → part.length < (w.extractLsb' 0 30).toNat → step s = .fault .awaitingPayload) ∧
  (∀ s : State, s.busy = false → s.cmdIn.length < 4 → step s = .fault .awaitingCommand)

/-! ### The step -/

/-- With no command in progress, a step carries out the command at the port on the state in which it has been taken:
after the environment's slot, with the command's bytes removed and nothing else changed. That a step is a whole command,
the port and the slot are the model's choices: log entries 2, 4 and 8. -/
def Obligations.StepRunsTheDecodedCommand : Prop :=
  ∀ (s : State) (i : Instr) (rest : List Byte), s.busy = false → decode s.cmdIn = .command i rest →
    step s = exec i (s.taken rest) ∧
    s.taken rest = { s with block := s.envTick.block, level := s.envTick.level, env := s.env.tail,
                            ticks := s.ticks + 1, cmdIn := rest }

/-- With a command in progress, a step is one micro-step of it, and no other command gets in (10_state.md R32;
93_implementation_defined.md U11). The granularity and the refusal's form are the model's: log entries 2 and 11. -/
def Obligations.CommandInProgressExcludesOthers : Prop :=
  ∀ (s : State), s.busy = true →
    step s = .next (microStep s) ∧ ∀ i : Instr, exec i s = .refused .commandInProgress

/-- Every command, accepted in any state, runs to its completion: BUSY is 0 and SEQ is (IDLE, 0, 0) again
(10_state.md R30, R32; 41_send.md R147). That exec runs the command whole is the model's choice: log entry 2. -/
def Obligations.EveryCommandRunsToCompletion : Prop :=
  ∀ (i : Instr) (s : State), s.busy = false →
    ∃ t, exec i s = .next t ∧ t.busy = false ∧ t.seq = Seq.idle ∧ t.pending = none

/-! ### Reset -/

/-- What power-on leaves, on every platform: the values 10_state.md R40 gives. The values it leaves unspecified are
the model's (log entries 6 and 7) and are not stated. -/
def Obligations.PowerOnValues : Prop :=
  ∀ c : Platform, (State.powerOn c).lc = .absent ∧ (State.powerOn c).busy = false ∧
    (State.powerOn c).seq = ⟨.idle, 0, 0⟩ ∧ (State.powerOn c).sessionValid = false ∧
    (State.powerOn c).mapped = false ∧ (State.powerOn c).cfgErr = false ∧ (State.powerOn c).status = .ok ∧
    (State.powerOn c).tr = []

/-- The invariant holds after reset, on every platform. -/
def Obligations.ResetHasTheInvariant : Prop :=
  State.reset.Inv ∧ ∀ c : Platform, (State.powerOn c).Inv

/-! ### CONSTRUCT -/

/-- CONSTRUCT, all of it (40_lifecycle.md R110): outside ABSENT only STATUS changes; in ABSENT the pins and the check
are latched, whatever the check says, and nothing else changes, no event, no byte of the block, no latch. -/
def Obligations.ConstructResult : Prop :=
  ∀ (clk dat : Int) (s : State), s.busy = false →
    exec (.construct clk dat) s = .next (
      if s.lc ≠ .absent then
        { s with busy := false, seq := Seq.idle, pending := none, status := .preconditionViolation }
      else
        { s with
          busy := false, seq := Seq.idle, pending := none
          clkPin := clk, datPin := dat, lc := .constructed
          cfgErr := decide (clk = dat ∨ ¬ (0 ≤ clk ∧ clk < s.cfg.val.pinCount) ∨
            ¬ (0 ≤ dat ∧ dat < s.cfg.val.pinCount))
          status := if clk = dat ∨ ¬ (0 ≤ clk ∧ clk < s.cfg.val.pinCount) ∨ ¬ (0 ≤ dat ∧ dat < s.cfg.val.pinCount)
            then .configurationError else .ok })

/-- ConfigurationError, at construction and at every INITIALIZE in CONSTRUCTED with CFGERR = 1: no micro-operation, no
request to the platform, no access (60_exceptions.md R171). -/
def Obligations.ConfigurationErrorTouchesNothing : Prop :=
  (∀ (clk dat : Int) (s : State), s.busy = false → s.lc = .absent →
    (clk = dat ∨ ¬ PinValid s.cfg.val clk ∨ ¬ PinValid s.cfg.val dat) →
    ∃ t, exec (.construct clk dat) s = .next t ∧ t.status = .configurationError ∧ t.tr = s.tr ∧
      t.asked = s.asked ∧ t.block = s.block ∧ t.level = s.level) ∧
  (∀ s : State, s.busy = false → s.lc = .constructed → s.cfgErr = true →
    ∃ t, exec .initialise s = .next t ∧ t.status = .configurationError ∧ t.tr = s.tr ∧
      t.asked = s.asked ∧ t.block = s.block ∧ t.level = s.level)

/-! ### INITIALIZE -/

/-- The sequencer's INITIALIZE (40_lifecycle.md R112) does exactly what the big-step pseudocode of R111 does, to the
whole state, in every state, whatever the platform answers and the environment does. -/
def Obligations.InitialiseRefinesBigStep : Prop :=
  ∀ s : State, s.busy = false → exec .initialise s = .next (bigInitialise s)

/-- INITIALIZE in the wrong lifecycle state, and with CFGERR = 1: the lifecycle check comes first; only STATUS changes
(60_exceptions.md R175, R176). -/
def Obligations.InitialiseChecksInOrder : Prop :=
  ∀ s : State, s.busy = false → (s.lc ≠ .constructed ∨ s.cfgErr = true) →
    exec .initialise s = .next { s with
      busy := false, seq := Seq.idle, pending := none
      status := if s.lc ≠ .constructed then .preconditionViolation else .configurationError }

/-- A successful INITIALIZE (40_lifecycle.md R111, R114): the eight events in order, the masks, both flags, READY, both
pins outputs at the idle level; every field of the state that is not named keeps its value. `v1` and `v2` are the
control words as they were when read. The fields answers, asked, env and ticks are the model's own: log entries 3, 4
and 18. -/
def Obligations.InitialiseSuccess : Prop :=
  ∀ s : State, s.Inv → s.busy = false → s.lc = .constructed → s.cfgErr = false → s.nextAnswer = .ok →
    s.openReq.2.nextAnswer = .ok →
    ∃ t v1 v2, exec .initialise s = .next t ∧
      t = { s with
        lc := .ready, busy := false, seq := Seq.idle, sessionValid := true, mapped := true, status := .ok
        clkMask := maskOf s.clk, datMask := maskOf s.dat, hold := v2, pending := none
        block := t.block, level := t.level
        tr := s.tr ++ [.openEv .ok, .mapEv s.cfg.val.basePhys s.cfg.val.blockLen .ok,
          .rd32 (fseloff s.cfg.val s.clk) v1, .wr32 (fseloff s.cfg.val s.clk) (fselnew s.cfg.val v1 s.clk),
          .rd32 (fseloff s.cfg.val s.dat) v2, .wr32 (fseloff s.cfg.val s.dat) (fselnew s.cfg.val v2 s.dat),
          .wr32 (clroff s.cfg.val s.clk) (maskOf s.clk), .wr32 (clroff s.cfg.val s.dat) (maskOf s.dat)]
        answers := s.answers.tail.tail, asked := s.asked + 2, env := s.env.drop 8, ticks := s.ticks + 8 } ∧
      t.lineLevel t.clk = some false ∧ t.lineLevel t.dat = some false

/-- When the environment is quiet during a successful INITIALIZE, it changes only the two pins' function-select
fields and latches: every other bit of every control word, every byte of the block outside the two control words and
every other latch is as before (40_lifecycle.md R113, 95_test_vectors.md S8; 70_reset_and_hazards.md R211 says why the
environment must be quiet). -/
def Obligations.InitialisePreservesOtherPins : Prop :=
  ∀ s : State, s.Inv → s.busy = false → s.lc = .constructed → s.cfgErr = false → s.nextAnswer = .ok →
    s.openReq.2.nextAnswer = .ok → s.Quiet 8 →
    ∃ t, exec .initialise s = .next t ∧
      (∀ j b, j < s.cfg.val.nf → b < 32 →
        (t.fsel j).getLsbD b =
          if (j = fselw s.cfg.val s.clk ∧ fselsh s.cfg.val s.clk ≤ b ∧ b < fselsh s.cfg.val s.clk + 3) then
            s.cfg.val.fselOutput.getLsbD (b - fselsh s.cfg.val s.clk)
          else if (j = fselw s.cfg.val s.dat ∧ fselsh s.cfg.val s.dat ≤ b ∧ b < fselsh s.cfg.val s.dat + 3) then
            s.cfg.val.fselOutput.getLsbD (b - fselsh s.cfg.val s.dat)
          else (s.fsel j).getLsbD b) ∧
      (∀ a, (a < fseloff s.cfg.val s.clk ∨ fseloff s.cfg.val s.clk + 4 ≤ a) →
        (a < fseloff s.cfg.val s.dat ∨ fseloff s.cfg.val s.dat + 4 ≤ a) → readByte t.block a = readByte s.block a) ∧
      (∀ p, p ≠ s.clk → p ≠ s.dat → t.levelOf p = s.levelOf p)

/-- The two failures of the mapping (60_exceptions.md R172): OPEN fails; or OPEN succeeds, MAP fails and the session is
closed whatever CLOSE answers. STATUS is MappingFailure, nothing is held, no register of the block is accessed, and
every engine register keeps its value. The fields answers, asked, env and ticks are the model's own: log entries 3, 4
and 18. -/
def Obligations.InitialiseMappingFailure : Prop :=
  (∀ s : State, s.Inv → s.busy = false → s.lc = .constructed → s.cfgErr = false → s.nextAnswer = .fail →
    exec .initialise s = .next { s with
      status := .mappingFailure, block := s.envTick.block, level := s.envTick.level
      tr := s.tr ++ [.openEv .fail]
      answers := s.answers.tail, asked := s.asked + 1, env := s.env.tail, ticks := s.ticks + 1 } ∧
    s.sessionValid = false ∧ s.mapped = false) ∧
  (∀ s : State, s.Inv → s.busy = false → s.lc = .constructed → s.cfgErr = false → s.nextAnswer = .ok →
    s.openReq.2.nextAnswer = .fail →
    ∃ t ans, exec .initialise s = .next t ∧
      t = { s with
        status := .mappingFailure, block := t.block, level := t.level
        tr := s.tr ++ [.openEv .ok, .mapEv s.cfg.val.basePhys s.cfg.val.blockLen .fail, .closeEv ans]
        answers := s.answers.tail.tail.tail, asked := s.asked + 3, env := s.env.drop 3, ticks := s.ticks + 3 } ∧
      (s.Quiet 3 → t.block = s.block ∧ t.level = s.level) ∧ t.sessionValid = false ∧ t.mapped = false)

/-- After an INITIALIZE that failed at MAP, another INITIALIZE for which the platform answers ok succeeds
(40_lifecycle.md R115). The script of answers is the model's: log entry 3. -/
def Obligations.FailedInitialiseCanBeRetried : Prop :=
  ∀ (s : State) (ans : Answer) (more : List Answer), s.Inv → s.busy = false → s.lc = .constructed →
    s.cfgErr = false → s.answers = .ok :: .fail :: ans :: .ok :: .ok :: more →
    ∃ t u, exec .initialise s = .next t ∧ t.status = .mappingFailure ∧ t.lc = .constructed ∧
      exec .initialise t = .next u ∧ u.status = .ok ∧ u.lc = .ready

/-- Between the write that makes a pin an output and the write that clears its latch, the line shows the old latch
(70_reset_and_hazards.md R215, 40_lifecycle.md R114). -/
def Obligations.NewOutputShowsTheOldLatch : Prop :=
  ∀ s : State, s.Inv → s.busy = true →
    (s.seq.phase = .iClkWr → (microStep s).lineLevel s.clk = some (s.levelOf s.clk)) ∧
    (s.seq.phase = .iDatWr → (microStep s).lineLevel s.dat = some (s.levelOf s.dat))

/-- The write of a control word puts back the bits that were read, whatever the environment did since the read
(20_memory.md R56, R64; 70_reset_and_hazards.md R211). -/
def Obligations.ControlWriteLosesConcurrentChange : Prop :=
  ∀ s : State, MemoryWf s.block → s.seq.phase = .iClkWr → PinValid s.cfg.val s.clkPin →
    (microStep s).fsel (fselw s.cfg.val s.clk) = fselnew s.cfg.val s.hold s.clk

/-! ### TEARDOWN -/

/-- The sequencer's TEARDOWN (40_lifecycle.md R117) does exactly what the big-step pseudocode of R116 does, to the
whole state, in every state, whatever the platform answers. -/
def Obligations.TeardownRefinesBigStep : Prop :=
  ∀ s : State, s.busy = false → exec .teardown s = .next (bigTeardown s)

/-- TEARDOWN from READY: UNMAP, then CLOSE, answers ignored, both flags cleared, TORN_DOWN, OK; the owned pins keep
their mode and level, and nothing of the block changes unless the environment changes it (40_lifecycle.md R116,
60_exceptions.md R180). The fields answers, asked, env and ticks are the model's own: log entries 3, 4 and 18; that the
pins stay this engine's own until the command ends: log entry 5. -/
def Obligations.TeardownReleasesWhatIsHeld : Prop :=
  ∀ s : State, s.Inv → s.busy = false → s.lc = .ready →
    ∃ t, exec .teardown s = .next t ∧
      t = { s with
        lc := .tornDown, sessionValid := false, mapped := false, status := .ok
        block := t.block, level := t.level
        tr := s.tr ++ [.unmapEv s.nextAnswer, .closeEv s.unmapReq.2.nextAnswer]
        answers := s.answers.tail.tail, asked := s.asked + 2, env := s.env.drop 2, ticks := s.ticks + 2 } ∧
      t.lineLevel s.clk = some false ∧ t.lineLevel s.dat = some false ∧
      (s.Quiet 2 → t.block = s.block ∧ t.level = s.level)

/-- TEARDOWN with nothing held: OK, no event, no request, no access; the lifetime ends unless there was no instance
(40_lifecycle.md R116). -/
def Obligations.TeardownWithNothingHeld : Prop :=
  ∀ s : State, s.Inv → s.busy = false → s.lc ≠ .ready →
    exec .teardown s = .next { s with
      lc := if s.lc = .absent then .absent else .tornDown, status := .ok }

/-- A second TEARDOWN changes nothing at all (40_lifecycle.md R116; 95_test_vectors.md S7). -/
def Obligations.SecondTeardownIsNoOp : Prop :=
  ∀ s t : State, s.busy = false → exec .teardown s = .next t → exec .teardown t = .next t

/-- After TEARDOWN every successful OPEN has been closed and every successful MAP unmapped, over the whole life of the
instance (40_lifecycle.md R118). -/
def Obligations.TeardownLeavesNothingHeld : Prop :=
  ∀ s t : State, s.Inv → s.busy = false → exec .teardown s = .next t →
    t.tr.countP Event.isOpenOk = t.tr.countP Event.isClose ∧
    t.tr.countP Event.isMapOk = t.tr.countP Event.isUnmap ∧
    t.sessionValid = false ∧ t.mapped = false

/-- INITIALIZE followed at once by TEARDOWN, for every platform and every valid distinct pin pair: one OPEN, one CLOSE,
one MAP, one UNMAP (95_test_vectors.md S1; 40_lifecycle.md R118). -/
def Obligations.InitialiseThenTeardownBalances : Prop :=
  ∀ (c : Platform) (clk dat : Int) (a b : Answer) (more : List Answer),
    PinValid c.val clk → PinValid c.val dat → clk ≠ dat →
    ∃ t u v, exec (.construct clk dat) { State.powerOn c with answers := .ok :: .ok :: a :: b :: more } = .next t ∧
      exec .initialise t = .next u ∧ u.status = .ok ∧ exec .teardown u = .next v ∧ v.status = .ok ∧
      v.tr.countP Event.isOpenOk = 1 ∧ v.tr.countP Event.isClose = 1 ∧
      v.tr.countP Event.isMapOk = 1 ∧ v.tr.countP Event.isUnmap = 1

/-! ### SEND -/

/-- The sequencer's SEND (41_send.md R146) does exactly what the big-step pseudocode of R140 and R141 does, to the whole
state, in every state and for every buffer. -/
def Obligations.SendRefinesBigStep : Prop :=
  ∀ (bytes : List Byte) (s : State), s.busy = false → exec (.send bytes) s = .next (bigSend bytes s)

/-- A SEND accepted in READY (41_send.md R140, R141, R144): the events of every bit in order, then the idle restore;
no engine register but BUF, SEQ, BUSY and STATUS is written; the masks are read, not recomputed (R154); every field of
the state that is not named keeps its value. The fields env and ticks are the model's own: log entries 4 and 18. -/
def Obligations.SendResult : Prop :=
  ∀ (bytes : List Byte) (s : State), s.busy = false → s.lc = .ready →
    ∃ t, exec (.send bytes) s = .next t ∧
      t = { s with
        busy := false, seq := Seq.idle, pending := none, status := .ok, buf := bytes
        block := t.block, level := t.level
        tr := s.tr ++ sendTrace s bytes
        env := s.env.drop (sendTrace s bytes).length, ticks := s.ticks + (sendTrace s bytes).length }

/-- What a SEND leaves on the wire, whatever the environment does: both pins outputs, both lines low (41_send.md
R144, R145); when the environment is quiet, nothing of the block and no other latch changes. That no agent touches an
owned pin is 20_memory.md R68, coded by log entry 5; a line's level is an option: log entry 15. -/
def Obligations.SendLeavesLinesIdle : Prop :=
  ∀ (bytes : List Byte) (s : State), s.Inv → s.busy = false → s.lc = .ready →
    ∃ t, exec (.send bytes) s = .next t ∧ t.lineLevel t.clk = some false ∧ t.lineLevel t.dat = some false ∧
      (s.Quiet (sendTrace s bytes).length → t.block = s.block ∧
        ∀ p, p ≠ s.clk → p ≠ s.dat → t.levelOf p = s.levelOf p)

/-- A SEND outside READY is PreconditionViolation with no micro-operation; only STATUS changes (41_send.md R140, R153;
60_exceptions.md R173). -/
def Obligations.SendOutsideReady : Prop :=
  ∀ (bytes : List Byte) (s : State), s.busy = false → s.lc ≠ .ready →
    exec (.send bytes) s = .next { s with
      busy := false, seq := Seq.idle, pending := none, status := .preconditionViolation }

/-- An empty SEND in READY performs no micro-operation and leaves the lines at the idle level, with status OK; outside
READY it is PreconditionViolation like any SEND (41_send.md R145). -/
def Obligations.EmptySendDoesNothing : Prop :=
  (∀ s : State, s.Inv → s.busy = false → s.lc = .ready →
    exec (.send []) s = .next { s with buf := [], status := .ok } ∧
      s.lineLevel s.clk = some false ∧ s.lineLevel s.dat = some false) ∧
  (∀ s : State, s.Inv → s.busy = false → s.lc ≠ .ready →
    exec (.send []) s = .next { s with status := .preconditionViolation })

/-- The counts of a SEND of N bytes in READY (41_send.md R148): 8N data writes of step a and the one restore, 8N clock
set writes, 8N clock clear writes, 8N delays of each kind, no other access and no request, `48N + 1` events in all
(none for N = 0). -/
def Obligations.SendCounts : Prop :=
  ∀ (bytes : List Byte) (s : State), s.Inv → s.busy = false → s.lc = .ready →
    ∃ t events, exec (.send bytes) s = .next t ∧ t.tr = s.tr ++ events ∧
      events.length = 48 * bytes.length + (if bytes.length > 0 then 1 else 0) ∧
      events.count (.wr32 (setoff s.cfg.val s.dat) s.datMask) + events.count (.wr32 (clroff s.cfg.val s.dat) s.datMask) =
        8 * bytes.length + (if bytes.length > 0 then 1 else 0) ∧
      events.count (.wr32 (setoff s.cfg.val s.clk) s.clkMask) = 8 * bytes.length ∧
      events.count (.wr32 (clroff s.cfg.val s.clk) s.clkMask) = 8 * bytes.length ∧
      events.count (.delay .settle) = 8 * bytes.length ∧
      events.count (.delay .high) = 8 * bytes.length ∧
      events.count (.delay .low) = 8 * bytes.length

/-- Data before clock (41_send.md R149): in the events of a SEND every clock set write comes directly after a data
write and the settling delay, and is followed by the high hold and the clock clear write. -/
def Obligations.DataSettledBeforeEveryRisingEdge : Prop :=
  ∀ (bytes : List Byte) (s : State), s.Inv → s.busy = false → s.lc = .ready →
    ∃ t events, exec (.send bytes) s = .next t ∧ t.tr = s.tr ++ events ∧
      ∀ k, events[k]? = some (.wr32 (setoff s.cfg.val s.clk) s.clkMask) →
        2 ≤ k ∧ events[k - 1]? = some (.delay .settle) ∧
        (events[k - 2]? = some (.wr32 (setoff s.cfg.val s.dat) s.datMask) ∨
         events[k - 2]? = some (.wr32 (clroff s.cfg.val s.dat) s.datMask)) ∧
        events[k + 1]? = some (.delay .high) ∧
        events[k + 2]? = some (.wr32 (clroff s.cfg.val s.clk) s.clkMask)

/-- A receiver that samples the data line at every rising edge of the clock reads exactly the bytes, bit by bit in the
configured order (41_send.md R150, R142). -/
def Obligations.ReceiverReadsTheBytes : Prop :=
  ∀ (bytes : List Byte) (s : State), s.Inv → s.busy = false → s.lc = .ready →
    ∃ t events, exec (.send bytes) s = .next t ∧ t.tr = s.tr ++ events ∧
      samples s.cfg.val s.clk s.dat s.level events =
        bytes.flatMap fun x => (List.range 8).map fun n =>
          match s.cfg.val.bitOrder with
          | .msbFirst => x.getLsbD (7 - n)
          | .lsbFirst => x.getLsbD n

/-- At a rising edge the clock's own latch goes from low to high and the data latch already holds, and keeps, the bit at
the sequencer's position, whatever the environment does (41_send.md R149, R150). It rests on log entries 5 and 15. -/
def Obligations.RisingEdgeShowsTheBit : Prop :=
  ∀ s : State, s.Inv → s.busy = true → s.seq.phase = .sClkHi →
    s.levelOf s.clk = false ∧ s.levelOf s.dat = s.currentBit ∧
    (microStep s).levelOf s.clk = true ∧ (microStep s).levelOf s.dat = s.currentBit ∧
    (microStep s).lineLevel s.clk = some true ∧ (microStep s).lineLevel s.dat = some s.currentBit

/-- The least time a SEND of N bytes takes is 8N times the three delays (70_reset_and_hazards.md R220, 00_scope.md
R10). -/
def Obligations.SendTakesAtLeast : Prop :=
  ∀ (bytes : List Byte) (s : State), s.busy = false → s.lc = .ready →
    ∃ t events, exec (.send bytes) s = .next t ∧ t.tr = s.tr ++ events ∧
      traceTime s.cfg.val events =
        8 * bytes.length * (s.cfg.val.tSettle + s.cfg.val.tHigh + s.cfg.val.tLow)

/-- Bit selection (41_send.md R142), with the example of R142; the order of R143, which the spec marks as its own
decision D2, defined by mirror and with no source example. -/
def Obligations.BitSelection : Prop :=
  (∀ (x : Byte) (n : Nat), n < 8 → bitsel .msbFirst x n = x.getLsbD (7 - n) ∧ bitsel .lsbFirst x n = x.getLsbD n) ∧
  byteBits .msbFirst 0xA5#8 = [true, false, true, false, false, true, false, true]

/-! ### The register block -/

/-- A read of a control word returns the word the block holds at that moment, after the environment's slot, and has no
other effect than its event (20_memory.md R55). -/
def Obligations.ReadReturnsTheControlWord : Prop :=
  ∀ (s : State) (j : Nat), j < s.cfg.val.nf →
    (s.rd32 (ctrlWordOff s.cfg.val j)).1 = s.envTick.fsel j ∧
    (s.rd32 (ctrlWordOff s.cfg.val j)).2 =
      { s.envTick with tr := s.tr ++ [.rd32 (ctrlWordOff s.cfg.val j) (s.envTick.fsel j)] }

/-- A write of a control word replaces the whole word and nothing else (20_memory.md R56). -/
def Obligations.WriteReplacesTheControlWord : Prop :=
  ∀ (s : State) (j : Nat) (v : Word), MemoryWf s.block → j < s.cfg.val.nf →
    (s.wr32 (ctrlWordOff s.cfg.val j) v).fsel j = v ∧
    (∀ a, (a < ctrlWordOff s.cfg.val j ∨ ctrlWordOff s.cfg.val j + 4 ≤ a) →
      readByte (s.wr32 (ctrlWordOff s.cfg.val j) v).block a = readByte s.envTick.block a) ∧
    (s.wr32 (ctrlWordOff s.cfg.val j) v).level = s.envTick.level

/-- A write of a set word drives high exactly the lines whose bit is 1; no control word changes (20_memory.md R57). -/
def Obligations.SetWriteDrivesLinesHigh : Prop :=
  ∀ (s : State) (w : Nat) (v : Word), s.level.length = s.cfg.val.pinCount → w < s.cfg.val.nw →
    (∀ p, p < s.cfg.val.pinCount → (s.wr32 (s.cfg.val.setOff + 4 * w) v).levelOf p =
      if p / 32 = w ∧ v.getLsbD (p % 32) = true then true else s.envTick.levelOf p) ∧
    (s.wr32 (s.cfg.val.setOff + 4 * w) v).block = s.envTick.block

/-- A write of a clear word drives low exactly the lines whose bit is 1; no control word changes (20_memory.md R58). -/
def Obligations.ClearWriteDrivesLinesLow : Prop :=
  ∀ (s : State) (w : Nat) (v : Word), s.level.length = s.cfg.val.pinCount → w < s.cfg.val.nw →
    (∀ p, p < s.cfg.val.pinCount → (s.wr32 (s.cfg.val.clrOff + 4 * w) v).levelOf p =
      if p / 32 = w ∧ v.getLsbD (p % 32) = true then false else s.envTick.levelOf p) ∧
    (s.wr32 (s.cfg.val.clrOff + 4 * w) v).block = s.envTick.block

/-- The new control word: the output code in the pin's field, every other bit as read (30_encoding.md R87), with the
two examples of R87. -/
def Obligations.OutputWordKeepsOtherBits : Prop :=
  (∀ (c : Cfg) (v : Word) (p b : Nat), c.WellFormed → p < c.pinCount → b < 32 →
    (fselnew c v p).getLsbD b =
      if fselsh c p ≤ b ∧ b ≤ fselsh c p + 2 then c.fselOutput.getLsbD (b - fselsh c p) else v.getLsbD b) ∧
  fselnew ex1 0xFFFFFFFF#32 11 = 0xFFFFFFCF#32 ∧ fselnew ex1 0x00000000#32 11 = 0x00000008#32

/-- The environment's slot (20_memory.md R68): it never changes the field or the latch of an owned line, nor any engine
register; and it may set the field and the latch of any other existing line to anything. Which lines are owned, and the
form of the slot, are the model's: log entries 4 and 5. -/
def Obligations.EnvironmentReachesForeignLinesOnly : Prop :=
  (∀ (s : State) (p : Nat), MemoryWf s.block → s.owns p = true →
    s.envTick.fieldOf p = s.fieldOf p ∧ s.envTick.levelOf p = s.levelOf p) ∧
  (∀ s : State, s.envTick = { s with block := s.envTick.block, level := s.envTick.level, env := s.env.tail,
                                     ticks := s.ticks + 1 }) ∧
  (∀ (s : State) (p : Nat) (code : BitVec 3) (high : Bool), MemoryWf s.block →
    s.level.length = s.cfg.val.pinCount → p < s.cfg.val.pinCount → s.owns p = false →
    s.env.head? = some [.field p code, .latch p high] →
    s.envTick.fieldOf p = code ∧ s.envTick.levelOf p = high)

/-- The status codes (30_encoding.md R90; 60_exceptions.md R170). -/
def Obligations.StatusCodes : Prop :=
  Status.code .ok = 0b00#2 ∧ Status.code .configurationError = 0b01#2 ∧ Status.code .mappingFailure = 0b10#2 ∧
  Status.code .preconditionViolation = 0b11#2

/-- What the engine derives from a pin (30_encoding.md R86): the mask has exactly the bit `p mod 32`; the other six are
as the table of R86 writes them. -/
def Obligations.OperandAssembly : Prop :=
  ∀ (c : Cfg) (p : Nat), c.WellFormed → p < c.pinCount →
    (∀ b, (maskOf p).getLsbD b = decide (b = p % 32)) ∧ lvlw p = p / 32 ∧
    setoff c p = c.setOff + 4 * (p / 32) ∧ clroff c p = c.clrOff + 4 * (p / 32) ∧
    fselw c p = p / c.pinsPerWord ∧ fseloff c p = c.ctrlOff + 4 * (p / c.pinsPerWord) ∧
    fselsh c p = 3 * (p % c.pinsPerWord) ∧ fselsh c p + 2 ≤ 31

/-! ### The whole machine -/

/-- Every step keeps the invariant, whatever the platform answers and the environment does: the canonical form of the
block, the lifecycle and its resources (10_state.md R26), the masks (R22), the pin modes and the idle levels
(41_send.md R144), the balance of acquisitions and releases (40_lifecycle.md R118), the accesses made (20_memory.md
R60). -/
def Obligations.StepKeepsTheInvariant : Prop :=
  ∀ s t : State, s.Inv → step s = .next t → t.Inv

/-- Accepting a command keeps the invariant, so every state inside a command has it (10_state.md R31, R32). -/
def Obligations.AcceptingKeepsTheInvariant : Prop :=
  ∀ s : State, s.Inv → s.busy = false →
    (∀ clk dat, (construct clk dat s).Inv) ∧ (acceptInitialise s).Inv ∧ (∀ bytes, (acceptSend bytes s).Inv) ∧
    (acceptTeardown s).Inv

/-- The lifecycle table of 10_state.md R29: the lifecycle state and the status every command ends with. -/
def Obligations.LifecycleTableHolds : Prop :=
  ∀ (i : Instr) (s : State), s.busy = false →
    ∃ t, exec i s = .next t ∧ (t.lc, t.status) ∈ lifecycleTable i s.lc s.cfgErr

/-- The pins are immutable after construction, and so are the latched check and the configuration (10_state.md R21,
R27, R39). -/
def Obligations.PinsImmutableAfterConstruction : Prop :=
  ∀ s t : State, step s = .next t →
    t.cfg = s.cfg ∧
    (s.lc ≠ .absent → t.clkPin = s.clkPin ∧ t.datPin = s.datPin ∧ t.cfgErr = s.cfgErr ∧ t.lc ≠ .absent)

/-- The masks change only when an INITIALIZE passes its mask step (10_state.md R22; 41_send.md R154): a command other
than INITIALIZE, and an INITIALIZE that does not reach READY, leaves them. -/
def Obligations.MasksWrittenByInitialiseOnly : Prop :=
  ∀ (i : Instr) (s t : State), s.busy = false → exec i s = .next t →
    (i ≠ .initialise ∨ t.status ≠ .ok) → t.clkMask = s.clkMask ∧ t.datMask = s.datMask

/-- The trace only grows: no step rewrites what was recorded (10_state.md R38; 20_memory.md R65). -/
def Obligations.TraceOnlyGrows : Prop :=
  ∀ s t : State, step s = .next t → ∃ events, t.tr = s.tr ++ events

/-- A micro-step performs at most one micro-operation, and only with what it needs held: the block is read, written
and unmapped only while it is mapped, mapped and closed only with a valid session (10_state.md R25, R31; 20_memory.md
R62). -/
def Obligations.MicroStepDoesAtMostOneThing : Prop :=
  ∀ s : State, s.Inv → s.busy = true →
    ∃ events, (microStep s).tr = s.tr ++ events ∧ events.length ≤ 1 ∧
      ∀ e ∈ events, e.Allowed s.sessionValid s.mapped

/-- Every access of a step is an aligned word inside the block that holds an owned pin: reads of control words, writes
of control, set and clear words, and nothing else (20_memory.md R60, R63). -/
def Obligations.EngineAccessesOwnWordsOnly : Prop :=
  ∀ s t : State, s.Inv → step s = .next t →
    ∃ events, t.tr = s.tr ++ events ∧ ∀ e ∈ events, OwnAccess t e ∧ AccessOk t.cfg.val e

/-- Only a SEND accepted in READY writes the set region: no other command raises a line (41_send.md R153,
40_lifecycle.md R114, R116). -/
def Obligations.OnlySendDrivesALineHigh : Prop :=
  ∀ (i : Instr) (s t : State), s.Inv → s.busy = false → exec i s = .next t →
    (s.lc ≠ .ready ∨ ∀ bytes, i ≠ .send bytes) →
    ∃ events, t.tr = s.tr ++ events ∧
      ∀ e ∈ events, ∀ w v, w < s.cfg.val.nw → e ≠ .wr32 (s.cfg.val.setOff + 4 * w) v

/-- TORN_DOWN is final: no command leaves it, asks the platform or makes a micro-operation (10_state.md R28, R29). -/
def Obligations.TornDownIsFinal : Prop :=
  ∀ (i : Instr) (s : State), s.Inv → s.busy = false → s.lc = .tornDown →
    exec i s = .next { s with status := if i = .teardown then .ok else .preconditionViolation }

/-- What the register block holds and what the environment does never decide which micro-operations a command issues,
nor what becomes of the engine: two states that differ in nothing else end in the same lifecycle state, status, flags
and masks, with the same events but for the values read from and written back to control words
(93_implementation_defined.md U1; 20_memory.md R68). -/
def Obligations.EnvironmentNeverDecidesTheCommand : Prop :=
  ∀ (i : Instr) (s t : State) (block : List Host.Cell) (level : List Bool) (env : List (List EnvMove)) (ticks : Nat),
    s.Inv → s.busy = false → exec i s = .next t →
    ∃ u, exec i { s with block := block, level := level, env := env, ticks := ticks } = .next u ∧
      u.lc = t.lc ∧ u.status = t.status ∧ u.sessionValid = t.sessionValid ∧ u.mapped = t.mapped ∧
      u.clkMask = t.clkMask ∧ u.datMask = t.datMask ∧ u.clkPin = t.clkPin ∧ u.datPin = t.datPin ∧ u.buf = t.buf ∧
      u.tr.map (eventShape s.cfg.val) = t.tr.map (eventShape s.cfg.val)

/-- A machine is built on a well-formed configuration and on no other: an ill-formed one is refused by name, and the
state after reset is built on a well-formed one (00_scope.md R12). That building is an operation of its own, and that
the reset platform is a free constant, are the model's: log entry 1. -/
def Obligations.OnlyWellFormedConfigurationsMakeAMachine : Prop :=
  (∀ (c : Cfg) (h : c.WellFormed), State.configure c = .next (State.powerOn ⟨c, h⟩)) ∧
  (∀ c : Cfg, ¬ c.WellFormed → State.configure c = .refused .illFormedConfiguration) ∧
  (∀ (c : Cfg) (s : State), State.configure c = .next s → s.cfg.val = c ∧ c.WellFormed) ∧
  State.configure State.reset.cfg.val = .next State.reset
end

