-- ==== Sys2Proof/Laws/Memory.lean ====
section
/-!
SUPPORT. The laws of the register block's bytes: a read after a write, and the canonical form. Each operation is
unfolded here once; other files cite these lemmas.
-/

namespace Sys2Proof.Machine

@[simp] theorem readByte_nil (a : Nat) : readByte [] a = unlisted := rfl

theorem readByte_consCell_same (a : Nat) (b : Byte) (m : List Host.Cell) (h : readByte m a = unlisted) :
    readByte (consCell a b m) a = b := by
  unfold consCell
  split
  · simp_all
  · simp [readByte]

theorem readByte_consCell_other (a x : Nat) (b : Byte) (m : List Host.Cell) (h : x ≠ a) :
    readByte (consCell a b m) x = readByte m x := by
  unfold consCell
  split
  · rfl
  · simp [readByte, h]

/-- An offset below every listed one reads as unlisted. -/
theorem readByte_below (m : List Host.Cell) (a : Nat) (h : ∀ c ∈ m, a < c.1) : readByte m a = unlisted := by
  induction m with
  | nil => rfl
  | cons c rest ih =>
    obtain ⟨k, v⟩ := c
    have hk : a < k := h (k, v) (by simp)
    simp only [readByte]
    rw [if_neg (by omega)]
    exact ih fun c hc => h c (by simp [hc])

theorem readByte_writeByte_other (m : List Host.Cell) (a x : Nat) (b : Byte) (h : x ≠ a) :
    readByte (writeByte m a b) x = readByte m x := by
  induction m with
  | nil => simp [writeByte, readByte_consCell_other _ _ _ _ h]
  | cons c rest ih =>
    obtain ⟨k, v⟩ := c
    simp only [writeByte]
    split
    · rw [readByte_consCell_other _ _ _ _ h]
    · split
      · rename_i h1 h2
        subst h2
        rw [readByte_consCell_other _ _ _ _ h]
        simp [readByte, h]
      · simp [readByte, ih]

theorem MemoryWf.tail {c : Host.Cell} {m : List Host.Cell} (h : MemoryWf (c :: m)) : MemoryWf m :=
  ⟨(List.pairwise_cons.mp h.1).2, fun x hx => h.2 x (by simp [hx])⟩

theorem readByte_writeByte_same (m : List Host.Cell) (a : Nat) (b : Byte) (h : MemoryWf m) :
    readByte (writeByte m a b) a = b := by
  induction m with
  | nil => exact readByte_consCell_same a b [] rfl
  | cons c rest ih =>
    obtain ⟨k, v⟩ := c
    have hp := (List.pairwise_cons.mp h.1).1
    simp only [writeByte]
    split
    · refine readByte_consCell_same _ _ _ (readByte_below _ _ ?_)
      intro c hc
      rcases List.mem_cons.mp hc with rfl | hc
      · assumption
      · exact lt_trans ‹a < k› (hp c hc)
    · split
      · rename_i h1 h2
        subst h2
        exact readByte_consCell_same _ _ _ (readByte_below _ _ hp)
      · simp [readByte, ‹¬ a = k›, ih h.tail]

/-- A write lists no offset that was not listed, but its own. -/
theorem mem_writeByte (m : List Host.Cell) (a : Nat) (b : Byte) (c : Host.Cell) (h : c ∈ writeByte m a b) :
    (c.1 = a ∧ c.2 ≠ unlisted) ∨ c ∈ m := by
  have hcons : ∀ m', c ∈ consCell a b m' → (c.1 = a ∧ c.2 ≠ unlisted) ∨ c ∈ m' := by
    intro m' hc
    unfold consCell at hc
    split at hc
    · exact .inr hc
    · rcases List.mem_cons.mp hc with rfl | hc
      · exact .inl ⟨rfl, ‹_›⟩
      · exact .inr hc
  induction m with
  | nil => simpa [writeByte] using hcons [] h
  | cons d rest ih =>
    obtain ⟨k, v⟩ := d
    simp only [writeByte] at h
    split at h
    · exact hcons _ h
    · split at h
      · rcases hcons _ h with h | h
        · exact .inl h
        · exact .inr (by simp [h])
      · rcases List.mem_cons.mp h with rfl | h
        · exact .inr (by simp)
        · rcases ih h with h | h
          · exact .inl h
          · exact .inr (by simp [h])

theorem consCell_wf (a : Nat) (b : Byte) (m : List Host.Cell) (h : MemoryWf m) (ha : ∀ c ∈ m, a < c.1) :
    MemoryWf (consCell a b m) := by
  unfold consCell
  split
  · exact h
  · refine ⟨List.pairwise_cons.mpr ⟨ha, h.1⟩, ?_⟩
    intro c hc
    rcases List.mem_cons.mp hc with rfl | hc
    · assumption
    · exact h.2 c hc

/-- Writing a byte keeps the canonical form. -/
theorem writeByte_wf (m : List Host.Cell) (a : Nat) (b : Byte) (h : MemoryWf m) : MemoryWf (writeByte m a b) := by
  induction m with
  | nil => exact consCell_wf a b [] h (by simp)
  | cons c rest ih =>
    obtain ⟨k, v⟩ := c
    have hp := (List.pairwise_cons.mp h.1).1
    simp only [writeByte]
    split
    · refine consCell_wf _ _ _ h ?_
      intro c hc
      rcases List.mem_cons.mp hc with rfl | hc
      · assumption
      · exact lt_trans ‹a < k› (hp c hc)
    · split
      · rename_i h1 h2
        subst h2
        exact consCell_wf _ _ _ h.tail hp
      · have hr := ih h.tail
        refine ⟨List.pairwise_cons.mpr ⟨?_, hr.1⟩, ?_⟩
        · intro c hc
          rcases mem_writeByte _ _ _ _ hc with ⟨h1, -⟩ | h1
          · change k < c.1
            omega
          · exact hp c h1
        · intro c hc
          rcases List.mem_cons.mp hc with rfl | hc
          · exact h.2 _ (by simp)
          · exact hr.2 c hc

/-- Writing a word keeps the canonical form. -/
theorem writeWord_wf (m : List Host.Cell) (off : Nat) (v : Word) (h : MemoryWf m) : MemoryWf (writeWord m off v) :=
  writeByte_wf _ _ _ (writeByte_wf _ _ _ (writeByte_wf _ _ _ (writeByte_wf _ _ _ h)))

/-- A word is put together from its own four bytes. -/
theorem wordOfBytes_wordByte (v : Word) : wordOfBytes (wordByte v 0) (wordByte v 1) (wordByte v 2) (wordByte v 3) = v := by
  apply BitVec.eq_of_getLsbD_eq
  intro i hi
  simp only [wordOfBytes, wordByte, BitVec.getLsbD_append, BitVec.getLsbD_extractLsb']
  repeat' split
  all_goals first
    | (have : i < 8 := by omega
       simp [this])
    | (simp only [show i - 8 < 8 by omega, decide_true, Bool.true_and]; congr 1; omega)
    | (simp only [show i - 8 - 8 < 8 by omega, decide_true, Bool.true_and]; congr 1; omega)
    | (simp only [show i - 8 - 8 - 8 < 8 by omega, decide_true, Bool.true_and]; congr 1; omega)

/-- A byte outside the four that are written stays. -/
theorem readByte_writeWord_other (m : List Host.Cell) (off x : Nat) (v : Word) (h : x < off ∨ off + 4 ≤ x) :
    readByte (writeWord m off v) x = readByte m x := by
  unfold writeWord
  rw [readByte_writeByte_other _ _ _ _ (by omega), readByte_writeByte_other _ _ _ _ (by omega),
    readByte_writeByte_other _ _ _ _ (by omega), readByte_writeByte_other _ _ _ _ (by omega)]

/-- The word written is the word read. -/
theorem readWord_writeWord_same (m : List Host.Cell) (off : Nat) (v : Word) (h : MemoryWf m) :
    readWord (writeWord m off v) off = v := by
  have h0 := writeByte_wf m off (wordByte v 0) h
  have h1 := writeByte_wf _ (off + 1) (wordByte v 1) h0
  have h2 := writeByte_wf _ (off + 2) (wordByte v 2) h1
  conv_rhs => rw [← wordOfBytes_wordByte v]
  unfold readWord writeWord
  congr 1
  · rw [readByte_writeByte_other _ _ _ _ (by omega), readByte_writeByte_other _ _ _ _ (by omega),
      readByte_writeByte_other _ _ _ _ (by omega), readByte_writeByte_same _ _ _ h]
  · rw [readByte_writeByte_other _ _ _ _ (by omega), readByte_writeByte_other _ _ _ _ (by omega),
      readByte_writeByte_same _ _ _ h0]
  · rw [readByte_writeByte_other _ _ _ _ (by omega), readByte_writeByte_same _ _ _ h1]
  · rw [readByte_writeByte_same _ _ _ h2]

/-- A word that does not overlap the one written stays. -/
theorem readWord_writeWord_other (m : List Host.Cell) (off x : Nat) (v : Word) (h : x + 4 ≤ off ∨ off + 4 ≤ x) :
    readWord (writeWord m off v) x = readWord m x := by
  unfold readWord
  rw [readByte_writeWord_other _ _ _ _ (by omega), readByte_writeWord_other _ _ _ _ (by omega),
    readByte_writeWord_other _ _ _ _ (by omega), readByte_writeWord_other _ _ _ _ (by omega)]

end Sys2Proof.Machine
end

