-- ==== Sys2Proof/Laws/Block.lean ====
section
/-!
SUPPORT. The laws of operand assembly and of the registers of the block: what an offset names on a well-formed
platform, a field inserted in a word, latches driven by a set or clear write.
-/

namespace Sys2Proof.Machine

/-! ### Regions of a well-formed configuration -/

/-- The word index of a valid pin's control word is inside the control region (20_memory.md R60). -/
theorem fselw_lt (c : Cfg) (h : c.WellFormed) (p : Nat) (hp : p < c.pinCount) : fselw c p < c.nf := by
  have hP : 1 ≤ c.pinsPerWord := h.2.2.2.2.2.2.1
  unfold fselw Cfg.nf
  rw [Nat.div_lt_iff_lt_mul (by omega)]
  have h1 := Nat.div_add_mod (c.pinCount + c.pinsPerWord - 1) c.pinsPerWord
  have h2 := Nat.mod_lt (c.pinCount + c.pinsPerWord - 1) (show c.pinsPerWord > 0 by omega)
  rw [Nat.mul_comm] at h1
  omega

/-- The word index of a valid pin's set and clear words is inside their regions. -/
theorem lvlw_lt (c : Cfg) (p : Nat) (hp : p < c.pinCount) : lvlw p < c.nw := by
  unfold lvlw Cfg.nw
  omega

theorem wordIndex_at (base n k : Nat) (hk : k < n) : wordIndex base n (base + 4 * k) = some k := by
  unfold wordIndex
  rw [if_pos (by omega)]
  congr 1
  omega

theorem wordIndex_apart (base n off : Nat) (h : off < base ∨ base + 4 * n ≤ off) : wordIndex base n off = none := by
  unfold wordIndex
  rw [if_neg (by omega)]

/-- Control word `j` is where 20_memory.md R52 says. -/
theorem regAt_ctrlWordOff (c : Cfg) (j : Nat) (hj : j < c.nf) : regAt c (ctrlWordOff c j) = some (.fsel j) := by
  unfold regAt ctrlWordOff
  rw [wordIndex_at _ _ _ hj]

/-- The control word of a valid pin. -/
theorem regAt_fseloff (c : Cfg) (h : c.WellFormed) (p : Nat) (hp : p < c.pinCount) :
    regAt c (fseloff c p) = some (.fsel (fselw c p)) :=
  regAt_ctrlWordOff c _ (fselw_lt c h p hp)

/-- Set word `w` is where 20_memory.md R53 says. -/
theorem regAt_setWord (c : Cfg) (h : c.WellFormed) (w : Nat) (hw : w < c.nw) :
    regAt c (c.setOff + 4 * w) = some (.set w) := by
  obtain ⟨-, -, -, -, -, -, -, -, -, -, -, hcs, -, -⟩ := h
  unfold regAt
  rw [wordIndex_apart c.ctrlOff c.nf _ (by rcases hcs with hcs | hcs <;> omega), wordIndex_at _ _ _ hw]

/-- Clear word `w` is where 20_memory.md R54 says. -/
theorem regAt_clrWord (c : Cfg) (h : c.WellFormed) (w : Nat) (hw : w < c.nw) :
    regAt c (c.clrOff + 4 * w) = some (.clr w) := by
  obtain ⟨-, -, -, -, -, -, -, -, -, -, -, -, hcc, hsc⟩ := h
  unfold regAt
  rw [wordIndex_apart c.ctrlOff c.nf _ (by rcases hcc with hcc | hcc <;> omega),
    wordIndex_apart c.setOff c.nw _ (by rcases hsc with hsc | hsc <;> omega), wordIndex_at _ _ _ hw]
  rfl

/-- The set word of a valid pin. -/
theorem regAt_setoff (c : Cfg) (h : c.WellFormed) (p : Nat) (hp : p < c.pinCount) :
    regAt c (setoff c p) = some (.set (lvlw p)) :=
  regAt_setWord c h _ (lvlw_lt c p hp)

/-- The clear word of a valid pin. -/
theorem regAt_clroff (c : Cfg) (h : c.WellFormed) (p : Nat) (hp : p < c.pinCount) :
    regAt c (clroff c p) = some (.clr (lvlw p)) :=
  regAt_clrWord c h _ (lvlw_lt c p hp)

theorem wordIndex_some (base n off k : Nat) (h : wordIndex base n off = some k) : off = base + 4 * k ∧ k < n := by
  unfold wordIndex at h
  split at h
  · have hk := Option.some.inj h
    omega
  · cases h

/-- Whatever offset names a register is the offset of a word of one of the three regions (20_memory.md R51). -/
theorem regAt_cases (c : Cfg) (off : Nat) (r : Register) (h : regAt c off = some r) :
    (∃ j, j < c.nf ∧ off = ctrlWordOff c j ∧ r = .fsel j) ∨
    (∃ w, w < c.nw ∧ off = c.setOff + 4 * w ∧ r = .set w) ∨
    (∃ w, w < c.nw ∧ off = c.clrOff + 4 * w ∧ r = .clr w) := by
  unfold regAt at h
  split at h
  · rename_i j hj
    obtain ⟨h1, h2⟩ := wordIndex_some _ _ _ _ hj
    exact .inl ⟨j, h2, h1, (Option.some.inj h).symm⟩
  · split at h
    · rename_i w hw
      obtain ⟨h1, h2⟩ := wordIndex_some _ _ _ _ hw
      exact .inr (.inl ⟨w, h2, h1, (Option.some.inj h).symm⟩)
    · obtain ⟨w, hw, rfl⟩ := Option.map_eq_some_iff.mp h
      obtain ⟨h1, h2⟩ := wordIndex_some _ _ _ _ hw
      exact .inr (.inr ⟨w, h2, h1, rfl⟩)

/-! ### Fields of a control word -/

/-- The bits of a word with a field inserted: the code inside the field, the old bits elsewhere. -/
theorem getLsbD_insertField (v : Word) (sh : Nat) (code : BitVec 3) (i : Nat) (hi : i < 32) :
    (insertField v sh code).getLsbD i = if sh ≤ i ∧ i < sh + 3 then code.getLsbD (i - sh) else v.getLsbD i := by
  have h7 : ∀ k, (7#32).getLsbD k = decide (k < 3) := by
    intro k
    rcases Nat.lt_or_ge k 32 with hk | hk
    · interval_cases k <;> rfl
    · rw [BitVec.getLsbD_of_ge _ _ hk]
      simp
      omega
  simp only [insertField, BitVec.getLsbD_or, BitVec.getLsbD_and, BitVec.getLsbD_not, BitVec.getLsbD_shiftLeft,
    BitVec.getLsbD_setWidth, h7, hi, decide_true, Bool.true_and]
  rcases Nat.lt_or_ge i sh with h1 | h1
  · simp [h1, show ¬ (sh ≤ i ∧ i < sh + 3) by omega]
  · rcases Nat.lt_or_ge i (sh + 3) with h2 | h2
    · simp [show ¬ i < sh by omega, show sh ≤ i ∧ i < sh + 3 by omega, show i - sh < 3 by omega, show i - sh < 32 by omega]
    · simp [show ¬ i < sh by omega, show ¬ (sh ≤ i ∧ i < sh + 3) by omega, show ¬ i - sh < 3 by omega,
        BitVec.getLsbD_of_ge code (i - sh) (by omega)]

theorem getLsbD_fieldAt (v : Word) (sh i : Nat) : (fieldAt v sh).getLsbD i = (decide (i < 3) && v.getLsbD (sh + i)) := by
  simp [fieldAt, BitVec.getLsbD_extractLsb']

/-- The field inserted is the field read. -/
theorem fieldAt_insertField_same (v : Word) (sh : Nat) (code : BitVec 3) (h : sh + 3 ≤ 32) :
    fieldAt (insertField v sh code) sh = code := by
  apply BitVec.eq_of_getLsbD_eq
  intro i hi
  rw [getLsbD_fieldAt, getLsbD_insertField _ _ _ _ (by omega), if_pos (by omega)]
  simp [hi]

/-- Another field of the word stays. -/
theorem fieldAt_insertField_other (v : Word) (sh sh' : Nat) (code : BitVec 3) (h' : sh' + 3 ≤ 32)
    (h : sh' + 3 ≤ sh ∨ sh + 3 ≤ sh') : fieldAt (insertField v sh code) sh' = fieldAt v sh' := by
  apply BitVec.eq_of_getLsbD_eq
  intro i hi
  rw [getLsbD_fieldAt, getLsbD_fieldAt, getLsbD_insertField _ _ _ _ (by omega), if_neg (by omega)]

/-- A pin's field is inside its word (30_encoding.md R86). -/
theorem fselsh_le (c : Cfg) (h : c.WellFormed) (p : Nat) : fselsh c p + 3 ≤ 32 := by
  have h1 : 1 ≤ c.pinsPerWord := h.2.2.2.2.2.2.1
  have h2 : c.pinsPerWord ≤ 10 := h.2.2.2.2.2.2.2.1
  have := Nat.mod_lt p (show c.pinsPerWord > 0 by omega)
  unfold fselsh
  omega

/-- Two pins in one control word have fields that do not overlap. -/
theorem fselsh_apart (c : Cfg) (p q : Nat) (hw : fselw c p = fselw c q) (hne : p ≠ q) :
    fselsh c p + 3 ≤ fselsh c q ∨ fselsh c q + 3 ≤ fselsh c p := by
  unfold fselsh
  have h1 := Nat.div_add_mod p c.pinsPerWord
  have h2 := Nat.div_add_mod q c.pinsPerWord
  unfold fselw at hw
  rw [hw] at h1
  omega

/-- Two different control words do not overlap. -/
theorem ctrlWordOff_apart (c : Cfg) (j k : Nat) (h : j ≠ k) :
    ctrlWordOff c j + 4 ≤ ctrlWordOff c k ∨ ctrlWordOff c k + 4 ≤ ctrlWordOff c j := by
  unfold ctrlWordOff
  omega

/-! ### Latches -/

@[simp] theorem length_driveLatches (lvl : List Bool) (w : Nat) (v : Word) (b : Bool) :
    (driveLatches lvl w v b).length = lvl.length := by
  simp [driveLatches]

/-- The latch of line `p` after a set or clear write (20_memory.md R57, R58). -/
theorem getD_driveLatches (lvl : List Bool) (w : Nat) (v : Word) (b : Bool) (p : Nat) (hp : p < lvl.length) :
    (driveLatches lvl w v b).getD p false =
      if p / 32 = w ∧ v.getLsbD (p % 32) = true then b else lvl.getD p false := by
  unfold driveLatches
  rw [List.getD_eq_getElem _ _ (by simpa using hp), List.getD_eq_getElem _ _ hp]
  simp

/-- `mask(p)` has exactly the bit `p mod 32` (30_encoding.md R86). -/
theorem getLsbD_maskOf (p i : Nat) : (maskOf p).getLsbD i = decide (i = p % 32) := by
  have h1 : ∀ k, (1#32).getLsbD k = decide (k = 0) := by
    intro k
    rcases Nat.lt_or_ge k 32 with hk | hk
    · interval_cases k <;> rfl
    · rw [BitVec.getLsbD_of_ge _ _ hk]
      simp
      omega
  have hm : p % 32 < 32 := Nat.mod_lt _ (by omega)
  unfold maskOf
  rw [BitVec.getLsbD_shiftLeft, h1]
  rcases Nat.lt_trichotomy i (p % 32) with h | h | h
  · simp [h, Nat.ne_of_lt h]
  · subst h
    simp [hm]
  · simp [show ¬ i < p % 32 by omega, show ¬ i - p % 32 = 0 by omega, show i ≠ p % 32 by omega]

/-- Writing `mask(p)` to `p`'s set or clear word drives line `p` and no other line. -/
theorem getD_driveLatches_maskOf (lvl : List Bool) (p q : Nat) (b : Bool) (hq : q < lvl.length) :
    (driveLatches lvl (lvlw p) (maskOf p) b).getD q false = if q = p then b else lvl.getD q false := by
  rw [getD_driveLatches _ _ _ _ _ hq, getLsbD_maskOf]
  unfold lvlw
  congr 1
  simp only [decide_eq_true_eq, eq_iff_iff]
  omega

/-! ### What a write changes -/

theorem blockAfterWrite_wf (c : Cfg) (m : List Host.Cell) (off : Nat) (v : Word) (h : MemoryWf m) :
    MemoryWf (blockAfterWrite c m off v) := by
  unfold blockAfterWrite
  split
  · exact writeWord_wf _ _ _ h
  all_goals exact h

@[simp] theorem length_levelAfterWrite (c : Cfg) (lvl : List Bool) (off : Nat) (v : Word) :
    (levelAfterWrite c lvl off v).length = lvl.length := by
  unfold levelAfterWrite
  split <;> simp

/-- A write to a pin's control word replaces that word (20_memory.md R56). -/
theorem blockAfterWrite_fseloff (c : Cfg) (h : c.WellFormed) (m : List Host.Cell) (p : Nat) (v : Word)
    (hp : p < c.pinCount) : blockAfterWrite c m (fseloff c p) v = writeWord m (fseloff c p) v := by
  unfold blockAfterWrite
  rw [regAt_fseloff c h p hp]

theorem blockAfterWrite_setoff (c : Cfg) (h : c.WellFormed) (m : List Host.Cell) (p : Nat) (v : Word)
    (hp : p < c.pinCount) : blockAfterWrite c m (setoff c p) v = m := by
  unfold blockAfterWrite
  rw [regAt_setoff c h p hp]

theorem blockAfterWrite_clroff (c : Cfg) (h : c.WellFormed) (m : List Host.Cell) (p : Nat) (v : Word)
    (hp : p < c.pinCount) : blockAfterWrite c m (clroff c p) v = m := by
  unfold blockAfterWrite
  rw [regAt_clroff c h p hp]

theorem levelAfterWrite_fseloff (c : Cfg) (h : c.WellFormed) (lvl : List Bool) (p : Nat) (v : Word)
    (hp : p < c.pinCount) : levelAfterWrite c lvl (fseloff c p) v = lvl := by
  unfold levelAfterWrite
  rw [regAt_fseloff c h p hp]

/-- A write to a pin's set word drives the masked lines high (20_memory.md R57). -/
theorem levelAfterWrite_setoff (c : Cfg) (h : c.WellFormed) (lvl : List Bool) (p : Nat) (v : Word)
    (hp : p < c.pinCount) : levelAfterWrite c lvl (setoff c p) v = driveLatches lvl (lvlw p) v true := by
  unfold levelAfterWrite
  rw [regAt_setoff c h p hp]

/-- A write to a pin's clear word drives the masked lines low (20_memory.md R58). -/
theorem levelAfterWrite_clroff (c : Cfg) (h : c.WellFormed) (lvl : List Bool) (p : Nat) (v : Word)
    (hp : p < c.pinCount) : levelAfterWrite c lvl (clroff c p) v = driveLatches lvl (lvlw p) v false := by
  unfold levelAfterWrite
  rw [regAt_clroff c h p hp]

end Sys2Proof.Machine
end

