-- ==== Sys2Proof/Laws/Decode.lean ====
section
/-!
SUPPORT. The laws of the command word: which words hit which row of the opcode table, and what the decoder does with
the four bytes of a word.
-/

namespace Sys2Proof

open Sys2Proof.Machine

/-- A row whose mask is the top `n` bits is hit by the words whose top `n` bits are the row's. -/
theorem hits_top (r : OpcodeRow) (k n : Nat) (hkn : k + n = 32)
    (hmask : ∀ i, i < 32 → r.mask.getLsbD i = decide (k ≤ i)) (hfix : ∀ i, i < k → r.fixed.getLsbD i = false)
    (w : Word) : r.hits w = true ↔ w.extractLsb' k n = r.fixed.extractLsb' k n := by
  simp only [OpcodeRow.hits, beq_iff_eq]
  constructor
  · intro h
    rw [← h]
    apply BitVec.eq_of_getLsbD_eq
    intro i hi
    simp [hi, hmask (k + i) (by omega)]
  · intro h
    apply BitVec.eq_of_getLsbD_eq
    intro i hi
    rw [BitVec.getLsbD_and, hmask i hi]
    by_cases hik : k ≤ i
    · have := congrArg (fun x => BitVec.getLsbD x (i - k)) h
      simp only [BitVec.getLsbD_extractLsb', show i - k < n by omega, decide_true, Bool.true_and,
        show k + (i - k) = i by omega] at this
      simp [hik, this]
    · simp [hik, hfix i (by omega)]

/-- A CONSTRUCT word: the top 16 bits are 0 (30_encoding.md R82). -/
theorem hits_construct (w : Word) : rowConstruct.hits w = true ↔ w.extractLsb' 16 16 = 0#16 :=
  hits_top rowConstruct 16 16 rfl (by decide) (by decide) w

/-- All the bits of a word are the word. -/
theorem extractLsb'_all (w : Word) : w.extractLsb' 0 32 = w := by simp

/-- The one INITIALIZE word (30_encoding.md R83). -/
theorem hits_initialise (w : Word) : rowInitialise.hits w = true ↔ w = 0x40000000#32 := by
  rw [hits_top rowInitialise 0 32 rfl (by decide) (by decide) w, extractLsb'_all, extractLsb'_all]
  rfl

/-- A SEND word: the top two bits are `0b10` (30_encoding.md R84). -/
theorem hits_send (w : Word) : rowSend.hits w = true ↔ w.extractLsb' 30 2 = 0b10#2 :=
  hits_top rowSend 30 2 rfl (by decide) (by decide) w

/-- The one TEARDOWN word (30_encoding.md R85). -/
theorem hits_teardown (w : Word) : rowTeardown.hits w = true ↔ w = 0xC0000000#32 := by
  rw [hits_top rowTeardown 0 32 rfl (by decide) (by decide) w, extractLsb'_all, extractLsb'_all]
  rfl

/-- The top 16 bits of a word are its opcode and the 14 must-be-zero bits below it. -/
theorem top16_eq (w : Word) : w.extractLsb' 16 16 = w.extractLsb' 30 2 ++ w.extractLsb' 16 14 := by
  apply BitVec.eq_of_getLsbD_eq
  intro i hi
  simp only [BitVec.getLsbD_append, BitVec.getLsbD_extractLsb', hi, decide_true, Bool.true_and]
  by_cases h : i < 14
  · simp [h]
  · simp only [h, if_false, show i - 14 < 2 by omega, decide_true, Bool.true_and, show 30 + (i - 14) = 16 + i by omega]

/-- A word is its opcode and its low 30 bits. -/
theorem word_eq_op_low (w : Word) : w = w.extractLsb' 30 2 ++ w.extractLsb' 0 30 := by
  apply BitVec.eq_of_getLsbD_eq
  intro i hi
  simp only [BitVec.getLsbD_append, BitVec.getLsbD_extractLsb']
  by_cases h : i < 30
  · simp [h]
  · simp only [h, if_false, show i - 30 < 2 by omega, decide_true, Bool.true_and, show 30 + (i - 30) = i by omega]

/-- The upper part of two strings of bits put together. -/
theorem extractLsb'_append_upper {m n : Nat} (a : BitVec m) (b : BitVec n) : (a ++ b).extractLsb' n m = a := by
  apply BitVec.eq_of_getLsbD_eq
  intro i hi
  simp [BitVec.getLsbD_append, hi]

/-- The lower part of two strings of bits put together. -/
theorem extractLsb'_append_lower {m n : Nat} (a : BitVec m) (b : BitVec n) : (a ++ b).extractLsb' 0 n = b := by
  apply BitVec.eq_of_getLsbD_eq
  intro i hi
  simp [BitVec.getLsbD_append, hi]

/-- A CONSTRUCT word, by opcode and must-be-zero bits (30_encoding.md R81, R82). -/
theorem hits_construct_fields (w : Word) :
    rowConstruct.hits w = true ↔ w.extractLsb' 30 2 = 0b00#2 ∧ w.extractLsb' 16 14 = 0#14 := by
  rw [hits_construct, top16_eq]
  constructor
  · intro h
    exact ⟨(extractLsb'_append_upper _ _).symm.trans ((congrArg (BitVec.extractLsb' 14 2) h).trans (by decide)),
      (extractLsb'_append_lower _ _).symm.trans ((congrArg (BitVec.extractLsb' 0 14) h).trans (by decide))⟩
  · rintro ⟨h1, h2⟩
    rw [h1, h2]
    rfl

/-- A word of no operand, by opcode and must-be-zero bits (30_encoding.md R81, R83, R85). -/
theorem eq_op_zero (w : Word) (op : BitVec 2) :
    w = op ++ 0#30 ↔ w.extractLsb' 30 2 = op ∧ w.extractLsb' 0 30 = 0#30 := by
  constructor
  · intro h
    rw [h]
    exact ⟨extractLsb'_append_upper _ _, extractLsb'_append_lower _ _⟩
  · rintro ⟨h1, h2⟩
    rw [word_eq_op_low w, h1, h2]

theorem hits_initialise_fields (w : Word) :
    rowInitialise.hits w = true ↔ w.extractLsb' 30 2 = 0b01#2 ∧ w.extractLsb' 0 30 = 0#30 :=
  (hits_initialise w).trans (eq_op_zero w 0b01#2)

theorem hits_teardown_fields (w : Word) :
    rowTeardown.hits w = true ↔ w.extractLsb' 30 2 = 0b11#2 ∧ w.extractLsb' 0 30 = 0#30 :=
  (hits_teardown w).trans (eq_op_zero w 0b11#2)

/-- Everything the decoder can make of one word, by its opcode (30_encoding.md R81, R88). -/
theorem decodeWord_cases (w : Word) (after : List Byte) :
    (w.extractLsb' 30 2 = 0b00#2 ∧ decodeWord w after =
      if w.extractLsb' 16 14 = 0#14 then .command (.construct (wordClk w) (wordDat w)) after else .reservedBits) ∨
    (w.extractLsb' 30 2 = 0b01#2 ∧ decodeWord w after =
      if w.extractLsb' 0 30 = 0#30 then .command .initialise after else .reservedBits) ∨
    (w.extractLsb' 30 2 = 0b10#2 ∧ decodeWord w after =
      if wordLen w ≤ after.length then .command (.send (after.take (wordLen w))) (after.drop (wordLen w))
      else .incompletePayload) ∨
    (w.extractLsb' 30 2 = 0b11#2 ∧ decodeWord w after =
      if w.extractLsb' 0 30 = 0#30 then .command .teardown after else .reservedBits) := by
  have hop : ∀ op : BitVec 2, op = 0b00#2 ∨ op = 0b01#2 ∨ op = 0b10#2 ∨ op = 0b11#2 := by decide
  unfold decodeWord
  simp only [hits_construct_fields, hits_initialise_fields, hits_send, hits_teardown_fields]
  rcases hop (w.extractLsb' 30 2) with h | h | h | h <;> rw [h]
  · exact .inl ⟨rfl, by simp⟩
  · exact .inr (.inl ⟨rfl, by simp⟩)
  · exact .inr (.inr (.inl ⟨rfl, by simp⟩))
  · exact .inr (.inr (.inr ⟨rfl, by simp⟩))

/-- The decoder puts the four bytes of a word together again. -/
theorem decode_bytesOfWord (w : Word) (after : List Byte) : decode (bytesOfWord w ++ after) = decodeWord w after := by
  simp only [bytesOfWord, List.cons_append, List.nil_append, decode, wordOfBytes_wordByte]

/-- The bytes of a word put together from four bytes are those bytes. -/
theorem bytesOfWord_wordOfBytes (b0 b1 b2 b3 : Byte) : bytesOfWord (wordOfBytes b0 b1 b2 b3) = [b0, b1, b2, b3] := by
  simp only [bytesOfWord, wordByte, wordOfBytes, List.cons.injEq, and_true]
  refine ⟨?_, ?_, ?_, ?_⟩ <;>
  · apply BitVec.eq_of_getLsbD_eq
    intro i hi
    simp only [BitVec.getLsbD_extractLsb', BitVec.getLsbD_append, hi, decide_true, Bool.true_and]
    repeat' split
    all_goals first
      | omega
      | (congr 1; omega)

/-- Fewer than four bytes are no word. -/
theorem decode_short (bytes : List Byte) (h : bytes.length < 4) : decode bytes = .incompleteWord := by
  match bytes, h with
  | [], _ => rfl
  | [_], _ => rfl
  | [_, _], _ => rfl
  | [_, _, _], _ => rfl

/-! ### The fields of an encoded word -/

/-- The must-be-zero bits of a CONSTRUCT word (30_encoding.md R82). -/
theorem encodeWord_construct_top (clk dat : Int) : (encodeWord (.construct clk dat)).extractLsb' 16 16 = 0#16 := by
  apply BitVec.eq_of_getLsbD_eq
  intro i hi
  simp only [encodeWord, BitVec.getLsbD_extractLsb', BitVec.getLsbD_append, hi]
  simp [show ¬ 16 + i < 8 by omega, show ¬ 16 + i - 8 < 8 by omega]

/-- The clock field of a CONSTRUCT word. -/
theorem encodeWord_construct_clk (clk dat : Int) :
    (encodeWord (.construct clk dat)).extractLsb' 8 8 = BitVec.ofInt 8 clk := by
  apply BitVec.eq_of_getLsbD_eq
  intro i hi
  simp only [encodeWord, BitVec.getLsbD_extractLsb', BitVec.getLsbD_append, hi]
  simp [hi]

/-- The data field of a CONSTRUCT word. -/
theorem encodeWord_construct_dat (clk dat : Int) :
    (encodeWord (.construct clk dat)).extractLsb' 0 8 = BitVec.ofInt 8 dat :=
  extractLsb'_append_lower (0#16 ++ BitVec.ofInt 8 clk) _

/-- The opcode of a SEND word (30_encoding.md R84). -/
theorem encodeWord_send_op (bytes : List Byte) : (encodeWord (.send bytes)).extractLsb' 30 2 = 0b10#2 :=
  extractLsb'_append_upper _ _

/-- The length field of a SEND word. -/
theorem encodeWord_send_len (bytes : List Byte) :
    (encodeWord (.send bytes)).extractLsb' 0 30 = BitVec.ofNat 30 bytes.length :=
  extractLsb'_append_lower _ _

end Sys2Proof
end

