-- ==== Sys2Proof/Laws/State.lean ====
section
/-!
SUPPORT. One lemma per field per update of the state, true by rfl, so that no proof unfolds a record update. The
environment's slot leaves `block` and `level` to Laws/Environment.lean.
-/

namespace Sys2Proof.Machine

/-! ### Building a machine on a configuration (00_scope.md R12) -/

theorem State.configure_wellFormed (c : Cfg) (h : c.WellFormed) : State.configure c = .next (State.powerOn ⟨c, h⟩) :=
  dif_pos h

theorem State.configure_illFormed (c : Cfg) (h : ¬ c.WellFormed) : State.configure c = .refused .illFormedConfiguration :=
  dif_neg h

/-- Everything building a machine can do: if it answers a state, the configuration is well formed and the state is its
power-on state. -/
theorem State.configure_cases (c : Cfg) (s : State) (h : State.configure c = .next s) :
    ∃ w : c.WellFormed, s = State.powerOn ⟨c, w⟩ := by
  by_cases w : c.WellFormed
  · rw [State.configure_wellFormed c w] at h
    exact ⟨w, (Host.Outcome.next.inj h).symm⟩
  · rw [State.configure_illFormed c w] at h
    cases h

/-! ### envTick -/

@[simp] theorem State.envTick_cfg (s : State) : s.envTick.cfg = s.cfg := rfl
@[simp] theorem State.envTick_lc (s : State) : s.envTick.lc = s.lc := rfl
@[simp] theorem State.envTick_busy (s : State) : s.envTick.busy = s.busy := rfl
@[simp] theorem State.envTick_seq (s : State) : s.envTick.seq = s.seq := rfl
@[simp] theorem State.envTick_sessionValid (s : State) : s.envTick.sessionValid = s.sessionValid := rfl
@[simp] theorem State.envTick_mapped (s : State) : s.envTick.mapped = s.mapped := rfl
@[simp] theorem State.envTick_cfgErr (s : State) : s.envTick.cfgErr = s.cfgErr := rfl
@[simp] theorem State.envTick_status (s : State) : s.envTick.status = s.status := rfl
@[simp] theorem State.envTick_clkPin (s : State) : s.envTick.clkPin = s.clkPin := rfl
@[simp] theorem State.envTick_datPin (s : State) : s.envTick.datPin = s.datPin := rfl
@[simp] theorem State.envTick_clkMask (s : State) : s.envTick.clkMask = s.clkMask := rfl
@[simp] theorem State.envTick_datMask (s : State) : s.envTick.datMask = s.datMask := rfl
@[simp] theorem State.envTick_buf (s : State) : s.envTick.buf = s.buf := rfl
@[simp] theorem State.envTick_hold (s : State) : s.envTick.hold = s.hold := rfl
@[simp] theorem State.envTick_pending (s : State) : s.envTick.pending = s.pending := rfl
@[simp] theorem State.envTick_tr (s : State) : s.envTick.tr = s.tr := rfl
@[simp] theorem State.envTick_cmdIn (s : State) : s.envTick.cmdIn = s.cmdIn := rfl
@[simp] theorem State.envTick_answers (s : State) : s.envTick.answers = s.answers := rfl
@[simp] theorem State.envTick_asked (s : State) : s.envTick.asked = s.asked := rfl
@[simp] theorem State.envTick_env (s : State) : s.envTick.env = s.env.tail := rfl
@[simp] theorem State.envTick_ticks (s : State) : s.envTick.ticks = s.ticks + 1 := rfl

/-! ### emit -/

@[simp] theorem State.emit_cfg (s : State) (e : Event) : (s.emit e).cfg = s.cfg := rfl
@[simp] theorem State.emit_lc (s : State) (e : Event) : (s.emit e).lc = s.lc := rfl
@[simp] theorem State.emit_busy (s : State) (e : Event) : (s.emit e).busy = s.busy := rfl
@[simp] theorem State.emit_seq (s : State) (e : Event) : (s.emit e).seq = s.seq := rfl
@[simp] theorem State.emit_sessionValid (s : State) (e : Event) : (s.emit e).sessionValid = s.sessionValid := rfl
@[simp] theorem State.emit_mapped (s : State) (e : Event) : (s.emit e).mapped = s.mapped := rfl
@[simp] theorem State.emit_cfgErr (s : State) (e : Event) : (s.emit e).cfgErr = s.cfgErr := rfl
@[simp] theorem State.emit_status (s : State) (e : Event) : (s.emit e).status = s.status := rfl
@[simp] theorem State.emit_clkPin (s : State) (e : Event) : (s.emit e).clkPin = s.clkPin := rfl
@[simp] theorem State.emit_datPin (s : State) (e : Event) : (s.emit e).datPin = s.datPin := rfl
@[simp] theorem State.emit_clkMask (s : State) (e : Event) : (s.emit e).clkMask = s.clkMask := rfl
@[simp] theorem State.emit_datMask (s : State) (e : Event) : (s.emit e).datMask = s.datMask := rfl
@[simp] theorem State.emit_buf (s : State) (e : Event) : (s.emit e).buf = s.buf := rfl
@[simp] theorem State.emit_hold (s : State) (e : Event) : (s.emit e).hold = s.hold := rfl
@[simp] theorem State.emit_pending (s : State) (e : Event) : (s.emit e).pending = s.pending := rfl
@[simp] theorem State.emit_block (s : State) (e : Event) : (s.emit e).block = s.block := rfl
@[simp] theorem State.emit_level (s : State) (e : Event) : (s.emit e).level = s.level := rfl
@[simp] theorem State.emit_tr (s : State) (e : Event) : (s.emit e).tr = s.tr ++ [e] := rfl
@[simp] theorem State.emit_cmdIn (s : State) (e : Event) : (s.emit e).cmdIn = s.cmdIn := rfl
@[simp] theorem State.emit_answers (s : State) (e : Event) : (s.emit e).answers = s.answers := rfl
@[simp] theorem State.emit_asked (s : State) (e : Event) : (s.emit e).asked = s.asked := rfl
@[simp] theorem State.emit_env (s : State) (e : Event) : (s.emit e).env = s.env := rfl
@[simp] theorem State.emit_ticks (s : State) (e : Event) : (s.emit e).ticks = s.ticks := rfl

/-! ### answered -/

@[simp] theorem State.answered_cfg (s : State) : s.answered.cfg = s.cfg := rfl
@[simp] theorem State.answered_lc (s : State) : s.answered.lc = s.lc := rfl
@[simp] theorem State.answered_busy (s : State) : s.answered.busy = s.busy := rfl
@[simp] theorem State.answered_seq (s : State) : s.answered.seq = s.seq := rfl
@[simp] theorem State.answered_sessionValid (s : State) : s.answered.sessionValid = s.sessionValid := rfl
@[simp] theorem State.answered_mapped (s : State) : s.answered.mapped = s.mapped := rfl
@[simp] theorem State.answered_cfgErr (s : State) : s.answered.cfgErr = s.cfgErr := rfl
@[simp] theorem State.answered_status (s : State) : s.answered.status = s.status := rfl
@[simp] theorem State.answered_clkPin (s : State) : s.answered.clkPin = s.clkPin := rfl
@[simp] theorem State.answered_datPin (s : State) : s.answered.datPin = s.datPin := rfl
@[simp] theorem State.answered_clkMask (s : State) : s.answered.clkMask = s.clkMask := rfl
@[simp] theorem State.answered_datMask (s : State) : s.answered.datMask = s.datMask := rfl
@[simp] theorem State.answered_buf (s : State) : s.answered.buf = s.buf := rfl
@[simp] theorem State.answered_hold (s : State) : s.answered.hold = s.hold := rfl
@[simp] theorem State.answered_pending (s : State) : s.answered.pending = s.pending := rfl
@[simp] theorem State.answered_block (s : State) : s.answered.block = s.block := rfl
@[simp] theorem State.answered_level (s : State) : s.answered.level = s.level := rfl
@[simp] theorem State.answered_tr (s : State) : s.answered.tr = s.tr := rfl
@[simp] theorem State.answered_cmdIn (s : State) : s.answered.cmdIn = s.cmdIn := rfl
@[simp] theorem State.answered_answers (s : State) : s.answered.answers = s.answers.tail := rfl
@[simp] theorem State.answered_asked (s : State) : s.answered.asked = s.asked + 1 := rfl
@[simp] theorem State.answered_env (s : State) : s.answered.env = s.env := rfl
@[simp] theorem State.answered_ticks (s : State) : s.answered.ticks = s.ticks := rfl

/-! ### openReq -/

@[simp] theorem State.openReq_cfg (s : State) : s.openReq.2.cfg = s.cfg := rfl
@[simp] theorem State.openReq_lc (s : State) : s.openReq.2.lc = s.lc := rfl
@[simp] theorem State.openReq_busy (s : State) : s.openReq.2.busy = s.busy := rfl
@[simp] theorem State.openReq_seq (s : State) : s.openReq.2.seq = s.seq := rfl
@[simp] theorem State.openReq_sessionValid (s : State) : s.openReq.2.sessionValid = s.sessionValid := rfl
@[simp] theorem State.openReq_mapped (s : State) : s.openReq.2.mapped = s.mapped := rfl
@[simp] theorem State.openReq_cfgErr (s : State) : s.openReq.2.cfgErr = s.cfgErr := rfl
@[simp] theorem State.openReq_status (s : State) : s.openReq.2.status = s.status := rfl
@[simp] theorem State.openReq_clkPin (s : State) : s.openReq.2.clkPin = s.clkPin := rfl
@[simp] theorem State.openReq_datPin (s : State) : s.openReq.2.datPin = s.datPin := rfl
@[simp] theorem State.openReq_clkMask (s : State) : s.openReq.2.clkMask = s.clkMask := rfl
@[simp] theorem State.openReq_datMask (s : State) : s.openReq.2.datMask = s.datMask := rfl
@[simp] theorem State.openReq_buf (s : State) : s.openReq.2.buf = s.buf := rfl
@[simp] theorem State.openReq_hold (s : State) : s.openReq.2.hold = s.hold := rfl
@[simp] theorem State.openReq_pending (s : State) : s.openReq.2.pending = s.pending := rfl
@[simp] theorem State.openReq_block (s : State) : s.openReq.2.block = s.envTick.block := rfl
@[simp] theorem State.openReq_level (s : State) : s.openReq.2.level = s.envTick.level := rfl
@[simp] theorem State.openReq_tr (s : State) : s.openReq.2.tr = s.tr ++ [.openEv s.nextAnswer] := rfl
@[simp] theorem State.openReq_cmdIn (s : State) : s.openReq.2.cmdIn = s.cmdIn := rfl
@[simp] theorem State.openReq_answers (s : State) : s.openReq.2.answers = s.answers.tail := rfl
@[simp] theorem State.openReq_asked (s : State) : s.openReq.2.asked = s.asked + 1 := rfl
@[simp] theorem State.openReq_env (s : State) : s.openReq.2.env = s.env.tail := rfl
@[simp] theorem State.openReq_ticks (s : State) : s.openReq.2.ticks = s.ticks + 1 := rfl

/-! ### mapReq -/

@[simp] theorem State.mapReq_cfg (s : State) : s.mapReq.2.cfg = s.cfg := rfl
@[simp] theorem State.mapReq_lc (s : State) : s.mapReq.2.lc = s.lc := rfl
@[simp] theorem State.mapReq_busy (s : State) : s.mapReq.2.busy = s.busy := rfl
@[simp] theorem State.mapReq_seq (s : State) : s.mapReq.2.seq = s.seq := rfl
@[simp] theorem State.mapReq_sessionValid (s : State) : s.mapReq.2.sessionValid = s.sessionValid := rfl
@[simp] theorem State.mapReq_mapped (s : State) : s.mapReq.2.mapped = s.mapped := rfl
@[simp] theorem State.mapReq_cfgErr (s : State) : s.mapReq.2.cfgErr = s.cfgErr := rfl
@[simp] theorem State.mapReq_status (s : State) : s.mapReq.2.status = s.status := rfl
@[simp] theorem State.mapReq_clkPin (s : State) : s.mapReq.2.clkPin = s.clkPin := rfl
@[simp] theorem State.mapReq_datPin (s : State) : s.mapReq.2.datPin = s.datPin := rfl
@[simp] theorem State.mapReq_clkMask (s : State) : s.mapReq.2.clkMask = s.clkMask := rfl
@[simp] theorem State.mapReq_datMask (s : State) : s.mapReq.2.datMask = s.datMask := rfl
@[simp] theorem State.mapReq_buf (s : State) : s.mapReq.2.buf = s.buf := rfl
@[simp] theorem State.mapReq_hold (s : State) : s.mapReq.2.hold = s.hold := rfl
@[simp] theorem State.mapReq_pending (s : State) : s.mapReq.2.pending = s.pending := rfl
@[simp] theorem State.mapReq_block (s : State) : s.mapReq.2.block = s.envTick.block := rfl
@[simp] theorem State.mapReq_level (s : State) : s.mapReq.2.level = s.envTick.level := rfl
@[simp] theorem State.mapReq_tr (s : State) : s.mapReq.2.tr = s.tr ++ [.mapEv s.cfg.val.basePhys s.cfg.val.blockLen s.nextAnswer] := rfl
@[simp] theorem State.mapReq_cmdIn (s : State) : s.mapReq.2.cmdIn = s.cmdIn := rfl
@[simp] theorem State.mapReq_answers (s : State) : s.mapReq.2.answers = s.answers.tail := rfl
@[simp] theorem State.mapReq_asked (s : State) : s.mapReq.2.asked = s.asked + 1 := rfl
@[simp] theorem State.mapReq_env (s : State) : s.mapReq.2.env = s.env.tail := rfl
@[simp] theorem State.mapReq_ticks (s : State) : s.mapReq.2.ticks = s.ticks + 1 := rfl

/-! ### unmapReq -/

@[simp] theorem State.unmapReq_cfg (s : State) : s.unmapReq.2.cfg = s.cfg := rfl
@[simp] theorem State.unmapReq_lc (s : State) : s.unmapReq.2.lc = s.lc := rfl
@[simp] theorem State.unmapReq_busy (s : State) : s.unmapReq.2.busy = s.busy := rfl
@[simp] theorem State.unmapReq_seq (s : State) : s.unmapReq.2.seq = s.seq := rfl
@[simp] theorem State.unmapReq_sessionValid (s : State) : s.unmapReq.2.sessionValid = s.sessionValid := rfl
@[simp] theorem State.unmapReq_mapped (s : State) : s.unmapReq.2.mapped = s.mapped := rfl
@[simp] theorem State.unmapReq_cfgErr (s : State) : s.unmapReq.2.cfgErr = s.cfgErr := rfl
@[simp] theorem State.unmapReq_status (s : State) : s.unmapReq.2.status = s.status := rfl
@[simp] theorem State.unmapReq_clkPin (s : State) : s.unmapReq.2.clkPin = s.clkPin := rfl
@[simp] theorem State.unmapReq_datPin (s : State) : s.unmapReq.2.datPin = s.datPin := rfl
@[simp] theorem State.unmapReq_clkMask (s : State) : s.unmapReq.2.clkMask = s.clkMask := rfl
@[simp] theorem State.unmapReq_datMask (s : State) : s.unmapReq.2.datMask = s.datMask := rfl
@[simp] theorem State.unmapReq_buf (s : State) : s.unmapReq.2.buf = s.buf := rfl
@[simp] theorem State.unmapReq_hold (s : State) : s.unmapReq.2.hold = s.hold := rfl
@[simp] theorem State.unmapReq_pending (s : State) : s.unmapReq.2.pending = s.pending := rfl
@[simp] theorem State.unmapReq_block (s : State) : s.unmapReq.2.block = s.envTick.block := rfl
@[simp] theorem State.unmapReq_level (s : State) : s.unmapReq.2.level = s.envTick.level := rfl
@[simp] theorem State.unmapReq_tr (s : State) : s.unmapReq.2.tr = s.tr ++ [.unmapEv s.nextAnswer] := rfl
@[simp] theorem State.unmapReq_cmdIn (s : State) : s.unmapReq.2.cmdIn = s.cmdIn := rfl
@[simp] theorem State.unmapReq_answers (s : State) : s.unmapReq.2.answers = s.answers.tail := rfl
@[simp] theorem State.unmapReq_asked (s : State) : s.unmapReq.2.asked = s.asked + 1 := rfl
@[simp] theorem State.unmapReq_env (s : State) : s.unmapReq.2.env = s.env.tail := rfl
@[simp] theorem State.unmapReq_ticks (s : State) : s.unmapReq.2.ticks = s.ticks + 1 := rfl

/-! ### closeReq -/

@[simp] theorem State.closeReq_cfg (s : State) : s.closeReq.2.cfg = s.cfg := rfl
@[simp] theorem State.closeReq_lc (s : State) : s.closeReq.2.lc = s.lc := rfl
@[simp] theorem State.closeReq_busy (s : State) : s.closeReq.2.busy = s.busy := rfl
@[simp] theorem State.closeReq_seq (s : State) : s.closeReq.2.seq = s.seq := rfl
@[simp] theorem State.closeReq_sessionValid (s : State) : s.closeReq.2.sessionValid = s.sessionValid := rfl
@[simp] theorem State.closeReq_mapped (s : State) : s.closeReq.2.mapped = s.mapped := rfl
@[simp] theorem State.closeReq_cfgErr (s : State) : s.closeReq.2.cfgErr = s.cfgErr := rfl
@[simp] theorem State.closeReq_status (s : State) : s.closeReq.2.status = s.status := rfl
@[simp] theorem State.closeReq_clkPin (s : State) : s.closeReq.2.clkPin = s.clkPin := rfl
@[simp] theorem State.closeReq_datPin (s : State) : s.closeReq.2.datPin = s.datPin := rfl
@[simp] theorem State.closeReq_clkMask (s : State) : s.closeReq.2.clkMask = s.clkMask := rfl
@[simp] theorem State.closeReq_datMask (s : State) : s.closeReq.2.datMask = s.datMask := rfl
@[simp] theorem State.closeReq_buf (s : State) : s.closeReq.2.buf = s.buf := rfl
@[simp] theorem State.closeReq_hold (s : State) : s.closeReq.2.hold = s.hold := rfl
@[simp] theorem State.closeReq_pending (s : State) : s.closeReq.2.pending = s.pending := rfl
@[simp] theorem State.closeReq_block (s : State) : s.closeReq.2.block = s.envTick.block := rfl
@[simp] theorem State.closeReq_level (s : State) : s.closeReq.2.level = s.envTick.level := rfl
@[simp] theorem State.closeReq_tr (s : State) : s.closeReq.2.tr = s.tr ++ [.closeEv s.nextAnswer] := rfl
@[simp] theorem State.closeReq_cmdIn (s : State) : s.closeReq.2.cmdIn = s.cmdIn := rfl
@[simp] theorem State.closeReq_answers (s : State) : s.closeReq.2.answers = s.answers.tail := rfl
@[simp] theorem State.closeReq_asked (s : State) : s.closeReq.2.asked = s.asked + 1 := rfl
@[simp] theorem State.closeReq_env (s : State) : s.closeReq.2.env = s.env.tail := rfl
@[simp] theorem State.closeReq_ticks (s : State) : s.closeReq.2.ticks = s.ticks + 1 := rfl

/-! ### rd32 -/

@[simp] theorem State.rd32_cfg (s : State) (off : Nat) : (s.rd32 off).2.cfg = s.cfg := rfl
@[simp] theorem State.rd32_lc (s : State) (off : Nat) : (s.rd32 off).2.lc = s.lc := rfl
@[simp] theorem State.rd32_busy (s : State) (off : Nat) : (s.rd32 off).2.busy = s.busy := rfl
@[simp] theorem State.rd32_seq (s : State) (off : Nat) : (s.rd32 off).2.seq = s.seq := rfl
@[simp] theorem State.rd32_sessionValid (s : State) (off : Nat) : (s.rd32 off).2.sessionValid = s.sessionValid := rfl
@[simp] theorem State.rd32_mapped (s : State) (off : Nat) : (s.rd32 off).2.mapped = s.mapped := rfl
@[simp] theorem State.rd32_cfgErr (s : State) (off : Nat) : (s.rd32 off).2.cfgErr = s.cfgErr := rfl
@[simp] theorem State.rd32_status (s : State) (off : Nat) : (s.rd32 off).2.status = s.status := rfl
@[simp] theorem State.rd32_clkPin (s : State) (off : Nat) : (s.rd32 off).2.clkPin = s.clkPin := rfl
@[simp] theorem State.rd32_datPin (s : State) (off : Nat) : (s.rd32 off).2.datPin = s.datPin := rfl
@[simp] theorem State.rd32_clkMask (s : State) (off : Nat) : (s.rd32 off).2.clkMask = s.clkMask := rfl
@[simp] theorem State.rd32_datMask (s : State) (off : Nat) : (s.rd32 off).2.datMask = s.datMask := rfl
@[simp] theorem State.rd32_buf (s : State) (off : Nat) : (s.rd32 off).2.buf = s.buf := rfl
@[simp] theorem State.rd32_hold (s : State) (off : Nat) : (s.rd32 off).2.hold = s.hold := rfl
@[simp] theorem State.rd32_pending (s : State) (off : Nat) : (s.rd32 off).2.pending = s.pending := rfl
@[simp] theorem State.rd32_block (s : State) (off : Nat) : (s.rd32 off).2.block = s.envTick.block := rfl
@[simp] theorem State.rd32_level (s : State) (off : Nat) : (s.rd32 off).2.level = s.envTick.level := rfl
@[simp] theorem State.rd32_tr (s : State) (off : Nat) : (s.rd32 off).2.tr = s.tr ++ [.rd32 off (s.rd32 off).1] := rfl
@[simp] theorem State.rd32_cmdIn (s : State) (off : Nat) : (s.rd32 off).2.cmdIn = s.cmdIn := rfl
@[simp] theorem State.rd32_answers (s : State) (off : Nat) : (s.rd32 off).2.answers = s.answers := rfl
@[simp] theorem State.rd32_asked (s : State) (off : Nat) : (s.rd32 off).2.asked = s.asked := rfl
@[simp] theorem State.rd32_env (s : State) (off : Nat) : (s.rd32 off).2.env = s.env.tail := rfl
@[simp] theorem State.rd32_ticks (s : State) (off : Nat) : (s.rd32 off).2.ticks = s.ticks + 1 := rfl

/-! ### wr32 -/

@[simp] theorem State.wr32_cfg (s : State) (off : Nat) (v : Word) : (s.wr32 off v).cfg = s.cfg := rfl
@[simp] theorem State.wr32_lc (s : State) (off : Nat) (v : Word) : (s.wr32 off v).lc = s.lc := rfl
@[simp] theorem State.wr32_busy (s : State) (off : Nat) (v : Word) : (s.wr32 off v).busy = s.busy := rfl
@[simp] theorem State.wr32_seq (s : State) (off : Nat) (v : Word) : (s.wr32 off v).seq = s.seq := rfl
@[simp] theorem State.wr32_sessionValid (s : State) (off : Nat) (v : Word) : (s.wr32 off v).sessionValid = s.sessionValid := rfl
@[simp] theorem State.wr32_mapped (s : State) (off : Nat) (v : Word) : (s.wr32 off v).mapped = s.mapped := rfl
@[simp] theorem State.wr32_cfgErr (s : State) (off : Nat) (v : Word) : (s.wr32 off v).cfgErr = s.cfgErr := rfl
@[simp] theorem State.wr32_status (s : State) (off : Nat) (v : Word) : (s.wr32 off v).status = s.status := rfl
@[simp] theorem State.wr32_clkPin (s : State) (off : Nat) (v : Word) : (s.wr32 off v).clkPin = s.clkPin := rfl
@[simp] theorem State.wr32_datPin (s : State) (off : Nat) (v : Word) : (s.wr32 off v).datPin = s.datPin := rfl
@[simp] theorem State.wr32_clkMask (s : State) (off : Nat) (v : Word) : (s.wr32 off v).clkMask = s.clkMask := rfl
@[simp] theorem State.wr32_datMask (s : State) (off : Nat) (v : Word) : (s.wr32 off v).datMask = s.datMask := rfl
@[simp] theorem State.wr32_buf (s : State) (off : Nat) (v : Word) : (s.wr32 off v).buf = s.buf := rfl
@[simp] theorem State.wr32_hold (s : State) (off : Nat) (v : Word) : (s.wr32 off v).hold = s.hold := rfl
@[simp] theorem State.wr32_pending (s : State) (off : Nat) (v : Word) : (s.wr32 off v).pending = s.pending := rfl
@[simp] theorem State.wr32_block (s : State) (off : Nat) (v : Word) : (s.wr32 off v).block = blockAfterWrite s.cfg.val s.envTick.block off v := rfl
@[simp] theorem State.wr32_level (s : State) (off : Nat) (v : Word) : (s.wr32 off v).level = levelAfterWrite s.cfg.val s.envTick.level off v := rfl
@[simp] theorem State.wr32_tr (s : State) (off : Nat) (v : Word) : (s.wr32 off v).tr = s.tr ++ [.wr32 off v] := rfl
@[simp] theorem State.wr32_cmdIn (s : State) (off : Nat) (v : Word) : (s.wr32 off v).cmdIn = s.cmdIn := rfl
@[simp] theorem State.wr32_answers (s : State) (off : Nat) (v : Word) : (s.wr32 off v).answers = s.answers := rfl
@[simp] theorem State.wr32_asked (s : State) (off : Nat) (v : Word) : (s.wr32 off v).asked = s.asked := rfl
@[simp] theorem State.wr32_env (s : State) (off : Nat) (v : Word) : (s.wr32 off v).env = s.env.tail := rfl
@[simp] theorem State.wr32_ticks (s : State) (off : Nat) (v : Word) : (s.wr32 off v).ticks = s.ticks + 1 := rfl

/-! ### delay -/

@[simp] theorem State.delay_cfg (s : State) (k : DelayKind) : (s.delay k).cfg = s.cfg := rfl
@[simp] theorem State.delay_lc (s : State) (k : DelayKind) : (s.delay k).lc = s.lc := rfl
@[simp] theorem State.delay_busy (s : State) (k : DelayKind) : (s.delay k).busy = s.busy := rfl
@[simp] theorem State.delay_seq (s : State) (k : DelayKind) : (s.delay k).seq = s.seq := rfl
@[simp] theorem State.delay_sessionValid (s : State) (k : DelayKind) : (s.delay k).sessionValid = s.sessionValid := rfl
@[simp] theorem State.delay_mapped (s : State) (k : DelayKind) : (s.delay k).mapped = s.mapped := rfl
@[simp] theorem State.delay_cfgErr (s : State) (k : DelayKind) : (s.delay k).cfgErr = s.cfgErr := rfl
@[simp] theorem State.delay_status (s : State) (k : DelayKind) : (s.delay k).status = s.status := rfl
@[simp] theorem State.delay_clkPin (s : State) (k : DelayKind) : (s.delay k).clkPin = s.clkPin := rfl
@[simp] theorem State.delay_datPin (s : State) (k : DelayKind) : (s.delay k).datPin = s.datPin := rfl
@[simp] theorem State.delay_clkMask (s : State) (k : DelayKind) : (s.delay k).clkMask = s.clkMask := rfl
@[simp] theorem State.delay_datMask (s : State) (k : DelayKind) : (s.delay k).datMask = s.datMask := rfl
@[simp] theorem State.delay_buf (s : State) (k : DelayKind) : (s.delay k).buf = s.buf := rfl
@[simp] theorem State.delay_hold (s : State) (k : DelayKind) : (s.delay k).hold = s.hold := rfl
@[simp] theorem State.delay_pending (s : State) (k : DelayKind) : (s.delay k).pending = s.pending := rfl
@[simp] theorem State.delay_block (s : State) (k : DelayKind) : (s.delay k).block = s.envTick.block := rfl
@[simp] theorem State.delay_level (s : State) (k : DelayKind) : (s.delay k).level = s.envTick.level := rfl
@[simp] theorem State.delay_tr (s : State) (k : DelayKind) : (s.delay k).tr = s.tr ++ [.delay k] := rfl
@[simp] theorem State.delay_cmdIn (s : State) (k : DelayKind) : (s.delay k).cmdIn = s.cmdIn := rfl
@[simp] theorem State.delay_answers (s : State) (k : DelayKind) : (s.delay k).answers = s.answers := rfl
@[simp] theorem State.delay_asked (s : State) (k : DelayKind) : (s.delay k).asked = s.asked := rfl
@[simp] theorem State.delay_env (s : State) (k : DelayKind) : (s.delay k).env = s.env.tail := rfl
@[simp] theorem State.delay_ticks (s : State) (k : DelayKind) : (s.delay k).ticks = s.ticks + 1 := rfl

/-! ### accept -/

@[simp] theorem State.accept_cfg (s : State) : s.accept.cfg = s.cfg := rfl
@[simp] theorem State.accept_lc (s : State) : s.accept.lc = s.lc := rfl
@[simp] theorem State.accept_busy (s : State) : s.accept.busy = true := rfl
@[simp] theorem State.accept_seq (s : State) : s.accept.seq = s.seq := rfl
@[simp] theorem State.accept_sessionValid (s : State) : s.accept.sessionValid = s.sessionValid := rfl
@[simp] theorem State.accept_mapped (s : State) : s.accept.mapped = s.mapped := rfl
@[simp] theorem State.accept_cfgErr (s : State) : s.accept.cfgErr = s.cfgErr := rfl
@[simp] theorem State.accept_status (s : State) : s.accept.status = s.status := rfl
@[simp] theorem State.accept_clkPin (s : State) : s.accept.clkPin = s.clkPin := rfl
@[simp] theorem State.accept_datPin (s : State) : s.accept.datPin = s.datPin := rfl
@[simp] theorem State.accept_clkMask (s : State) : s.accept.clkMask = s.clkMask := rfl
@[simp] theorem State.accept_datMask (s : State) : s.accept.datMask = s.datMask := rfl
@[simp] theorem State.accept_buf (s : State) : s.accept.buf = s.buf := rfl
@[simp] theorem State.accept_hold (s : State) : s.accept.hold = s.hold := rfl
@[simp] theorem State.accept_pending (s : State) : s.accept.pending = s.pending := rfl
@[simp] theorem State.accept_block (s : State) : s.accept.block = s.block := rfl
@[simp] theorem State.accept_level (s : State) : s.accept.level = s.level := rfl
@[simp] theorem State.accept_tr (s : State) : s.accept.tr = s.tr := rfl
@[simp] theorem State.accept_cmdIn (s : State) : s.accept.cmdIn = s.cmdIn := rfl
@[simp] theorem State.accept_answers (s : State) : s.accept.answers = s.answers := rfl
@[simp] theorem State.accept_asked (s : State) : s.accept.asked = s.asked := rfl
@[simp] theorem State.accept_env (s : State) : s.accept.env = s.env := rfl
@[simp] theorem State.accept_ticks (s : State) : s.accept.ticks = s.ticks := rfl

/-! ### goto -/

@[simp] theorem State.goto_cfg (s : State) (p : Phase) : (s.goto p).cfg = s.cfg := rfl
@[simp] theorem State.goto_lc (s : State) (p : Phase) : (s.goto p).lc = s.lc := rfl
@[simp] theorem State.goto_busy (s : State) (p : Phase) : (s.goto p).busy = s.busy := rfl
@[simp] theorem State.goto_seq (s : State) (p : Phase) : (s.goto p).seq = ⟨p, 0, 0⟩ := rfl
@[simp] theorem State.goto_sessionValid (s : State) (p : Phase) : (s.goto p).sessionValid = s.sessionValid := rfl
@[simp] theorem State.goto_mapped (s : State) (p : Phase) : (s.goto p).mapped = s.mapped := rfl
@[simp] theorem State.goto_cfgErr (s : State) (p : Phase) : (s.goto p).cfgErr = s.cfgErr := rfl
@[simp] theorem State.goto_status (s : State) (p : Phase) : (s.goto p).status = s.status := rfl
@[simp] theorem State.goto_clkPin (s : State) (p : Phase) : (s.goto p).clkPin = s.clkPin := rfl
@[simp] theorem State.goto_datPin (s : State) (p : Phase) : (s.goto p).datPin = s.datPin := rfl
@[simp] theorem State.goto_clkMask (s : State) (p : Phase) : (s.goto p).clkMask = s.clkMask := rfl
@[simp] theorem State.goto_datMask (s : State) (p : Phase) : (s.goto p).datMask = s.datMask := rfl
@[simp] theorem State.goto_buf (s : State) (p : Phase) : (s.goto p).buf = s.buf := rfl
@[simp] theorem State.goto_hold (s : State) (p : Phase) : (s.goto p).hold = s.hold := rfl
@[simp] theorem State.goto_pending (s : State) (p : Phase) : (s.goto p).pending = s.pending := rfl
@[simp] theorem State.goto_block (s : State) (p : Phase) : (s.goto p).block = s.block := rfl
@[simp] theorem State.goto_level (s : State) (p : Phase) : (s.goto p).level = s.level := rfl
@[simp] theorem State.goto_tr (s : State) (p : Phase) : (s.goto p).tr = s.tr := rfl
@[simp] theorem State.goto_cmdIn (s : State) (p : Phase) : (s.goto p).cmdIn = s.cmdIn := rfl
@[simp] theorem State.goto_answers (s : State) (p : Phase) : (s.goto p).answers = s.answers := rfl
@[simp] theorem State.goto_asked (s : State) (p : Phase) : (s.goto p).asked = s.asked := rfl
@[simp] theorem State.goto_env (s : State) (p : Phase) : (s.goto p).env = s.env := rfl
@[simp] theorem State.goto_ticks (s : State) (p : Phase) : (s.goto p).ticks = s.ticks := rfl

/-! ### sameBit -/

@[simp] theorem State.sameBit_cfg (s : State) (p : Phase) : (s.sameBit p).cfg = s.cfg := rfl
@[simp] theorem State.sameBit_lc (s : State) (p : Phase) : (s.sameBit p).lc = s.lc := rfl
@[simp] theorem State.sameBit_busy (s : State) (p : Phase) : (s.sameBit p).busy = s.busy := rfl
@[simp] theorem State.sameBit_seq (s : State) (p : Phase) : (s.sameBit p).seq = { s.seq with phase := p } := rfl
@[simp] theorem State.sameBit_sessionValid (s : State) (p : Phase) : (s.sameBit p).sessionValid = s.sessionValid := rfl
@[simp] theorem State.sameBit_mapped (s : State) (p : Phase) : (s.sameBit p).mapped = s.mapped := rfl
@[simp] theorem State.sameBit_cfgErr (s : State) (p : Phase) : (s.sameBit p).cfgErr = s.cfgErr := rfl
@[simp] theorem State.sameBit_status (s : State) (p : Phase) : (s.sameBit p).status = s.status := rfl
@[simp] theorem State.sameBit_clkPin (s : State) (p : Phase) : (s.sameBit p).clkPin = s.clkPin := rfl
@[simp] theorem State.sameBit_datPin (s : State) (p : Phase) : (s.sameBit p).datPin = s.datPin := rfl
@[simp] theorem State.sameBit_clkMask (s : State) (p : Phase) : (s.sameBit p).clkMask = s.clkMask := rfl
@[simp] theorem State.sameBit_datMask (s : State) (p : Phase) : (s.sameBit p).datMask = s.datMask := rfl
@[simp] theorem State.sameBit_buf (s : State) (p : Phase) : (s.sameBit p).buf = s.buf := rfl
@[simp] theorem State.sameBit_hold (s : State) (p : Phase) : (s.sameBit p).hold = s.hold := rfl
@[simp] theorem State.sameBit_pending (s : State) (p : Phase) : (s.sameBit p).pending = s.pending := rfl
@[simp] theorem State.sameBit_block (s : State) (p : Phase) : (s.sameBit p).block = s.block := rfl
@[simp] theorem State.sameBit_level (s : State) (p : Phase) : (s.sameBit p).level = s.level := rfl
@[simp] theorem State.sameBit_tr (s : State) (p : Phase) : (s.sameBit p).tr = s.tr := rfl
@[simp] theorem State.sameBit_cmdIn (s : State) (p : Phase) : (s.sameBit p).cmdIn = s.cmdIn := rfl
@[simp] theorem State.sameBit_answers (s : State) (p : Phase) : (s.sameBit p).answers = s.answers := rfl
@[simp] theorem State.sameBit_asked (s : State) (p : Phase) : (s.sameBit p).asked = s.asked := rfl
@[simp] theorem State.sameBit_env (s : State) (p : Phase) : (s.sameBit p).env = s.env := rfl
@[simp] theorem State.sameBit_ticks (s : State) (p : Phase) : (s.sameBit p).ticks = s.ticks := rfl

/-! ### finish -/

@[simp] theorem State.finish_cfg (s : State) (st : Status) : (s.finish st).cfg = s.cfg := rfl
@[simp] theorem State.finish_lc (s : State) (st : Status) : (s.finish st).lc = s.lc := rfl
@[simp] theorem State.finish_busy (s : State) (st : Status) : (s.finish st).busy = false := rfl
@[simp] theorem State.finish_seq (s : State) (st : Status) : (s.finish st).seq = Seq.idle := rfl
@[simp] theorem State.finish_sessionValid (s : State) (st : Status) : (s.finish st).sessionValid = s.sessionValid := rfl
@[simp] theorem State.finish_mapped (s : State) (st : Status) : (s.finish st).mapped = s.mapped := rfl
@[simp] theorem State.finish_cfgErr (s : State) (st : Status) : (s.finish st).cfgErr = s.cfgErr := rfl
@[simp] theorem State.finish_status (s : State) (st : Status) : (s.finish st).status = st := rfl
@[simp] theorem State.finish_clkPin (s : State) (st : Status) : (s.finish st).clkPin = s.clkPin := rfl
@[simp] theorem State.finish_datPin (s : State) (st : Status) : (s.finish st).datPin = s.datPin := rfl
@[simp] theorem State.finish_clkMask (s : State) (st : Status) : (s.finish st).clkMask = s.clkMask := rfl
@[simp] theorem State.finish_datMask (s : State) (st : Status) : (s.finish st).datMask = s.datMask := rfl
@[simp] theorem State.finish_buf (s : State) (st : Status) : (s.finish st).buf = s.buf := rfl
@[simp] theorem State.finish_hold (s : State) (st : Status) : (s.finish st).hold = s.hold := rfl
@[simp] theorem State.finish_pending (s : State) (st : Status) : (s.finish st).pending = none := rfl
@[simp] theorem State.finish_block (s : State) (st : Status) : (s.finish st).block = s.block := rfl
@[simp] theorem State.finish_level (s : State) (st : Status) : (s.finish st).level = s.level := rfl
@[simp] theorem State.finish_tr (s : State) (st : Status) : (s.finish st).tr = s.tr := rfl
@[simp] theorem State.finish_cmdIn (s : State) (st : Status) : (s.finish st).cmdIn = s.cmdIn := rfl
@[simp] theorem State.finish_answers (s : State) (st : Status) : (s.finish st).answers = s.answers := rfl
@[simp] theorem State.finish_asked (s : State) (st : Status) : (s.finish st).asked = s.asked := rfl
@[simp] theorem State.finish_env (s : State) (st : Status) : (s.finish st).env = s.env := rfl
@[simp] theorem State.finish_ticks (s : State) (st : Status) : (s.finish st).ticks = s.ticks := rfl

/-! ### raiseError -/

@[simp] theorem State.raiseError_cfg (s : State) (k : ErrorKind) : (s.raiseError k).cfg = s.cfg := rfl
@[simp] theorem State.raiseError_lc (s : State) (k : ErrorKind) : (s.raiseError k).lc = s.lc := rfl
@[simp] theorem State.raiseError_busy (s : State) (k : ErrorKind) : (s.raiseError k).busy = false := rfl
@[simp] theorem State.raiseError_seq (s : State) (k : ErrorKind) : (s.raiseError k).seq = Seq.idle := rfl
@[simp] theorem State.raiseError_sessionValid (s : State) (k : ErrorKind) : (s.raiseError k).sessionValid = s.sessionValid := rfl
@[simp] theorem State.raiseError_mapped (s : State) (k : ErrorKind) : (s.raiseError k).mapped = s.mapped := rfl
@[simp] theorem State.raiseError_cfgErr (s : State) (k : ErrorKind) : (s.raiseError k).cfgErr = s.cfgErr := rfl
@[simp] theorem State.raiseError_status (s : State) (k : ErrorKind) : (s.raiseError k).status = k.status := rfl
@[simp] theorem State.raiseError_clkPin (s : State) (k : ErrorKind) : (s.raiseError k).clkPin = s.clkPin := rfl
@[simp] theorem State.raiseError_datPin (s : State) (k : ErrorKind) : (s.raiseError k).datPin = s.datPin := rfl
@[simp] theorem State.raiseError_clkMask (s : State) (k : ErrorKind) : (s.raiseError k).clkMask = s.clkMask := rfl
@[simp] theorem State.raiseError_datMask (s : State) (k : ErrorKind) : (s.raiseError k).datMask = s.datMask := rfl
@[simp] theorem State.raiseError_buf (s : State) (k : ErrorKind) : (s.raiseError k).buf = s.buf := rfl
@[simp] theorem State.raiseError_hold (s : State) (k : ErrorKind) : (s.raiseError k).hold = s.hold := rfl
@[simp] theorem State.raiseError_pending (s : State) (k : ErrorKind) : (s.raiseError k).pending = none := rfl
@[simp] theorem State.raiseError_block (s : State) (k : ErrorKind) : (s.raiseError k).block = s.block := rfl
@[simp] theorem State.raiseError_level (s : State) (k : ErrorKind) : (s.raiseError k).level = s.level := rfl
@[simp] theorem State.raiseError_tr (s : State) (k : ErrorKind) : (s.raiseError k).tr = s.tr := rfl
@[simp] theorem State.raiseError_cmdIn (s : State) (k : ErrorKind) : (s.raiseError k).cmdIn = s.cmdIn := rfl
@[simp] theorem State.raiseError_answers (s : State) (k : ErrorKind) : (s.raiseError k).answers = s.answers := rfl
@[simp] theorem State.raiseError_asked (s : State) (k : ErrorKind) : (s.raiseError k).asked = s.asked := rfl
@[simp] theorem State.raiseError_env (s : State) (k : ErrorKind) : (s.raiseError k).env = s.env := rfl
@[simp] theorem State.raiseError_ticks (s : State) (k : ErrorKind) : (s.raiseError k).ticks = s.ticks := rfl

/-! ### latchPins -/

@[simp] theorem State.latchPins_cfg (s : State) (clk dat : Int) : (s.latchPins clk dat).cfg = s.cfg := rfl
@[simp] theorem State.latchPins_lc (s : State) (clk dat : Int) : (s.latchPins clk dat).lc = .constructed := rfl
@[simp] theorem State.latchPins_busy (s : State) (clk dat : Int) : (s.latchPins clk dat).busy = s.busy := rfl
@[simp] theorem State.latchPins_seq (s : State) (clk dat : Int) : (s.latchPins clk dat).seq = s.seq := rfl
@[simp] theorem State.latchPins_sessionValid (s : State) (clk dat : Int) : (s.latchPins clk dat).sessionValid = s.sessionValid := rfl
@[simp] theorem State.latchPins_mapped (s : State) (clk dat : Int) : (s.latchPins clk dat).mapped = s.mapped := rfl
@[simp] theorem State.latchPins_cfgErr (s : State) (clk dat : Int) : (s.latchPins clk dat).cfgErr = configError s.cfg.val clk dat := rfl
@[simp] theorem State.latchPins_status (s : State) (clk dat : Int) : (s.latchPins clk dat).status = s.status := rfl
@[simp] theorem State.latchPins_clkPin (s : State) (clk dat : Int) : (s.latchPins clk dat).clkPin = clk := rfl
@[simp] theorem State.latchPins_datPin (s : State) (clk dat : Int) : (s.latchPins clk dat).datPin = dat := rfl
@[simp] theorem State.latchPins_clkMask (s : State) (clk dat : Int) : (s.latchPins clk dat).clkMask = s.clkMask := rfl
@[simp] theorem State.latchPins_datMask (s : State) (clk dat : Int) : (s.latchPins clk dat).datMask = s.datMask := rfl
@[simp] theorem State.latchPins_buf (s : State) (clk dat : Int) : (s.latchPins clk dat).buf = s.buf := rfl
@[simp] theorem State.latchPins_hold (s : State) (clk dat : Int) : (s.latchPins clk dat).hold = s.hold := rfl
@[simp] theorem State.latchPins_pending (s : State) (clk dat : Int) : (s.latchPins clk dat).pending = s.pending := rfl
@[simp] theorem State.latchPins_block (s : State) (clk dat : Int) : (s.latchPins clk dat).block = s.block := rfl
@[simp] theorem State.latchPins_level (s : State) (clk dat : Int) : (s.latchPins clk dat).level = s.level := rfl
@[simp] theorem State.latchPins_tr (s : State) (clk dat : Int) : (s.latchPins clk dat).tr = s.tr := rfl
@[simp] theorem State.latchPins_cmdIn (s : State) (clk dat : Int) : (s.latchPins clk dat).cmdIn = s.cmdIn := rfl
@[simp] theorem State.latchPins_answers (s : State) (clk dat : Int) : (s.latchPins clk dat).answers = s.answers := rfl
@[simp] theorem State.latchPins_asked (s : State) (clk dat : Int) : (s.latchPins clk dat).asked = s.asked := rfl
@[simp] theorem State.latchPins_env (s : State) (clk dat : Int) : (s.latchPins clk dat).env = s.env := rfl
@[simp] theorem State.latchPins_ticks (s : State) (clk dat : Int) : (s.latchPins clk dat).ticks = s.ticks := rfl

/-! ### taken -/

@[simp] theorem State.taken_cfg (s : State) (rest : List Byte) : (s.taken rest).cfg = s.cfg := rfl
@[simp] theorem State.taken_lc (s : State) (rest : List Byte) : (s.taken rest).lc = s.lc := rfl
@[simp] theorem State.taken_busy (s : State) (rest : List Byte) : (s.taken rest).busy = s.busy := rfl
@[simp] theorem State.taken_seq (s : State) (rest : List Byte) : (s.taken rest).seq = s.seq := rfl
@[simp] theorem State.taken_sessionValid (s : State) (rest : List Byte) : (s.taken rest).sessionValid = s.sessionValid := rfl
@[simp] theorem State.taken_mapped (s : State) (rest : List Byte) : (s.taken rest).mapped = s.mapped := rfl
@[simp] theorem State.taken_cfgErr (s : State) (rest : List Byte) : (s.taken rest).cfgErr = s.cfgErr := rfl
@[simp] theorem State.taken_status (s : State) (rest : List Byte) : (s.taken rest).status = s.status := rfl
@[simp] theorem State.taken_clkPin (s : State) (rest : List Byte) : (s.taken rest).clkPin = s.clkPin := rfl
@[simp] theorem State.taken_datPin (s : State) (rest : List Byte) : (s.taken rest).datPin = s.datPin := rfl
@[simp] theorem State.taken_clkMask (s : State) (rest : List Byte) : (s.taken rest).clkMask = s.clkMask := rfl
@[simp] theorem State.taken_datMask (s : State) (rest : List Byte) : (s.taken rest).datMask = s.datMask := rfl
@[simp] theorem State.taken_buf (s : State) (rest : List Byte) : (s.taken rest).buf = s.buf := rfl
@[simp] theorem State.taken_hold (s : State) (rest : List Byte) : (s.taken rest).hold = s.hold := rfl
@[simp] theorem State.taken_pending (s : State) (rest : List Byte) : (s.taken rest).pending = s.pending := rfl
@[simp] theorem State.taken_block (s : State) (rest : List Byte) : (s.taken rest).block = s.envTick.block := rfl
@[simp] theorem State.taken_level (s : State) (rest : List Byte) : (s.taken rest).level = s.envTick.level := rfl
@[simp] theorem State.taken_tr (s : State) (rest : List Byte) : (s.taken rest).tr = s.tr := rfl
@[simp] theorem State.taken_cmdIn (s : State) (rest : List Byte) : (s.taken rest).cmdIn = rest := rfl
@[simp] theorem State.taken_answers (s : State) (rest : List Byte) : (s.taken rest).answers = s.answers := rfl
@[simp] theorem State.taken_asked (s : State) (rest : List Byte) : (s.taken rest).asked = s.asked := rfl
@[simp] theorem State.taken_env (s : State) (rest : List Byte) : (s.taken rest).env = s.env.tail := rfl
@[simp] theorem State.taken_ticks (s : State) (rest : List Byte) : (s.taken rest).ticks = s.ticks + 1 := rfl

/-! ### withFetchWord -/

@[simp] theorem State.withFetchWord_cfg (s : State) (nbits w : Nat) : (s.withFetchWord nbits w).cfg = s.cfg := rfl
@[simp] theorem State.withFetchWord_lc (s : State) (nbits w : Nat) : (s.withFetchWord nbits w).lc = s.lc := rfl
@[simp] theorem State.withFetchWord_busy (s : State) (nbits w : Nat) : (s.withFetchWord nbits w).busy = false := rfl
@[simp] theorem State.withFetchWord_seq (s : State) (nbits w : Nat) : (s.withFetchWord nbits w).seq = Seq.idle := rfl
@[simp] theorem State.withFetchWord_sessionValid (s : State) (nbits w : Nat) : (s.withFetchWord nbits w).sessionValid = s.sessionValid := rfl
@[simp] theorem State.withFetchWord_mapped (s : State) (nbits w : Nat) : (s.withFetchWord nbits w).mapped = s.mapped := rfl
@[simp] theorem State.withFetchWord_cfgErr (s : State) (nbits w : Nat) : (s.withFetchWord nbits w).cfgErr = s.cfgErr := rfl
@[simp] theorem State.withFetchWord_status (s : State) (nbits w : Nat) : (s.withFetchWord nbits w).status = s.status := rfl
@[simp] theorem State.withFetchWord_clkPin (s : State) (nbits w : Nat) : (s.withFetchWord nbits w).clkPin = s.clkPin := rfl
@[simp] theorem State.withFetchWord_datPin (s : State) (nbits w : Nat) : (s.withFetchWord nbits w).datPin = s.datPin := rfl
@[simp] theorem State.withFetchWord_clkMask (s : State) (nbits w : Nat) : (s.withFetchWord nbits w).clkMask = s.clkMask := rfl
@[simp] theorem State.withFetchWord_datMask (s : State) (nbits w : Nat) : (s.withFetchWord nbits w).datMask = s.datMask := rfl
@[simp] theorem State.withFetchWord_buf (s : State) (nbits w : Nat) : (s.withFetchWord nbits w).buf = s.buf := rfl
@[simp] theorem State.withFetchWord_hold (s : State) (nbits w : Nat) : (s.withFetchWord nbits w).hold = s.hold := rfl
@[simp] theorem State.withFetchWord_pending (s : State) (nbits w : Nat) : (s.withFetchWord nbits w).pending = s.pending := rfl
@[simp] theorem State.withFetchWord_block (s : State) (nbits w : Nat) : (s.withFetchWord nbits w).block = s.block := rfl
@[simp] theorem State.withFetchWord_level (s : State) (nbits w : Nat) : (s.withFetchWord nbits w).level = s.level := rfl
@[simp] theorem State.withFetchWord_tr (s : State) (nbits w : Nat) : (s.withFetchWord nbits w).tr = s.tr := rfl
@[simp] theorem State.withFetchWord_cmdIn (s : State) (nbits w : Nat) : (s.withFetchWord nbits w).cmdIn = tableBytes nbits w ++ s.cmdIn := rfl
@[simp] theorem State.withFetchWord_answers (s : State) (nbits w : Nat) : (s.withFetchWord nbits w).answers = s.answers := rfl
@[simp] theorem State.withFetchWord_asked (s : State) (nbits w : Nat) : (s.withFetchWord nbits w).asked = s.asked := rfl
@[simp] theorem State.withFetchWord_env (s : State) (nbits w : Nat) : (s.withFetchWord nbits w).env = s.env := rfl
@[simp] theorem State.withFetchWord_ticks (s : State) (nbits w : Nat) : (s.withFetchWord nbits w).ticks = s.ticks := rfl

/-! ### setSession -/

@[simp] theorem State.setSession_cfg (s : State) (b : Bool) : (s.setSession b).cfg = s.cfg := rfl
@[simp] theorem State.setSession_lc (s : State) (b : Bool) : (s.setSession b).lc = s.lc := rfl
@[simp] theorem State.setSession_busy (s : State) (b : Bool) : (s.setSession b).busy = s.busy := rfl
@[simp] theorem State.setSession_seq (s : State) (b : Bool) : (s.setSession b).seq = s.seq := rfl
@[simp] theorem State.setSession_sessionValid (s : State) (b : Bool) : (s.setSession b).sessionValid = b := rfl
@[simp] theorem State.setSession_mapped (s : State) (b : Bool) : (s.setSession b).mapped = s.mapped := rfl
@[simp] theorem State.setSession_cfgErr (s : State) (b : Bool) : (s.setSession b).cfgErr = s.cfgErr := rfl
@[simp] theorem State.setSession_status (s : State) (b : Bool) : (s.setSession b).status = s.status := rfl
@[simp] theorem State.setSession_clkPin (s : State) (b : Bool) : (s.setSession b).clkPin = s.clkPin := rfl
@[simp] theorem State.setSession_datPin (s : State) (b : Bool) : (s.setSession b).datPin = s.datPin := rfl
@[simp] theorem State.setSession_clkMask (s : State) (b : Bool) : (s.setSession b).clkMask = s.clkMask := rfl
@[simp] theorem State.setSession_datMask (s : State) (b : Bool) : (s.setSession b).datMask = s.datMask := rfl
@[simp] theorem State.setSession_buf (s : State) (b : Bool) : (s.setSession b).buf = s.buf := rfl
@[simp] theorem State.setSession_hold (s : State) (b : Bool) : (s.setSession b).hold = s.hold := rfl
@[simp] theorem State.setSession_pending (s : State) (b : Bool) : (s.setSession b).pending = s.pending := rfl
@[simp] theorem State.setSession_block (s : State) (b : Bool) : (s.setSession b).block = s.block := rfl
@[simp] theorem State.setSession_level (s : State) (b : Bool) : (s.setSession b).level = s.level := rfl
@[simp] theorem State.setSession_tr (s : State) (b : Bool) : (s.setSession b).tr = s.tr := rfl
@[simp] theorem State.setSession_cmdIn (s : State) (b : Bool) : (s.setSession b).cmdIn = s.cmdIn := rfl
@[simp] theorem State.setSession_answers (s : State) (b : Bool) : (s.setSession b).answers = s.answers := rfl
@[simp] theorem State.setSession_asked (s : State) (b : Bool) : (s.setSession b).asked = s.asked := rfl
@[simp] theorem State.setSession_env (s : State) (b : Bool) : (s.setSession b).env = s.env := rfl
@[simp] theorem State.setSession_ticks (s : State) (b : Bool) : (s.setSession b).ticks = s.ticks := rfl
@[simp] theorem State.setSession_clk (s : State) (b : Bool) : (s.setSession b).clk = s.clk := rfl
@[simp] theorem State.setSession_dat (s : State) (b : Bool) : (s.setSession b).dat = s.dat := rfl
@[simp] theorem State.setSession_owns (s : State) (b : Bool) (p : Nat) : (s.setSession b).owns p = s.owns p := rfl

/-! ### setMapped -/

@[simp] theorem State.setMapped_cfg (s : State) (b : Bool) : (s.setMapped b).cfg = s.cfg := rfl
@[simp] theorem State.setMapped_lc (s : State) (b : Bool) : (s.setMapped b).lc = s.lc := rfl
@[simp] theorem State.setMapped_busy (s : State) (b : Bool) : (s.setMapped b).busy = s.busy := rfl
@[simp] theorem State.setMapped_seq (s : State) (b : Bool) : (s.setMapped b).seq = s.seq := rfl
@[simp] theorem State.setMapped_sessionValid (s : State) (b : Bool) : (s.setMapped b).sessionValid = s.sessionValid := rfl
@[simp] theorem State.setMapped_mapped (s : State) (b : Bool) : (s.setMapped b).mapped = b := rfl
@[simp] theorem State.setMapped_cfgErr (s : State) (b : Bool) : (s.setMapped b).cfgErr = s.cfgErr := rfl
@[simp] theorem State.setMapped_status (s : State) (b : Bool) : (s.setMapped b).status = s.status := rfl
@[simp] theorem State.setMapped_clkPin (s : State) (b : Bool) : (s.setMapped b).clkPin = s.clkPin := rfl
@[simp] theorem State.setMapped_datPin (s : State) (b : Bool) : (s.setMapped b).datPin = s.datPin := rfl
@[simp] theorem State.setMapped_clkMask (s : State) (b : Bool) : (s.setMapped b).clkMask = s.clkMask := rfl
@[simp] theorem State.setMapped_datMask (s : State) (b : Bool) : (s.setMapped b).datMask = s.datMask := rfl
@[simp] theorem State.setMapped_buf (s : State) (b : Bool) : (s.setMapped b).buf = s.buf := rfl
@[simp] theorem State.setMapped_hold (s : State) (b : Bool) : (s.setMapped b).hold = s.hold := rfl
@[simp] theorem State.setMapped_pending (s : State) (b : Bool) : (s.setMapped b).pending = s.pending := rfl
@[simp] theorem State.setMapped_block (s : State) (b : Bool) : (s.setMapped b).block = s.block := rfl
@[simp] theorem State.setMapped_level (s : State) (b : Bool) : (s.setMapped b).level = s.level := rfl
@[simp] theorem State.setMapped_tr (s : State) (b : Bool) : (s.setMapped b).tr = s.tr := rfl
@[simp] theorem State.setMapped_cmdIn (s : State) (b : Bool) : (s.setMapped b).cmdIn = s.cmdIn := rfl
@[simp] theorem State.setMapped_answers (s : State) (b : Bool) : (s.setMapped b).answers = s.answers := rfl
@[simp] theorem State.setMapped_asked (s : State) (b : Bool) : (s.setMapped b).asked = s.asked := rfl
@[simp] theorem State.setMapped_env (s : State) (b : Bool) : (s.setMapped b).env = s.env := rfl
@[simp] theorem State.setMapped_ticks (s : State) (b : Bool) : (s.setMapped b).ticks = s.ticks := rfl
@[simp] theorem State.setMapped_clk (s : State) (b : Bool) : (s.setMapped b).clk = s.clk := rfl
@[simp] theorem State.setMapped_dat (s : State) (b : Bool) : (s.setMapped b).dat = s.dat := rfl
@[simp] theorem State.setMapped_owns (s : State) (b : Bool) (p : Nat) : (s.setMapped b).owns p = s.owns p := rfl

/-! ### setMasks -/

@[simp] theorem State.setMasks_cfg (s : State) : s.setMasks.cfg = s.cfg := rfl
@[simp] theorem State.setMasks_lc (s : State) : s.setMasks.lc = s.lc := rfl
@[simp] theorem State.setMasks_busy (s : State) : s.setMasks.busy = s.busy := rfl
@[simp] theorem State.setMasks_seq (s : State) : s.setMasks.seq = s.seq := rfl
@[simp] theorem State.setMasks_sessionValid (s : State) : s.setMasks.sessionValid = s.sessionValid := rfl
@[simp] theorem State.setMasks_mapped (s : State) : s.setMasks.mapped = s.mapped := rfl
@[simp] theorem State.setMasks_cfgErr (s : State) : s.setMasks.cfgErr = s.cfgErr := rfl
@[simp] theorem State.setMasks_status (s : State) : s.setMasks.status = s.status := rfl
@[simp] theorem State.setMasks_clkPin (s : State) : s.setMasks.clkPin = s.clkPin := rfl
@[simp] theorem State.setMasks_datPin (s : State) : s.setMasks.datPin = s.datPin := rfl
@[simp] theorem State.setMasks_clkMask (s : State) : s.setMasks.clkMask = maskOf s.clk := rfl
@[simp] theorem State.setMasks_datMask (s : State) : s.setMasks.datMask = maskOf s.dat := rfl
@[simp] theorem State.setMasks_buf (s : State) : s.setMasks.buf = s.buf := rfl
@[simp] theorem State.setMasks_hold (s : State) : s.setMasks.hold = s.hold := rfl
@[simp] theorem State.setMasks_pending (s : State) : s.setMasks.pending = s.pending := rfl
@[simp] theorem State.setMasks_block (s : State) : s.setMasks.block = s.block := rfl
@[simp] theorem State.setMasks_level (s : State) : s.setMasks.level = s.level := rfl
@[simp] theorem State.setMasks_tr (s : State) : s.setMasks.tr = s.tr := rfl
@[simp] theorem State.setMasks_cmdIn (s : State) : s.setMasks.cmdIn = s.cmdIn := rfl
@[simp] theorem State.setMasks_answers (s : State) : s.setMasks.answers = s.answers := rfl
@[simp] theorem State.setMasks_asked (s : State) : s.setMasks.asked = s.asked := rfl
@[simp] theorem State.setMasks_env (s : State) : s.setMasks.env = s.env := rfl
@[simp] theorem State.setMasks_ticks (s : State) : s.setMasks.ticks = s.ticks := rfl
@[simp] theorem State.setMasks_clk (s : State) : s.setMasks.clk = s.clk := rfl
@[simp] theorem State.setMasks_dat (s : State) : s.setMasks.dat = s.dat := rfl
@[simp] theorem State.setMasks_owns (s : State) (p : Nat) : s.setMasks.owns p = s.owns p := rfl

/-! ### setHold -/

@[simp] theorem State.setHold_cfg (s : State) (w : Word) : (s.setHold w).cfg = s.cfg := rfl
@[simp] theorem State.setHold_lc (s : State) (w : Word) : (s.setHold w).lc = s.lc := rfl
@[simp] theorem State.setHold_busy (s : State) (w : Word) : (s.setHold w).busy = s.busy := rfl
@[simp] theorem State.setHold_seq (s : State) (w : Word) : (s.setHold w).seq = s.seq := rfl
@[simp] theorem State.setHold_sessionValid (s : State) (w : Word) : (s.setHold w).sessionValid = s.sessionValid := rfl
@[simp] theorem State.setHold_mapped (s : State) (w : Word) : (s.setHold w).mapped = s.mapped := rfl
@[simp] theorem State.setHold_cfgErr (s : State) (w : Word) : (s.setHold w).cfgErr = s.cfgErr := rfl
@[simp] theorem State.setHold_status (s : State) (w : Word) : (s.setHold w).status = s.status := rfl
@[simp] theorem State.setHold_clkPin (s : State) (w : Word) : (s.setHold w).clkPin = s.clkPin := rfl
@[simp] theorem State.setHold_datPin (s : State) (w : Word) : (s.setHold w).datPin = s.datPin := rfl
@[simp] theorem State.setHold_clkMask (s : State) (w : Word) : (s.setHold w).clkMask = s.clkMask := rfl
@[simp] theorem State.setHold_datMask (s : State) (w : Word) : (s.setHold w).datMask = s.datMask := rfl
@[simp] theorem State.setHold_buf (s : State) (w : Word) : (s.setHold w).buf = s.buf := rfl
@[simp] theorem State.setHold_hold (s : State) (w : Word) : (s.setHold w).hold = w := rfl
@[simp] theorem State.setHold_pending (s : State) (w : Word) : (s.setHold w).pending = s.pending := rfl
@[simp] theorem State.setHold_block (s : State) (w : Word) : (s.setHold w).block = s.block := rfl
@[simp] theorem State.setHold_level (s : State) (w : Word) : (s.setHold w).level = s.level := rfl
@[simp] theorem State.setHold_tr (s : State) (w : Word) : (s.setHold w).tr = s.tr := rfl
@[simp] theorem State.setHold_cmdIn (s : State) (w : Word) : (s.setHold w).cmdIn = s.cmdIn := rfl
@[simp] theorem State.setHold_answers (s : State) (w : Word) : (s.setHold w).answers = s.answers := rfl
@[simp] theorem State.setHold_asked (s : State) (w : Word) : (s.setHold w).asked = s.asked := rfl
@[simp] theorem State.setHold_env (s : State) (w : Word) : (s.setHold w).env = s.env := rfl
@[simp] theorem State.setHold_ticks (s : State) (w : Word) : (s.setHold w).ticks = s.ticks := rfl
@[simp] theorem State.setHold_clk (s : State) (w : Word) : (s.setHold w).clk = s.clk := rfl
@[simp] theorem State.setHold_dat (s : State) (w : Word) : (s.setHold w).dat = s.dat := rfl
@[simp] theorem State.setHold_owns (s : State) (w : Word) (p : Nat) : (s.setHold w).owns p = s.owns p := rfl

/-! ### setLc -/

@[simp] theorem State.setLc_cfg (s : State) (l : Lifecycle) : (s.setLc l).cfg = s.cfg := rfl
@[simp] theorem State.setLc_lc (s : State) (l : Lifecycle) : (s.setLc l).lc = l := rfl
@[simp] theorem State.setLc_busy (s : State) (l : Lifecycle) : (s.setLc l).busy = s.busy := rfl
@[simp] theorem State.setLc_seq (s : State) (l : Lifecycle) : (s.setLc l).seq = s.seq := rfl
@[simp] theorem State.setLc_sessionValid (s : State) (l : Lifecycle) : (s.setLc l).sessionValid = s.sessionValid := rfl
@[simp] theorem State.setLc_mapped (s : State) (l : Lifecycle) : (s.setLc l).mapped = s.mapped := rfl
@[simp] theorem State.setLc_cfgErr (s : State) (l : Lifecycle) : (s.setLc l).cfgErr = s.cfgErr := rfl
@[simp] theorem State.setLc_status (s : State) (l : Lifecycle) : (s.setLc l).status = s.status := rfl
@[simp] theorem State.setLc_clkPin (s : State) (l : Lifecycle) : (s.setLc l).clkPin = s.clkPin := rfl
@[simp] theorem State.setLc_datPin (s : State) (l : Lifecycle) : (s.setLc l).datPin = s.datPin := rfl
@[simp] theorem State.setLc_clkMask (s : State) (l : Lifecycle) : (s.setLc l).clkMask = s.clkMask := rfl
@[simp] theorem State.setLc_datMask (s : State) (l : Lifecycle) : (s.setLc l).datMask = s.datMask := rfl
@[simp] theorem State.setLc_buf (s : State) (l : Lifecycle) : (s.setLc l).buf = s.buf := rfl
@[simp] theorem State.setLc_hold (s : State) (l : Lifecycle) : (s.setLc l).hold = s.hold := rfl
@[simp] theorem State.setLc_pending (s : State) (l : Lifecycle) : (s.setLc l).pending = s.pending := rfl
@[simp] theorem State.setLc_block (s : State) (l : Lifecycle) : (s.setLc l).block = s.block := rfl
@[simp] theorem State.setLc_level (s : State) (l : Lifecycle) : (s.setLc l).level = s.level := rfl
@[simp] theorem State.setLc_tr (s : State) (l : Lifecycle) : (s.setLc l).tr = s.tr := rfl
@[simp] theorem State.setLc_cmdIn (s : State) (l : Lifecycle) : (s.setLc l).cmdIn = s.cmdIn := rfl
@[simp] theorem State.setLc_answers (s : State) (l : Lifecycle) : (s.setLc l).answers = s.answers := rfl
@[simp] theorem State.setLc_asked (s : State) (l : Lifecycle) : (s.setLc l).asked = s.asked := rfl
@[simp] theorem State.setLc_env (s : State) (l : Lifecycle) : (s.setLc l).env = s.env := rfl
@[simp] theorem State.setLc_ticks (s : State) (l : Lifecycle) : (s.setLc l).ticks = s.ticks := rfl
@[simp] theorem State.setLc_clk (s : State) (l : Lifecycle) : (s.setLc l).clk = s.clk := rfl
@[simp] theorem State.setLc_dat (s : State) (l : Lifecycle) : (s.setLc l).dat = s.dat := rfl

/-! ### setBuf -/

@[simp] theorem State.setBuf_cfg (s : State) (bytes : List Byte) : (s.setBuf bytes).cfg = s.cfg := rfl
@[simp] theorem State.setBuf_lc (s : State) (bytes : List Byte) : (s.setBuf bytes).lc = s.lc := rfl
@[simp] theorem State.setBuf_busy (s : State) (bytes : List Byte) : (s.setBuf bytes).busy = s.busy := rfl
@[simp] theorem State.setBuf_seq (s : State) (bytes : List Byte) : (s.setBuf bytes).seq = s.seq := rfl
@[simp] theorem State.setBuf_sessionValid (s : State) (bytes : List Byte) : (s.setBuf bytes).sessionValid = s.sessionValid := rfl
@[simp] theorem State.setBuf_mapped (s : State) (bytes : List Byte) : (s.setBuf bytes).mapped = s.mapped := rfl
@[simp] theorem State.setBuf_cfgErr (s : State) (bytes : List Byte) : (s.setBuf bytes).cfgErr = s.cfgErr := rfl
@[simp] theorem State.setBuf_status (s : State) (bytes : List Byte) : (s.setBuf bytes).status = s.status := rfl
@[simp] theorem State.setBuf_clkPin (s : State) (bytes : List Byte) : (s.setBuf bytes).clkPin = s.clkPin := rfl
@[simp] theorem State.setBuf_datPin (s : State) (bytes : List Byte) : (s.setBuf bytes).datPin = s.datPin := rfl
@[simp] theorem State.setBuf_clkMask (s : State) (bytes : List Byte) : (s.setBuf bytes).clkMask = s.clkMask := rfl
@[simp] theorem State.setBuf_datMask (s : State) (bytes : List Byte) : (s.setBuf bytes).datMask = s.datMask := rfl
@[simp] theorem State.setBuf_buf (s : State) (bytes : List Byte) : (s.setBuf bytes).buf = bytes := rfl
@[simp] theorem State.setBuf_hold (s : State) (bytes : List Byte) : (s.setBuf bytes).hold = s.hold := rfl
@[simp] theorem State.setBuf_pending (s : State) (bytes : List Byte) : (s.setBuf bytes).pending = s.pending := rfl
@[simp] theorem State.setBuf_block (s : State) (bytes : List Byte) : (s.setBuf bytes).block = s.block := rfl
@[simp] theorem State.setBuf_level (s : State) (bytes : List Byte) : (s.setBuf bytes).level = s.level := rfl
@[simp] theorem State.setBuf_tr (s : State) (bytes : List Byte) : (s.setBuf bytes).tr = s.tr := rfl
@[simp] theorem State.setBuf_cmdIn (s : State) (bytes : List Byte) : (s.setBuf bytes).cmdIn = s.cmdIn := rfl
@[simp] theorem State.setBuf_answers (s : State) (bytes : List Byte) : (s.setBuf bytes).answers = s.answers := rfl
@[simp] theorem State.setBuf_asked (s : State) (bytes : List Byte) : (s.setBuf bytes).asked = s.asked := rfl
@[simp] theorem State.setBuf_env (s : State) (bytes : List Byte) : (s.setBuf bytes).env = s.env := rfl
@[simp] theorem State.setBuf_ticks (s : State) (bytes : List Byte) : (s.setBuf bytes).ticks = s.ticks := rfl
@[simp] theorem State.setBuf_clk (s : State) (bytes : List Byte) : (s.setBuf bytes).clk = s.clk := rfl
@[simp] theorem State.setBuf_dat (s : State) (bytes : List Byte) : (s.setBuf bytes).dat = s.dat := rfl
@[simp] theorem State.setBuf_owns (s : State) (bytes : List Byte) (p : Nat) : (s.setBuf bytes).owns p = s.owns p := rfl

/-! ### setPending -/

@[simp] theorem State.setPending_cfg (s : State) (e : Option ErrorKind) : (s.setPending e).cfg = s.cfg := rfl
@[simp] theorem State.setPending_lc (s : State) (e : Option ErrorKind) : (s.setPending e).lc = s.lc := rfl
@[simp] theorem State.setPending_busy (s : State) (e : Option ErrorKind) : (s.setPending e).busy = s.busy := rfl
@[simp] theorem State.setPending_seq (s : State) (e : Option ErrorKind) : (s.setPending e).seq = s.seq := rfl
@[simp] theorem State.setPending_sessionValid (s : State) (e : Option ErrorKind) : (s.setPending e).sessionValid = s.sessionValid := rfl
@[simp] theorem State.setPending_mapped (s : State) (e : Option ErrorKind) : (s.setPending e).mapped = s.mapped := rfl
@[simp] theorem State.setPending_cfgErr (s : State) (e : Option ErrorKind) : (s.setPending e).cfgErr = s.cfgErr := rfl
@[simp] theorem State.setPending_status (s : State) (e : Option ErrorKind) : (s.setPending e).status = s.status := rfl
@[simp] theorem State.setPending_clkPin (s : State) (e : Option ErrorKind) : (s.setPending e).clkPin = s.clkPin := rfl
@[simp] theorem State.setPending_datPin (s : State) (e : Option ErrorKind) : (s.setPending e).datPin = s.datPin := rfl
@[simp] theorem State.setPending_clkMask (s : State) (e : Option ErrorKind) : (s.setPending e).clkMask = s.clkMask := rfl
@[simp] theorem State.setPending_datMask (s : State) (e : Option ErrorKind) : (s.setPending e).datMask = s.datMask := rfl
@[simp] theorem State.setPending_buf (s : State) (e : Option ErrorKind) : (s.setPending e).buf = s.buf := rfl
@[simp] theorem State.setPending_hold (s : State) (e : Option ErrorKind) : (s.setPending e).hold = s.hold := rfl
@[simp] theorem State.setPending_pending (s : State) (e : Option ErrorKind) : (s.setPending e).pending = e := rfl
@[simp] theorem State.setPending_block (s : State) (e : Option ErrorKind) : (s.setPending e).block = s.block := rfl
@[simp] theorem State.setPending_level (s : State) (e : Option ErrorKind) : (s.setPending e).level = s.level := rfl
@[simp] theorem State.setPending_tr (s : State) (e : Option ErrorKind) : (s.setPending e).tr = s.tr := rfl
@[simp] theorem State.setPending_cmdIn (s : State) (e : Option ErrorKind) : (s.setPending e).cmdIn = s.cmdIn := rfl
@[simp] theorem State.setPending_answers (s : State) (e : Option ErrorKind) : (s.setPending e).answers = s.answers := rfl
@[simp] theorem State.setPending_asked (s : State) (e : Option ErrorKind) : (s.setPending e).asked = s.asked := rfl
@[simp] theorem State.setPending_env (s : State) (e : Option ErrorKind) : (s.setPending e).env = s.env := rfl
@[simp] theorem State.setPending_ticks (s : State) (e : Option ErrorKind) : (s.setPending e).ticks = s.ticks := rfl
@[simp] theorem State.setPending_clk (s : State) (e : Option ErrorKind) : (s.setPending e).clk = s.clk := rfl
@[simp] theorem State.setPending_dat (s : State) (e : Option ErrorKind) : (s.setPending e).dat = s.dat := rfl
@[simp] theorem State.setPending_owns (s : State) (e : Option ErrorKind) (p : Nat) : (s.setPending e).owns p = s.owns p := rfl

/-! ### setSeq -/

@[simp] theorem State.setSeq_cfg (s : State) (q : Seq) : (s.setSeq q).cfg = s.cfg := rfl
@[simp] theorem State.setSeq_lc (s : State) (q : Seq) : (s.setSeq q).lc = s.lc := rfl
@[simp] theorem State.setSeq_busy (s : State) (q : Seq) : (s.setSeq q).busy = s.busy := rfl
@[simp] theorem State.setSeq_seq (s : State) (q : Seq) : (s.setSeq q).seq = q := rfl
@[simp] theorem State.setSeq_sessionValid (s : State) (q : Seq) : (s.setSeq q).sessionValid = s.sessionValid := rfl
@[simp] theorem State.setSeq_mapped (s : State) (q : Seq) : (s.setSeq q).mapped = s.mapped := rfl
@[simp] theorem State.setSeq_cfgErr (s : State) (q : Seq) : (s.setSeq q).cfgErr = s.cfgErr := rfl
@[simp] theorem State.setSeq_status (s : State) (q : Seq) : (s.setSeq q).status = s.status := rfl
@[simp] theorem State.setSeq_clkPin (s : State) (q : Seq) : (s.setSeq q).clkPin = s.clkPin := rfl
@[simp] theorem State.setSeq_datPin (s : State) (q : Seq) : (s.setSeq q).datPin = s.datPin := rfl
@[simp] theorem State.setSeq_clkMask (s : State) (q : Seq) : (s.setSeq q).clkMask = s.clkMask := rfl
@[simp] theorem State.setSeq_datMask (s : State) (q : Seq) : (s.setSeq q).datMask = s.datMask := rfl
@[simp] theorem State.setSeq_buf (s : State) (q : Seq) : (s.setSeq q).buf = s.buf := rfl
@[simp] theorem State.setSeq_hold (s : State) (q : Seq) : (s.setSeq q).hold = s.hold := rfl
@[simp] theorem State.setSeq_pending (s : State) (q : Seq) : (s.setSeq q).pending = s.pending := rfl
@[simp] theorem State.setSeq_block (s : State) (q : Seq) : (s.setSeq q).block = s.block := rfl
@[simp] theorem State.setSeq_level (s : State) (q : Seq) : (s.setSeq q).level = s.level := rfl
@[simp] theorem State.setSeq_tr (s : State) (q : Seq) : (s.setSeq q).tr = s.tr := rfl
@[simp] theorem State.setSeq_cmdIn (s : State) (q : Seq) : (s.setSeq q).cmdIn = s.cmdIn := rfl
@[simp] theorem State.setSeq_answers (s : State) (q : Seq) : (s.setSeq q).answers = s.answers := rfl
@[simp] theorem State.setSeq_asked (s : State) (q : Seq) : (s.setSeq q).asked = s.asked := rfl
@[simp] theorem State.setSeq_env (s : State) (q : Seq) : (s.setSeq q).env = s.env := rfl
@[simp] theorem State.setSeq_ticks (s : State) (q : Seq) : (s.setSeq q).ticks = s.ticks := rfl
@[simp] theorem State.setSeq_clk (s : State) (q : Seq) : (s.setSeq q).clk = s.clk := rfl
@[simp] theorem State.setSeq_dat (s : State) (q : Seq) : (s.setSeq q).dat = s.dat := rfl
@[simp] theorem State.setSeq_owns (s : State) (q : Seq) (p : Nat) : (s.setSeq q).owns p = s.owns p := rfl
/-! ### The pins as line numbers, and who owns a line -/

@[simp] theorem State.envTick_clk (s : State) : s.envTick.clk = s.clk := rfl
@[simp] theorem State.envTick_dat (s : State) : s.envTick.dat = s.dat := rfl
@[simp] theorem State.envTick_owns (s : State) (q : Nat) : s.envTick.owns q = s.owns q := rfl
@[simp] theorem State.emit_clk (s : State) (e : Event) : (s.emit e).clk = s.clk := rfl
@[simp] theorem State.emit_dat (s : State) (e : Event) : (s.emit e).dat = s.dat := rfl
@[simp] theorem State.emit_owns (s : State) (e : Event) (q : Nat) : (s.emit e).owns q = s.owns q := rfl
@[simp] theorem State.answered_clk (s : State) : s.answered.clk = s.clk := rfl
@[simp] theorem State.answered_dat (s : State) : s.answered.dat = s.dat := rfl
@[simp] theorem State.answered_owns (s : State) (q : Nat) : s.answered.owns q = s.owns q := rfl
@[simp] theorem State.openReq_clk (s : State) : s.openReq.2.clk = s.clk := rfl
@[simp] theorem State.openReq_dat (s : State) : s.openReq.2.dat = s.dat := rfl
@[simp] theorem State.openReq_owns (s : State) (q : Nat) : s.openReq.2.owns q = s.owns q := rfl
@[simp] theorem State.mapReq_clk (s : State) : s.mapReq.2.clk = s.clk := rfl
@[simp] theorem State.mapReq_dat (s : State) : s.mapReq.2.dat = s.dat := rfl
@[simp] theorem State.mapReq_owns (s : State) (q : Nat) : s.mapReq.2.owns q = s.owns q := rfl
@[simp] theorem State.unmapReq_clk (s : State) : s.unmapReq.2.clk = s.clk := rfl
@[simp] theorem State.unmapReq_dat (s : State) : s.unmapReq.2.dat = s.dat := rfl
@[simp] theorem State.unmapReq_owns (s : State) (q : Nat) : s.unmapReq.2.owns q = s.owns q := rfl
@[simp] theorem State.closeReq_clk (s : State) : s.closeReq.2.clk = s.clk := rfl
@[simp] theorem State.closeReq_dat (s : State) : s.closeReq.2.dat = s.dat := rfl
@[simp] theorem State.closeReq_owns (s : State) (q : Nat) : s.closeReq.2.owns q = s.owns q := rfl
@[simp] theorem State.rd32_clk (s : State) (off : Nat) : (s.rd32 off).2.clk = s.clk := rfl
@[simp] theorem State.rd32_dat (s : State) (off : Nat) : (s.rd32 off).2.dat = s.dat := rfl
@[simp] theorem State.rd32_owns (s : State) (off : Nat) (q : Nat) : (s.rd32 off).2.owns q = s.owns q := rfl
@[simp] theorem State.wr32_clk (s : State) (off : Nat) (v : Word) : (s.wr32 off v).clk = s.clk := rfl
@[simp] theorem State.wr32_dat (s : State) (off : Nat) (v : Word) : (s.wr32 off v).dat = s.dat := rfl
@[simp] theorem State.wr32_owns (s : State) (off : Nat) (v : Word) (q : Nat) : (s.wr32 off v).owns q = s.owns q := rfl
@[simp] theorem State.delay_clk (s : State) (k : DelayKind) : (s.delay k).clk = s.clk := rfl
@[simp] theorem State.delay_dat (s : State) (k : DelayKind) : (s.delay k).dat = s.dat := rfl
@[simp] theorem State.delay_owns (s : State) (k : DelayKind) (q : Nat) : (s.delay k).owns q = s.owns q := rfl
@[simp] theorem State.accept_clk (s : State) : s.accept.clk = s.clk := rfl
@[simp] theorem State.accept_dat (s : State) : s.accept.dat = s.dat := rfl
@[simp] theorem State.accept_owns (s : State) (q : Nat) : s.accept.owns q = s.owns q := rfl
@[simp] theorem State.goto_clk (s : State) (p : Phase) : (s.goto p).clk = s.clk := rfl
@[simp] theorem State.goto_dat (s : State) (p : Phase) : (s.goto p).dat = s.dat := rfl
@[simp] theorem State.goto_owns (s : State) (p : Phase) (q : Nat) : (s.goto p).owns q = s.owns q := rfl
@[simp] theorem State.sameBit_clk (s : State) (p : Phase) : (s.sameBit p).clk = s.clk := rfl
@[simp] theorem State.sameBit_dat (s : State) (p : Phase) : (s.sameBit p).dat = s.dat := rfl
@[simp] theorem State.sameBit_owns (s : State) (p : Phase) (q : Nat) : (s.sameBit p).owns q = s.owns q := rfl
@[simp] theorem State.finish_clk (s : State) (st : Status) : (s.finish st).clk = s.clk := rfl
@[simp] theorem State.finish_dat (s : State) (st : Status) : (s.finish st).dat = s.dat := rfl
@[simp] theorem State.finish_owns (s : State) (st : Status) (q : Nat) : (s.finish st).owns q = s.owns q := rfl
@[simp] theorem State.raiseError_clk (s : State) (k : ErrorKind) : (s.raiseError k).clk = s.clk := rfl
@[simp] theorem State.raiseError_dat (s : State) (k : ErrorKind) : (s.raiseError k).dat = s.dat := rfl
@[simp] theorem State.raiseError_owns (s : State) (k : ErrorKind) (q : Nat) : (s.raiseError k).owns q = s.owns q := rfl
@[simp] theorem State.taken_clk (s : State) (rest : List Byte) : (s.taken rest).clk = s.clk := rfl
@[simp] theorem State.taken_dat (s : State) (rest : List Byte) : (s.taken rest).dat = s.dat := rfl
@[simp] theorem State.taken_owns (s : State) (rest : List Byte) (q : Nat) : (s.taken rest).owns q = s.owns q := rfl

/-! ### Answers and values of the micro-operations -/

@[simp] theorem State.openReq_answer (s : State) : s.openReq.1 = s.nextAnswer := rfl
@[simp] theorem State.mapReq_answer (s : State) : s.mapReq.1 = s.nextAnswer := rfl
@[simp] theorem State.unmapReq_answer (s : State) : s.unmapReq.1 = s.nextAnswer := rfl
@[simp] theorem State.closeReq_answer (s : State) : s.closeReq.1 = s.nextAnswer := rfl

/-- A request is its answer and the state after it. -/
theorem State.openReq_eq (s : State) : s.openReq = (s.nextAnswer, s.openReq.2) := rfl
theorem State.mapReq_eq (s : State) : s.mapReq = (s.nextAnswer, s.mapReq.2) := rfl

end Sys2Proof.Machine
end

