-- ==== Sys2Proof/Laws/Environment.lean ====
section
/-!
SUPPORT. What the environment's slot can do (20_memory.md R68): it keeps the canonical form and the number of latches,
and never changes the field or the latch of an owned line. A quiet slot changes nothing.
-/

namespace Sys2Proof.Machine

theorem moveBlock_wf (c : Cfg) (free : Nat → Bool) (m : List Host.Cell) (mv : EnvMove) (h : MemoryWf m) :
    MemoryWf (moveBlock c free m mv) := by
  unfold moveBlock
  split
  · split
    · exact writeWord_wf _ _ _ h
    · exact h
  · exact h

theorem foldl_moveBlock_wf (c : Cfg) (free : Nat → Bool) (mvs : List EnvMove) (m : List Host.Cell) (h : MemoryWf m) :
    MemoryWf (mvs.foldl (moveBlock c free) m) := by
  induction mvs generalizing m with
  | nil => exact h
  | cons mv rest ih => exact ih _ (moveBlock_wf c free m mv h)

@[simp] theorem length_moveLevel (free : Nat → Bool) (lvl : List Bool) (mv : EnvMove) :
    (moveLevel free lvl mv).length = lvl.length := by
  unfold moveLevel
  split
  · rfl
  · split <;> simp

@[simp] theorem length_foldl_moveLevel (free : Nat → Bool) (mvs : List EnvMove) (lvl : List Bool) :
    (mvs.foldl (moveLevel free) lvl).length = lvl.length := by
  induction mvs generalizing lvl with
  | nil => rfl
  | cons mv rest ih => simp [ih]

/-- A move leaves the latch of a line that is not free. -/
theorem moveLevel_getD (free : Nat → Bool) (lvl : List Bool) (mv : EnvMove) (p : Nat) (hp : free p = false) :
    (moveLevel free lvl mv).getD p false = lvl.getD p false := by
  unfold moveLevel
  split
  · rfl
  · split
    · rename_i q high hq
      have hne : q ≠ p := by
        rintro rfl
        simp [hp] at hq
      simp [List.getD, hne]
    · rfl

theorem foldl_moveLevel_getD (free : Nat → Bool) (mvs : List EnvMove) (lvl : List Bool) (p : Nat)
    (hp : free p = false) : (mvs.foldl (moveLevel free) lvl).getD p false = lvl.getD p false := by
  induction mvs generalizing lvl with
  | nil => rfl
  | cons mv rest ih => rw [List.foldl_cons, ih, moveLevel_getD _ _ _ _ hp]

/-- Writing a word whose other fields are the old ones leaves the field of every other pin. -/
theorem blockField_writeField_other (c : Cfg) (h : c.WellFormed) (m : List Host.Cell) (hm : MemoryWf m) (p q : Nat)
    (code : BitVec 3) (hne : q ≠ p) :
    blockField c (writeWord m (fseloff c p) (insertField (readWord m (fseloff c p)) (fselsh c p) code)) q =
      blockField c m q := by
  unfold blockField
  by_cases hw : fselw c p = fselw c q
  · have ho : fseloff c q = fseloff c p := by simp only [fseloff, hw]
    rw [ho, readWord_writeWord_same _ _ _ hm,
      fieldAt_insertField_other _ _ _ _ (fselsh_le c h q) (fselsh_apart c q p hw.symm hne)]
  · have ho := ctrlWordOff_apart c (fselw c q) (fselw c p) (fun e => hw e.symm)
    exact congrArg (fieldAt · _) (readWord_writeWord_other m (fseloff c p) (fseloff c q) _ ho)

theorem moveBlock_field (c : Cfg) (h : c.WellFormed) (free : Nat → Bool) (m : List Host.Cell) (mv : EnvMove)
    (hm : MemoryWf m) (p : Nat) (hp : free p = false) : blockField c (moveBlock c free m mv) p = blockField c m p := by
  unfold moveBlock
  split
  · split
    · rename_i q code hq
      refine blockField_writeField_other c h m hm q p code ?_
      rintro rfl
      simp [hp] at hq
    · rfl
  · rfl

theorem foldl_moveBlock_field (c : Cfg) (h : c.WellFormed) (free : Nat → Bool) (mvs : List EnvMove)
    (m : List Host.Cell) (hm : MemoryWf m) (p : Nat) (hp : free p = false) :
    blockField c (mvs.foldl (moveBlock c free) m) p = blockField c m p := by
  induction mvs generalizing m with
  | nil => rfl
  | cons mv rest ih =>
    rw [List.foldl_cons, ih _ (moveBlock_wf c free m mv hm), moveBlock_field c h free m mv hm p hp]

theorem State.foreign_of_owns (s : State) (p : Nat) (h : s.owns p = true) : s.foreign p = false := by
  simp [State.foreign, h]

/-- The slot keeps the canonical form. -/
theorem State.envTick_wf (s : State) (h : MemoryWf s.block) : MemoryWf s.envTick.block :=
  foldl_moveBlock_wf _ _ _ _ h

/-- The slot keeps the number of latches. -/
@[simp] theorem State.envTick_level_length (s : State) : s.envTick.level.length = s.level.length :=
  length_foldl_moveLevel _ _ _

/-- The slot never changes the field of an owned line (20_memory.md R68). -/
theorem State.envTick_fieldOf (s : State) (h : MemoryWf s.block) (p : Nat) (hp : s.owns p = true) :
    s.envTick.fieldOf p = s.fieldOf p :=
  foldl_moveBlock_field s.cfg.val s.cfg.property _ _ _ h p (s.foreign_of_owns p hp)

/-- The slot never changes the latch of an owned line (20_memory.md R68). -/
theorem State.envTick_levelOf (s : State) (p : Nat) (hp : s.owns p = true) : s.envTick.levelOf p = s.levelOf p :=
  foldl_moveLevel_getD _ _ _ p (s.foreign_of_owns p hp)

/-- A slot in which the environment does nothing leaves the control words. -/
theorem State.envTick_block_quiet (s : State) (h : s.movesAt 0 = []) : s.envTick.block = s.block := by
  simp [State.envTick, h]

/-- A slot in which the environment does nothing leaves the latches. -/
theorem State.envTick_level_quiet (s : State) (h : s.movesAt 0 = []) : s.envTick.level = s.level := by
  simp [State.envTick, h]

/-- The next slot of the state after a slot is the slot after the next. -/
theorem State.movesAt_of_ticked (s t : State) (k : Nat) (he : t.env = s.env.tail) (ht : t.ticks = s.ticks + 1) :
    t.movesAt k = s.movesAt (k + 1) := by
  unfold State.movesAt
  rw [he, ht, List.getElem?_tail, Nat.add_assoc, Nat.add_comm 1 k]

end Sys2Proof.Machine
end

