-- ==== Sys2Proof/Laws/Lines.lean ====
section
/-!
SUPPORT. The two lines of the engine: what every micro-operation does to the function-select field and to the latch of
an owned line, and the pins a good configuration check gives.
-/

namespace Sys2Proof.Machine

/-! ### The pins of a live instance -/

/-- The configuration check passes exactly for two valid, distinct pins (10_state.md R27). -/
theorem configError_eq_false (c : Cfg) (clk dat : Int) :
    configError c clk dat = false ↔ clk ≠ dat ∧ PinValid c clk ∧ PinValid c dat := by
  simp [configError, and_assoc]

/-- What a passed check says of the pins as line numbers. -/
structure State.GoodPins (s : State) : Prop where
  clkLt : s.clk < s.cfg.val.pinCount
  datLt : s.dat < s.cfg.val.pinCount
  apart : s.clk ≠ s.dat
  clkOwned : s.owns s.clk = true
  datOwned : s.owns s.dat = true

/-- A live instance whose check passed has good pins. -/
theorem State.Inv.goodPins {s : State} (h : s.Inv) (hl : s.lc = .constructed ∨ s.lc = .ready) (he : s.cfgErr = false) :
    s.GoodPins := by
  have hne : s.lc ≠ .absent := by rcases hl with hl | hl <;> simp [hl]
  have hc := (configError_eq_false _ _ _).1 ((h.cfgErrLatched hne).symm.trans he)
  obtain ⟨hd, ⟨hk0, hk1⟩, hd0, hd1⟩ := hc
  refine ⟨?_, ?_, ?_, ?_, ?_⟩
  · unfold State.clk; omega
  · unfold State.dat; omega
  · unfold State.clk State.dat; omega
  · simp only [State.owns, State.clk, Int.toNat_of_nonneg hk0]; rcases hl with hl | hl <;> simp [hl]
  · simp only [State.owns, State.dat, Int.toNat_of_nonneg hd0]; rcases hl with hl | hl <;> simp [hl]

/-! ### Updates that touch no line -/

@[simp] theorem State.goto_fieldOf (s : State) (p : Phase) (q : Nat) : (s.goto p).fieldOf q = s.fieldOf q := rfl
@[simp] theorem State.goto_levelOf (s : State) (p : Phase) (q : Nat) : (s.goto p).levelOf q = s.levelOf q := rfl
@[simp] theorem State.sameBit_fieldOf (s : State) (p : Phase) (q : Nat) : (s.sameBit p).fieldOf q = s.fieldOf q := rfl
@[simp] theorem State.sameBit_levelOf (s : State) (p : Phase) (q : Nat) : (s.sameBit p).levelOf q = s.levelOf q := rfl
@[simp] theorem State.setSeq_fieldOf (s : State) (x : Seq) (q : Nat) : (s.setSeq x).fieldOf q = s.fieldOf q := rfl
@[simp] theorem State.setSeq_levelOf (s : State) (x : Seq) (q : Nat) : (s.setSeq x).levelOf q = s.levelOf q := rfl
@[simp] theorem State.accept_fieldOf (s : State) (q : Nat) : s.accept.fieldOf q = s.fieldOf q := rfl
@[simp] theorem State.accept_levelOf (s : State) (q : Nat) : s.accept.levelOf q = s.levelOf q := rfl
@[simp] theorem State.finish_fieldOf (s : State) (st : Status) (q : Nat) : (s.finish st).fieldOf q = s.fieldOf q := rfl
@[simp] theorem State.finish_levelOf (s : State) (st : Status) (q : Nat) : (s.finish st).levelOf q = s.levelOf q := rfl
@[simp] theorem State.raiseError_fieldOf (s : State) (k : ErrorKind) (q : Nat) : (s.raiseError k).fieldOf q = s.fieldOf q := rfl
@[simp] theorem State.raiseError_levelOf (s : State) (k : ErrorKind) (q : Nat) : (s.raiseError k).levelOf q = s.levelOf q := rfl
@[simp] theorem State.setSession_fieldOf (s : State) (b : Bool) (q : Nat) : (s.setSession b).fieldOf q = s.fieldOf q := rfl
@[simp] theorem State.setSession_levelOf (s : State) (b : Bool) (q : Nat) : (s.setSession b).levelOf q = s.levelOf q := rfl
@[simp] theorem State.setMapped_fieldOf (s : State) (b : Bool) (q : Nat) : (s.setMapped b).fieldOf q = s.fieldOf q := rfl
@[simp] theorem State.setMapped_levelOf (s : State) (b : Bool) (q : Nat) : (s.setMapped b).levelOf q = s.levelOf q := rfl
@[simp] theorem State.setMasks_fieldOf (s : State) (q : Nat) : s.setMasks.fieldOf q = s.fieldOf q := rfl
@[simp] theorem State.setMasks_levelOf (s : State) (q : Nat) : s.setMasks.levelOf q = s.levelOf q := rfl
@[simp] theorem State.setHold_fieldOf (s : State) (w : Word) (q : Nat) : (s.setHold w).fieldOf q = s.fieldOf q := rfl
@[simp] theorem State.setHold_levelOf (s : State) (w : Word) (q : Nat) : (s.setHold w).levelOf q = s.levelOf q := rfl
@[simp] theorem State.setLc_fieldOf (s : State) (l : Lifecycle) (q : Nat) : (s.setLc l).fieldOf q = s.fieldOf q := rfl
@[simp] theorem State.setLc_levelOf (s : State) (l : Lifecycle) (q : Nat) : (s.setLc l).levelOf q = s.levelOf q := rfl
@[simp] theorem State.setBuf_fieldOf (s : State) (bytes : List Byte) (q : Nat) : (s.setBuf bytes).fieldOf q = s.fieldOf q := rfl
@[simp] theorem State.setBuf_levelOf (s : State) (bytes : List Byte) (q : Nat) : (s.setBuf bytes).levelOf q = s.levelOf q := rfl
@[simp] theorem State.setPending_fieldOf (s : State) (e : Option ErrorKind) (q : Nat) : (s.setPending e).fieldOf q = s.fieldOf q := rfl
@[simp] theorem State.setPending_levelOf (s : State) (e : Option ErrorKind) (q : Nat) : (s.setPending e).levelOf q = s.levelOf q := rfl
@[simp] theorem State.emit_fieldOf (s : State) (e : Event) (q : Nat) : (s.emit e).fieldOf q = s.fieldOf q := rfl
@[simp] theorem State.emit_levelOf (s : State) (e : Event) (q : Nat) : (s.emit e).levelOf q = s.levelOf q := rfl
@[simp] theorem State.answered_fieldOf (s : State) (q : Nat) : s.answered.fieldOf q = s.fieldOf q := rfl
@[simp] theorem State.answered_levelOf (s : State) (q : Nat) : s.answered.levelOf q = s.levelOf q := rfl

/-! ### Micro-operations that touch no owned line -/

theorem State.openReq_fieldOf (s : State) (hm : MemoryWf s.block) (q : Nat) (hq : s.owns q = true) :
    s.openReq.2.fieldOf q = s.fieldOf q := s.envTick_fieldOf hm q hq
theorem State.openReq_levelOf (s : State) (q : Nat) (hq : s.owns q = true) :
    s.openReq.2.levelOf q = s.levelOf q := s.envTick_levelOf q hq
theorem State.mapReq_fieldOf (s : State) (hm : MemoryWf s.block) (q : Nat) (hq : s.owns q = true) :
    s.mapReq.2.fieldOf q = s.fieldOf q := s.envTick_fieldOf hm q hq
theorem State.mapReq_levelOf (s : State) (q : Nat) (hq : s.owns q = true) :
    s.mapReq.2.levelOf q = s.levelOf q := s.envTick_levelOf q hq
theorem State.unmapReq_fieldOf (s : State) (hm : MemoryWf s.block) (q : Nat) (hq : s.owns q = true) :
    s.unmapReq.2.fieldOf q = s.fieldOf q := s.envTick_fieldOf hm q hq
theorem State.unmapReq_levelOf (s : State) (q : Nat) (hq : s.owns q = true) :
    s.unmapReq.2.levelOf q = s.levelOf q := s.envTick_levelOf q hq
theorem State.closeReq_fieldOf (s : State) (hm : MemoryWf s.block) (q : Nat) (hq : s.owns q = true) :
    s.closeReq.2.fieldOf q = s.fieldOf q := s.envTick_fieldOf hm q hq
theorem State.closeReq_levelOf (s : State) (q : Nat) (hq : s.owns q = true) :
    s.closeReq.2.levelOf q = s.levelOf q := s.envTick_levelOf q hq
theorem State.rd32_fieldOf (s : State) (off : Nat) (hm : MemoryWf s.block) (q : Nat) (hq : s.owns q = true) :
    (s.rd32 off).2.fieldOf q = s.fieldOf q := s.envTick_fieldOf hm q hq
theorem State.rd32_levelOf (s : State) (off : Nat) (q : Nat) (hq : s.owns q = true) :
    (s.rd32 off).2.levelOf q = s.levelOf q := s.envTick_levelOf q hq
theorem State.delay_fieldOf (s : State) (k : DelayKind) (hm : MemoryWf s.block) (q : Nat) (hq : s.owns q = true) :
    (s.delay k).fieldOf q = s.fieldOf q := s.envTick_fieldOf hm q hq
theorem State.delay_levelOf (s : State) (k : DelayKind) (q : Nat) (hq : s.owns q = true) :
    (s.delay k).levelOf q = s.levelOf q := s.envTick_levelOf q hq

/-! ### Writes -/

/-- A write of a control word leaves every owned latch (20_memory.md R56). -/
theorem State.wr32_fseloff_levelOf (s : State) (p : Nat) (v : Word) (hp : p < s.cfg.val.pinCount) (q : Nat)
    (hq : s.owns q = true) : (s.wr32 (fseloff s.cfg.val p) v).levelOf q = s.levelOf q := by
  rw [State.levelOf, State.wr32_level, levelAfterWrite_fseloff _ s.cfg.property _ _ _ hp]
  exact s.envTick_levelOf q hq

/-- A write of pin `p`'s control word gives every pin of that word its field of the word written, and leaves the field
of every owned pin of another word (20_memory.md R56). -/
theorem State.wr32_fseloff_fieldOf (s : State) (hm : MemoryWf s.block) (p : Nat) (v : Word)
    (hp : p < s.cfg.val.pinCount) (q : Nat) (hq : s.owns q = true) :
    (s.wr32 (fseloff s.cfg.val p) v).fieldOf q =
      if fselw s.cfg.val q = fselw s.cfg.val p then fieldAt v (fselsh s.cfg.val q) else s.fieldOf q := by
  rw [State.fieldOf, State.wr32_block, State.wr32_cfg, blockAfterWrite_fseloff _ s.cfg.property _ _ _ hp, blockField]
  split
  · rename_i h
    rw [show fseloff s.cfg.val q = fseloff s.cfg.val p by simp only [fseloff, h],
      readWord_writeWord_same _ _ _ (s.envTick_wf hm)]
  · rename_i h
    rw [fseloff, fseloff, readWord_writeWord_other _ _ _ _ (ctrlWordOff_apart _ _ _ h)]
    exact s.envTick_fieldOf hm q hq

/-- A write of a pin's set word leaves every owned field (20_memory.md R57). -/
theorem State.wr32_setoff_fieldOf (s : State) (hm : MemoryWf s.block) (p : Nat) (v : Word)
    (hp : p < s.cfg.val.pinCount) (q : Nat) (hq : s.owns q = true) :
    (s.wr32 (setoff s.cfg.val p) v).fieldOf q = s.fieldOf q := by
  rw [State.fieldOf, State.wr32_block, State.wr32_cfg, blockAfterWrite_setoff _ s.cfg.property _ _ _ hp]
  exact s.envTick_fieldOf hm q hq

/-- A write of a pin's clear word leaves every owned field (20_memory.md R58). -/
theorem State.wr32_clroff_fieldOf (s : State) (hm : MemoryWf s.block) (p : Nat) (v : Word)
    (hp : p < s.cfg.val.pinCount) (q : Nat) (hq : s.owns q = true) :
    (s.wr32 (clroff s.cfg.val p) v).fieldOf q = s.fieldOf q := by
  rw [State.fieldOf, State.wr32_block, State.wr32_cfg, blockAfterWrite_clroff _ s.cfg.property _ _ _ hp]
  exact s.envTick_fieldOf hm q hq

/-- Writing a pin's mask to its set word raises its latch and leaves every other owned latch (20_memory.md R57). -/
theorem State.wr32_setoff_levelOf (s : State) (p : Nat) (hp : p < s.cfg.val.pinCount) (q : Nat)
    (hl : s.level.length = s.cfg.val.pinCount) (hlt : q < s.cfg.val.pinCount) (hq : s.owns q = true) :
    (s.wr32 (setoff s.cfg.val p) (maskOf p)).levelOf q = if q = p then true else s.levelOf q := by
  rw [State.levelOf, State.wr32_level, levelAfterWrite_setoff _ s.cfg.property _ _ _ hp,
    getD_driveLatches_maskOf _ _ _ _ (by simpa [hl] using hlt)]
  congr 1
  exact s.envTick_levelOf q hq

/-- Writing a pin's mask to its clear word lowers its latch and leaves every other owned latch (20_memory.md R58). -/
theorem State.wr32_clroff_levelOf (s : State) (p : Nat) (hp : p < s.cfg.val.pinCount) (q : Nat)
    (hl : s.level.length = s.cfg.val.pinCount) (hlt : q < s.cfg.val.pinCount) (hq : s.owns q = true) :
    (s.wr32 (clroff s.cfg.val p) (maskOf p)).levelOf q = if q = p then false else s.levelOf q := by
  rw [State.levelOf, State.wr32_level, levelAfterWrite_clroff _ s.cfg.property _ _ _ hp,
    getD_driveLatches_maskOf _ _ _ _ (by simpa [hl] using hlt)]
  congr 1
  exact s.envTick_levelOf q hq

/-! ### The block stays in form -/

/-- A write keeps the canonical form of the block. -/
theorem State.wr32_wf (s : State) (off : Nat) (v : Word) (hm : MemoryWf s.block) : MemoryWf (s.wr32 off v).block :=
  blockAfterWrite_wf _ _ _ _ (s.envTick_wf hm)

/-- A write keeps the number of latches. -/
theorem State.wr32_level_length (s : State) (off : Nat) (v : Word) : (s.wr32 off v).level.length = s.level.length := by
  simp

/-! ### The accesses are the engine's own (20_memory.md R60, R63) -/

theorem offsetOk_ctrl (c : Cfg) (h : c.WellFormed) (j : Nat) (hj : j < c.nf) : OffsetOk c (ctrlWordOff c j) := by
  obtain ⟨_, _, _, ha, _, _, _, _, hb, _⟩ := h
  unfold OffsetOk ctrlWordOff
  omega

theorem offsetOk_set (c : Cfg) (h : c.WellFormed) (w : Nat) (hw : w < c.nw) : OffsetOk c (c.setOff + 4 * w) := by
  obtain ⟨_, _, _, _, ha, _, _, _, _, hb, _⟩ := h
  unfold OffsetOk
  omega

theorem offsetOk_clr (c : Cfg) (h : c.WellFormed) (w : Nat) (hw : w < c.nw) : OffsetOk c (c.clrOff + 4 * w) := by
  obtain ⟨_, _, _, _, _, ha, _, _, _, _, hb, _⟩ := h
  unfold OffsetOk
  omega

/-- Reading a pin's control word is an access the engine may make. -/
theorem accessOk_rd32 (c : Cfg) (h : c.WellFormed) (p : Nat) (hp : p < c.pinCount) (v : Word) :
    AccessOk c (.rd32 (fseloff c p) v) :=
  ⟨⟨_, fselw_lt c h p hp, rfl⟩, offsetOk_ctrl c h _ (fselw_lt c h p hp)⟩

/-- Writing a pin's control word is an access the engine may make. -/
theorem accessOk_wr32_fsel (c : Cfg) (h : c.WellFormed) (p : Nat) (hp : p < c.pinCount) (v : Word) :
    AccessOk c (.wr32 (fseloff c p) v) :=
  ⟨.inl ⟨_, fselw_lt c h p hp, rfl⟩, offsetOk_ctrl c h _ (fselw_lt c h p hp)⟩

/-- Writing a pin's set word is an access the engine may make. -/
theorem accessOk_wr32_set (c : Cfg) (h : c.WellFormed) (p : Nat) (hp : p < c.pinCount) (v : Word) :
    AccessOk c (.wr32 (setoff c p) v) :=
  ⟨.inr (.inl ⟨_, lvlw_lt c p hp, rfl⟩), offsetOk_set c h _ (lvlw_lt c p hp)⟩

/-- Writing a pin's clear word is an access the engine may make. -/
theorem accessOk_wr32_clr (c : Cfg) (h : c.WellFormed) (p : Nat) (hp : p < c.pinCount) (v : Word) :
    AccessOk c (.wr32 (clroff c p) v) :=
  ⟨.inr (.inr ⟨_, lvlw_lt c p hp, rfl⟩), offsetOk_clr c h _ (lvlw_lt c p hp)⟩

end Sys2Proof.Machine
end

