-- ==== Sys2Proof/Laws/PerInstr.lean ====
section
/-!
SUPPORT. The statements made of every instruction as syntax. Family Row: the encoded word carries the fixed bits of its
row of the opcode table, and its first word alone tells how many payload bytes follow (30_encoding.md R80).
-/

namespace Sys2Proof.Laws.Row

open Sys2Proof

/-- The word of a command carries its row's fixed bits and announces its payload. -/
def Statement (i : Instr) : Prop :=
  i.WellFormed → i.row.hits (encodeWord i) = true ∧ payloadLength (encodeWord i) = (encodePayload i).length

theorem construct (clk dat : Int) : Statement (.construct clk dat) := by
  intro _
  have h : rowConstruct.hits (encodeWord (.construct clk dat)) = true :=
    (hits_construct _).2 (encodeWord_construct_top clk dat)
  have hs : ¬ rowSend.hits (encodeWord (.construct clk dat)) = true := by
    rw [hits_send, ((hits_construct_fields _).1 h).1]
    decide
  exact ⟨h, by simp [payloadLength, hs, encodePayload]⟩

theorem initialise : Statement .initialise := fun _ => by decide

theorem send (bytes : List Byte) : Statement (.send bytes) := by
  intro hw
  have h : rowSend.hits (encodeWord (.send bytes)) = true := (hits_send _).2 (encodeWord_send_op bytes)
  refine ⟨h, ?_⟩
  rw [payloadLength, if_pos h, wordLen, encodeWord_send_len, BitVec.toNat_ofNat]
  exact Nat.mod_eq_of_lt hw

theorem teardown : Statement .teardown := fun _ => by decide

end Sys2Proof.Laws.Row
end

