-- ==== Sys2Proof/Laws/Sequencer.lean ====
section
/-!
SUPPORT. The sequencer, phase by phase. `State.control` puts BUSY, SEQ and the pending error into a state; no
micro-operation reads or writes those three, so each phase is one equation between a controlled state and the next.
-/

namespace Sys2Proof.Machine

/-- A state with the three registers of the sequencer set. -/
def State.control (s : State) (b : Bool) (q : Seq) (e : Option ErrorKind) : State :=
  { s with busy := b, seq := q, pending := e }

/-! ### Fields of a controlled state -/

@[simp] theorem State.control_cfg (s : State) (b : Bool) (q : Seq) (e : Option ErrorKind) : (s.control b q e).cfg = s.cfg := rfl
@[simp] theorem State.control_lc (s : State) (b : Bool) (q : Seq) (e : Option ErrorKind) : (s.control b q e).lc = s.lc := rfl
@[simp] theorem State.control_busy (s : State) (b : Bool) (q : Seq) (e : Option ErrorKind) : (s.control b q e).busy = b := rfl
@[simp] theorem State.control_seq (s : State) (b : Bool) (q : Seq) (e : Option ErrorKind) : (s.control b q e).seq = q := rfl
@[simp] theorem State.control_sessionValid (s : State) (b : Bool) (q : Seq) (e : Option ErrorKind) : (s.control b q e).sessionValid = s.sessionValid := rfl
@[simp] theorem State.control_mapped (s : State) (b : Bool) (q : Seq) (e : Option ErrorKind) : (s.control b q e).mapped = s.mapped := rfl
@[simp] theorem State.control_cfgErr (s : State) (b : Bool) (q : Seq) (e : Option ErrorKind) : (s.control b q e).cfgErr = s.cfgErr := rfl
@[simp] theorem State.control_status (s : State) (b : Bool) (q : Seq) (e : Option ErrorKind) : (s.control b q e).status = s.status := rfl
@[simp] theorem State.control_clkPin (s : State) (b : Bool) (q : Seq) (e : Option ErrorKind) : (s.control b q e).clkPin = s.clkPin := rfl
@[simp] theorem State.control_datPin (s : State) (b : Bool) (q : Seq) (e : Option ErrorKind) : (s.control b q e).datPin = s.datPin := rfl
@[simp] theorem State.control_clkMask (s : State) (b : Bool) (q : Seq) (e : Option ErrorKind) : (s.control b q e).clkMask = s.clkMask := rfl
@[simp] theorem State.control_datMask (s : State) (b : Bool) (q : Seq) (e : Option ErrorKind) : (s.control b q e).datMask = s.datMask := rfl
@[simp] theorem State.control_buf (s : State) (b : Bool) (q : Seq) (e : Option ErrorKind) : (s.control b q e).buf = s.buf := rfl
@[simp] theorem State.control_hold (s : State) (b : Bool) (q : Seq) (e : Option ErrorKind) : (s.control b q e).hold = s.hold := rfl
@[simp] theorem State.control_pending (s : State) (b : Bool) (q : Seq) (e : Option ErrorKind) : (s.control b q e).pending = e := rfl
@[simp] theorem State.control_block (s : State) (b : Bool) (q : Seq) (e : Option ErrorKind) : (s.control b q e).block = s.block := rfl
@[simp] theorem State.control_level (s : State) (b : Bool) (q : Seq) (e : Option ErrorKind) : (s.control b q e).level = s.level := rfl
@[simp] theorem State.control_tr (s : State) (b : Bool) (q : Seq) (e : Option ErrorKind) : (s.control b q e).tr = s.tr := rfl
@[simp] theorem State.control_cmdIn (s : State) (b : Bool) (q : Seq) (e : Option ErrorKind) : (s.control b q e).cmdIn = s.cmdIn := rfl
@[simp] theorem State.control_answers (s : State) (b : Bool) (q : Seq) (e : Option ErrorKind) : (s.control b q e).answers = s.answers := rfl
@[simp] theorem State.control_asked (s : State) (b : Bool) (q : Seq) (e : Option ErrorKind) : (s.control b q e).asked = s.asked := rfl
@[simp] theorem State.control_env (s : State) (b : Bool) (q : Seq) (e : Option ErrorKind) : (s.control b q e).env = s.env := rfl
@[simp] theorem State.control_ticks (s : State) (b : Bool) (q : Seq) (e : Option ErrorKind) : (s.control b q e).ticks = s.ticks := rfl
@[simp] theorem State.control_clk (s : State) (b : Bool) (q : Seq) (e : Option ErrorKind) : (s.control b q e).clk = s.clk := rfl
@[simp] theorem State.control_dat (s : State) (b : Bool) (q : Seq) (e : Option ErrorKind) : (s.control b q e).dat = s.dat := rfl
@[simp] theorem State.control_nextAnswer (s : State) (b : Bool) (q : Seq) (e : Option ErrorKind) :
    (s.control b q e).nextAnswer = s.nextAnswer := rfl

/-- Setting the three registers again forgets what they were. -/
@[simp] theorem State.control_control (s : State) (b b' : Bool) (q q' : Seq) (e e' : Option ErrorKind) :
    (s.control b q e).control b' q' e' = s.control b' q' e' := rfl

theorem State.control_self (s : State) : s.control s.busy s.seq s.pending = s := rfl

/-! ### Micro-operations do not see the three registers -/

theorem State.control_openReq (s : State) (b : Bool) (q : Seq) (e : Option ErrorKind) :
    (s.control b q e).openReq = (s.nextAnswer, s.openReq.2.control b q e) := rfl

theorem State.control_mapReq (s : State) (b : Bool) (q : Seq) (e : Option ErrorKind) :
    (s.control b q e).mapReq = (s.nextAnswer, s.mapReq.2.control b q e) := rfl

theorem State.control_unmapReq (s : State) (b : Bool) (q : Seq) (e : Option ErrorKind) :
    (s.control b q e).unmapReq = (s.nextAnswer, s.unmapReq.2.control b q e) := rfl

theorem State.control_closeReq (s : State) (b : Bool) (q : Seq) (e : Option ErrorKind) :
    (s.control b q e).closeReq = (s.nextAnswer, s.closeReq.2.control b q e) := rfl

theorem State.control_rd32 (s : State) (b : Bool) (q : Seq) (e : Option ErrorKind) (off : Nat) :
    (s.control b q e).rd32 off = ((s.rd32 off).1, (s.rd32 off).2.control b q e) := rfl

theorem State.control_wr32 (s : State) (b : Bool) (q : Seq) (e : Option ErrorKind) (off : Nat) (v : Word) :
    (s.control b q e).wr32 off v = (s.wr32 off v).control b q e := rfl

theorem State.control_delay (s : State) (b : Bool) (q : Seq) (e : Option ErrorKind) (k : DelayKind) :
    (s.control b q e).delay k = (s.delay k).control b q e := rfl

@[simp] theorem State.control_finish (s : State) (b : Bool) (q : Seq) (e : Option ErrorKind) (st : Status) :
    (s.control b q e).finish st = s.finish st := rfl

@[simp] theorem State.control_raiseError (s : State) (b : Bool) (q : Seq) (e : Option ErrorKind) (k : ErrorKind) :
    (s.control b q e).raiseError k = s.finish k.status := rfl

@[simp] theorem State.control_setSession (s : State) (b : Bool) (q : Seq) (e : Option ErrorKind) (c : Bool) :
    (s.control b q e).setSession c = (s.setSession c).control b q e := rfl

@[simp] theorem State.control_setMapped (s : State) (b : Bool) (q : Seq) (e : Option ErrorKind) (c : Bool) :
    (s.control b q e).setMapped c = (s.setMapped c).control b q e := rfl

@[simp] theorem State.control_setMasks (s : State) (b : Bool) (q : Seq) (e : Option ErrorKind) :
    (s.control b q e).setMasks = (s.setMasks).control b q e := rfl

@[simp] theorem State.control_setHold (s : State) (b : Bool) (q : Seq) (e : Option ErrorKind) (w : Word) :
    (s.control b q e).setHold w = (s.setHold w).control b q e := rfl

@[simp] theorem State.control_setLc (s : State) (b : Bool) (q : Seq) (e : Option ErrorKind) (l : Lifecycle) :
    (s.control b q e).setLc l = (s.setLc l).control b q e := rfl

@[simp] theorem State.control_setBuf (s : State) (b : Bool) (q : Seq) (e : Option ErrorKind) (bytes : List Byte) :
    (s.control b q e).setBuf bytes = (s.setBuf bytes).control b q e := rfl

@[simp] theorem State.control_setPending (s : State) (b : Bool) (q : Seq) (e e' : Option ErrorKind) :
    (s.control b q e).setPending e' = s.control b q e' := rfl

@[simp] theorem State.control_setSeq (s : State) (b : Bool) (q q' : Seq) (e : Option ErrorKind) :
    (s.control b q e).setSeq q' = s.control b q' e := rfl

@[simp] theorem State.control_goto (s : State) (b : Bool) (q : Seq) (e : Option ErrorKind) (p : Phase) :
    (s.control b q e).goto p = s.control b ⟨p, 0, 0⟩ e := rfl

@[simp] theorem State.control_sameBit (s : State) (b : Bool) (q : Seq) (e : Option ErrorKind) (p : Phase) :
    (s.control b q e).sameBit p = s.control b ⟨p, q.byteIdx, q.bitCnt⟩ e := rfl

theorem State.accept_eq (s : State) : s.accept = s.control true s.seq s.pending := rfl

/-! ### INITIALIZE, phase by phase (40_lifecycle.md R112) -/

theorem microStep_iOpen_ok (s : State) (b : Bool) (e : Option ErrorKind) (h : s.nextAnswer = .ok) :
    microStep (s.control b ⟨.iOpen, 0, 0⟩ e) = (s.openReq.2.setSession true).control b ⟨.iMap, 0, 0⟩ e := by
  simp only [microStep, State.control_seq, phaseOpen, State.control_openReq, h]
  rfl

theorem microStep_iOpen_fail (s : State) (b : Bool) (e : Option ErrorKind) (h : s.nextAnswer = .fail) :
    microStep (s.control b ⟨.iOpen, 0, 0⟩ e) = s.openReq.2.finish .mappingFailure := by
  simp only [microStep, State.control_seq, phaseOpen, State.control_openReq, h]
  rfl

theorem microStep_iMap_ok (s : State) (b : Bool) (e : Option ErrorKind) (h : s.nextAnswer = .ok) :
    microStep (s.control b ⟨.iMap, 0, 0⟩ e) = (s.mapReq.2.setMapped true).control b ⟨.iMasks, 0, 0⟩ e := by
  simp only [microStep, State.control_seq, phaseMap, State.control_mapReq, h]
  rfl

theorem microStep_iMap_fail (s : State) (b : Bool) (e : Option ErrorKind) (h : s.nextAnswer = .fail) :
    microStep (s.control b ⟨.iMap, 0, 0⟩ e) = s.mapReq.2.control b ⟨.tClose, 0, 0⟩ (some .mappingFailure) := by
  simp only [microStep, State.control_seq, phaseMap, State.control_mapReq, h]
  rfl

theorem microStep_iMasks (s : State) (b : Bool) (e : Option ErrorKind) :
    microStep (s.control b ⟨.iMasks, 0, 0⟩ e) =
      s.setMasks.control b ⟨.iClkRd, 0, 0⟩ e := rfl

theorem microStep_iClkRd (s : State) (b : Bool) (e : Option ErrorKind) :
    microStep (s.control b ⟨.iClkRd, 0, 0⟩ e) =
      ((s.rd32 (fseloff s.cfg.val s.clk)).2.setHold (s.rd32 (fseloff s.cfg.val s.clk)).1).control b
        ⟨.iClkWr, 0, 0⟩ e := rfl

theorem microStep_iClkWr (s : State) (b : Bool) (e : Option ErrorKind) :
    microStep (s.control b ⟨.iClkWr, 0, 0⟩ e) =
      (s.wr32 (fseloff s.cfg.val s.clk) (fselnew s.cfg.val s.hold s.clk)).control b ⟨.iDatRd, 0, 0⟩ e := rfl

theorem microStep_iDatRd (s : State) (b : Bool) (e : Option ErrorKind) :
    microStep (s.control b ⟨.iDatRd, 0, 0⟩ e) =
      ((s.rd32 (fseloff s.cfg.val s.dat)).2.setHold (s.rd32 (fseloff s.cfg.val s.dat)).1).control b
        ⟨.iDatWr, 0, 0⟩ e := rfl

theorem microStep_iDatWr (s : State) (b : Bool) (e : Option ErrorKind) :
    microStep (s.control b ⟨.iDatWr, 0, 0⟩ e) =
      (s.wr32 (fseloff s.cfg.val s.dat) (fselnew s.cfg.val s.hold s.dat)).control b ⟨.iIdleClk, 0, 0⟩ e := rfl

theorem microStep_iIdleClk (s : State) (b : Bool) (e : Option ErrorKind) :
    microStep (s.control b ⟨.iIdleClk, 0, 0⟩ e) =
      (s.wr32 (clroff s.cfg.val s.clk) s.clkMask).control b ⟨.iIdleDat, 0, 0⟩ e := rfl

theorem microStep_iIdleDat (s : State) (b : Bool) (e : Option ErrorKind) :
    microStep (s.control b ⟨.iIdleDat, 0, 0⟩ e) =
      ((s.wr32 (clroff s.cfg.val s.dat) s.datMask).setLc .ready).finish .ok := rfl

/-! ### SEND, phase by phase (41_send.md R146) -/

theorem microStep_sData (s : State) (b : Bool) (i : Nat) (k : Fin 8) (e : Option ErrorKind) :
    microStep (s.control b ⟨.sData, i, k⟩ e) =
      (s.wr32 (dataOff s.cfg.val s.dat (bitsel s.cfg.val.bitOrder (s.buf.getD i 0) k.val)) s.datMask).control b
        ⟨.sSettle, i, k⟩ e := rfl

theorem microStep_sSettle (s : State) (b : Bool) (i : Nat) (k : Fin 8) (e : Option ErrorKind) :
    microStep (s.control b ⟨.sSettle, i, k⟩ e) = (s.delay .settle).control b ⟨.sClkHi, i, k⟩ e := rfl

theorem microStep_sClkHi (s : State) (b : Bool) (i : Nat) (k : Fin 8) (e : Option ErrorKind) :
    microStep (s.control b ⟨.sClkHi, i, k⟩ e) =
      (s.wr32 (setoff s.cfg.val s.clk) s.clkMask).control b ⟨.sHoldHi, i, k⟩ e := rfl

theorem microStep_sHoldHi (s : State) (b : Bool) (i : Nat) (k : Fin 8) (e : Option ErrorKind) :
    microStep (s.control b ⟨.sHoldHi, i, k⟩ e) = (s.delay .high).control b ⟨.sClkLo, i, k⟩ e := rfl

theorem microStep_sClkLo (s : State) (b : Bool) (i : Nat) (k : Fin 8) (e : Option ErrorKind) :
    microStep (s.control b ⟨.sClkLo, i, k⟩ e) =
      (s.wr32 (clroff s.cfg.val s.clk) s.clkMask).control b ⟨.sHoldLo, i, k⟩ e := rfl

theorem microStep_sHoldLo (s : State) (b : Bool) (i : Nat) (k : Fin 8) (e : Option ErrorKind) :
    microStep (s.control b ⟨.sHoldLo, i, k⟩ e) =
      (s.delay .low).control b (nextBit ⟨.sHoldLo, i, k⟩ s.buf.length) e := rfl

theorem microStep_sRestore (s : State) (b : Bool) (i : Nat) (k : Fin 8) (e : Option ErrorKind) :
    microStep (s.control b ⟨.sRestore, i, k⟩ e) = (s.wr32 (clroff s.cfg.val s.dat) s.datMask).finish .ok := rfl

/-! ### TEARDOWN, phase by phase (40_lifecycle.md R117) -/

/-- The state after `T_UNMAP`, without its position. -/
def State.unmapIfMapped (s : State) : State := if s.mapped then s.unmapReq.2.setMapped false else s

theorem microStep_tUnmap (s : State) (b : Bool) (e : Option ErrorKind) :
    microStep (s.control b ⟨.tUnmap, 0, 0⟩ e) = s.unmapIfMapped.control b ⟨.tClose, 0, 0⟩ e := by
  cases h : s.mapped <;> simp [microStep, phaseUnmap, State.unmapIfMapped, State.control_unmapReq, h]

theorem State.control_release (s : State) (b : Bool) (q : Seq) (e : Option ErrorKind) :
    (s.control b q e).release = s.release.control b q e := by
  cases h : s.sessionValid <;> simp [State.release, State.control_closeReq, h]

theorem microStep_tClose_none (s : State) (b : Bool) :
    microStep (s.control b ⟨.tClose, 0, 0⟩ none) =
      (s.release.setLc (lcAfterTeardown s.lc)).finish .ok := by
  simp only [microStep, State.control_seq, phaseClose, State.control_pending, State.control_release]
  rfl

theorem microStep_tClose_some (s : State) (b : Bool) (k : ErrorKind) :
    microStep (s.control b ⟨.tClose, 0, 0⟩ (some k)) = s.release.finish k.status := by
  simp only [microStep, State.control_seq, phaseClose, State.control_pending, State.control_release]
  rfl

/-! ### Running a command -/

/-- A command that has completed stays completed. -/
theorem runCommand_idle (n : Nat) (s : State) (h : s.busy = false) : runCommand n s = s := by
  cases n <;> simp [runCommand, h]

/-- A command in progress makes one micro-step and goes on. -/
theorem runCommand_busy (n : Nat) (s : State) (q : Seq) (e : Option ErrorKind) :
    runCommand (n + 1) (s.control true q e) = runCommand n (microStep (s.control true q e)) := rfl

/-- Running for `m`, then for `n`, is running for `m + n`. -/
theorem runCommand_add (m n : Nat) (s : State) : runCommand (m + n) s = runCommand n (runCommand m s) := by
  induction m generalizing s with
  | zero => simp [runCommand]
  | succ m ih =>
    rw [Nat.succ_add]
    by_cases h : s.busy = true
    · simp [runCommand, h, ih]
    · simp only [Bool.not_eq_true] at h
      rw [runCommand_idle _ _ h, runCommand_idle _ _ h, runCommand_idle _ _ h]

/-! ### Whole commands -/

/-- The six micro-operations of a bit, with the data offset chosen inside. -/
theorem sendBit_eq (s : State) (b : Bool) :
    sendBit s b = (((((s.wr32 (dataOff s.cfg.val s.dat b) s.datMask).delay .settle).wr32 (setoff s.cfg.val s.clk)
      s.clkMask).delay .high).wr32 (clroff s.cfg.val s.clk) s.clkMask).delay .low := by
  cases b <;> simp [sendBit, dataOff]

/-- One bit takes six micro-steps. -/
theorem runCommand_bit (n : Nat) (s : State) (i : Nat) (k : Fin 8) (e : Option ErrorKind) :
    runCommand (n + 6) (s.control true ⟨.sData, i, k⟩ e) =
      runCommand n ((sendBit s (bitsel s.cfg.val.bitOrder (s.buf.getD i 0) k.val)).control true
        (nextBit ⟨.sHoldLo, i, k⟩ s.buf.length) e) := by
  rw [sendBit_eq]
  simp only [runCommand_busy, microStep_sData, microStep_sSettle, microStep_sClkHi, microStep_sHoldHi,
    microStep_sClkLo, microStep_sHoldLo, State.wr32_cfg, State.wr32_clk, State.wr32_clkMask, State.wr32_buf,
    State.delay_cfg, State.delay_clk, State.delay_clkMask, State.delay_buf]

/-! ### What one bit does -/

@[simp] theorem sendBit_cfg (s : State) (b : Bool) : (sendBit s b).cfg = s.cfg := by simp [sendBit_eq]
@[simp] theorem sendBit_lc (s : State) (b : Bool) : (sendBit s b).lc = s.lc := by simp [sendBit_eq]
@[simp] theorem sendBit_busy (s : State) (b : Bool) : (sendBit s b).busy = s.busy := by simp [sendBit_eq]
@[simp] theorem sendBit_seq (s : State) (b : Bool) : (sendBit s b).seq = s.seq := by simp [sendBit_eq]
@[simp] theorem sendBit_sessionValid (s : State) (b : Bool) : (sendBit s b).sessionValid = s.sessionValid := by simp [sendBit_eq]
@[simp] theorem sendBit_mapped (s : State) (b : Bool) : (sendBit s b).mapped = s.mapped := by simp [sendBit_eq]
@[simp] theorem sendBit_cfgErr (s : State) (b : Bool) : (sendBit s b).cfgErr = s.cfgErr := by simp [sendBit_eq]
@[simp] theorem sendBit_status (s : State) (b : Bool) : (sendBit s b).status = s.status := by simp [sendBit_eq]
@[simp] theorem sendBit_clkPin (s : State) (b : Bool) : (sendBit s b).clkPin = s.clkPin := by simp [sendBit_eq]
@[simp] theorem sendBit_datPin (s : State) (b : Bool) : (sendBit s b).datPin = s.datPin := by simp [sendBit_eq]
@[simp] theorem sendBit_clkMask (s : State) (b : Bool) : (sendBit s b).clkMask = s.clkMask := by simp [sendBit_eq]
@[simp] theorem sendBit_datMask (s : State) (b : Bool) : (sendBit s b).datMask = s.datMask := by simp [sendBit_eq]
@[simp] theorem sendBit_buf (s : State) (b : Bool) : (sendBit s b).buf = s.buf := by simp [sendBit_eq]
@[simp] theorem sendBit_hold (s : State) (b : Bool) : (sendBit s b).hold = s.hold := by simp [sendBit_eq]
@[simp] theorem sendBit_pending (s : State) (b : Bool) : (sendBit s b).pending = s.pending := by simp [sendBit_eq]
@[simp] theorem sendBit_cmdIn (s : State) (b : Bool) : (sendBit s b).cmdIn = s.cmdIn := by simp [sendBit_eq]
@[simp] theorem sendBit_answers (s : State) (b : Bool) : (sendBit s b).answers = s.answers := by simp [sendBit_eq]
@[simp] theorem sendBit_asked (s : State) (b : Bool) : (sendBit s b).asked = s.asked := by simp [sendBit_eq]
@[simp] theorem sendBit_clk (s : State) (b : Bool) : (sendBit s b).clk = s.clk := by simp [sendBit_eq]
@[simp] theorem sendBit_dat (s : State) (b : Bool) : (sendBit s b).dat = s.dat := by simp [sendBit_eq]

@[simp] theorem sendBit_owns (s : State) (b : Bool) (q : Nat) : (sendBit s b).owns q = s.owns q := by simp [sendBit_eq]

/-- The events of one bit (41_send.md R141). -/
@[simp] theorem sendBit_tr (s : State) (b : Bool) : (sendBit s b).tr = s.tr ++ bitTrace s b := by
  cases b <;> simp [sendBit_eq, bitTrace, dataOff]

@[simp] theorem sendBit_env (s : State) (b : Bool) : (sendBit s b).env = s.env.drop 6 := by
  simp only [sendBit_eq, State.delay_env, State.wr32_env, ← List.drop_one, List.drop_drop]

@[simp] theorem sendBit_ticks (s : State) (b : Bool) : (sendBit s b).ticks = s.ticks + 6 := by
  simp [sendBit_eq]

/-- The events of a bit depend on the pins, the masks and the configuration only. -/
theorem bitTrace_congr (s t : State) (b : Bool) (hc : t.cfg = s.cfg) (hk : t.clk = s.clk) (hd : t.dat = s.dat)
    (hkm : t.clkMask = s.clkMask) (hdm : t.datMask = s.datMask) : bitTrace t b = bitTrace s b := by
  simp only [bitTrace, hc, hk, hd, hkm, hdm]

/-! ### What a list of bits does -/

/-- The bits of a list, one after the other. -/
def sendBits (s : State) (bits : List Bool) : State := bits.foldl sendBit s

theorem sendBits_cons (s : State) (b : Bool) (bits : List Bool) :
    sendBits s (b :: bits) = sendBits (sendBit s b) bits := rfl

theorem sendBits_append (s : State) (bits more : List Bool) :
    sendBits s (bits ++ more) = sendBits (sendBits s bits) more := by
  simp [sendBits, List.foldl_append]

@[simp] theorem sendBits_cfg (s : State) (bits : List Bool) : (sendBits s bits).cfg = s.cfg := by
  induction bits generalizing s with
  | nil => rfl
  | cons b rest ih => simp [sendBits_cons, ih]
@[simp] theorem sendBits_lc (s : State) (bits : List Bool) : (sendBits s bits).lc = s.lc := by
  induction bits generalizing s with
  | nil => rfl
  | cons b rest ih => simp [sendBits_cons, ih]
@[simp] theorem sendBits_busy (s : State) (bits : List Bool) : (sendBits s bits).busy = s.busy := by
  induction bits generalizing s with
  | nil => rfl
  | cons b rest ih => simp [sendBits_cons, ih]
@[simp] theorem sendBits_seq (s : State) (bits : List Bool) : (sendBits s bits).seq = s.seq := by
  induction bits generalizing s with
  | nil => rfl
  | cons b rest ih => simp [sendBits_cons, ih]
@[simp] theorem sendBits_sessionValid (s : State) (bits : List Bool) : (sendBits s bits).sessionValid = s.sessionValid := by
  induction bits generalizing s with
  | nil => rfl
  | cons b rest ih => simp [sendBits_cons, ih]
@[simp] theorem sendBits_mapped (s : State) (bits : List Bool) : (sendBits s bits).mapped = s.mapped := by
  induction bits generalizing s with
  | nil => rfl
  | cons b rest ih => simp [sendBits_cons, ih]
@[simp] theorem sendBits_cfgErr (s : State) (bits : List Bool) : (sendBits s bits).cfgErr = s.cfgErr := by
  induction bits generalizing s with
  | nil => rfl
  | cons b rest ih => simp [sendBits_cons, ih]
@[simp] theorem sendBits_status (s : State) (bits : List Bool) : (sendBits s bits).status = s.status := by
  induction bits generalizing s with
  | nil => rfl
  | cons b rest ih => simp [sendBits_cons, ih]
@[simp] theorem sendBits_clkPin (s : State) (bits : List Bool) : (sendBits s bits).clkPin = s.clkPin := by
  induction bits generalizing s with
  | nil => rfl
  | cons b rest ih => simp [sendBits_cons, ih]
@[simp] theorem sendBits_datPin (s : State) (bits : List Bool) : (sendBits s bits).datPin = s.datPin := by
  induction bits generalizing s with
  | nil => rfl
  | cons b rest ih => simp [sendBits_cons, ih]
@[simp] theorem sendBits_clkMask (s : State) (bits : List Bool) : (sendBits s bits).clkMask = s.clkMask := by
  induction bits generalizing s with
  | nil => rfl
  | cons b rest ih => simp [sendBits_cons, ih]
@[simp] theorem sendBits_datMask (s : State) (bits : List Bool) : (sendBits s bits).datMask = s.datMask := by
  induction bits generalizing s with
  | nil => rfl
  | cons b rest ih => simp [sendBits_cons, ih]
@[simp] theorem sendBits_buf (s : State) (bits : List Bool) : (sendBits s bits).buf = s.buf := by
  induction bits generalizing s with
  | nil => rfl
  | cons b rest ih => simp [sendBits_cons, ih]
@[simp] theorem sendBits_hold (s : State) (bits : List Bool) : (sendBits s bits).hold = s.hold := by
  induction bits generalizing s with
  | nil => rfl
  | cons b rest ih => simp [sendBits_cons, ih]
@[simp] theorem sendBits_pending (s : State) (bits : List Bool) : (sendBits s bits).pending = s.pending := by
  induction bits generalizing s with
  | nil => rfl
  | cons b rest ih => simp [sendBits_cons, ih]
@[simp] theorem sendBits_cmdIn (s : State) (bits : List Bool) : (sendBits s bits).cmdIn = s.cmdIn := by
  induction bits generalizing s with
  | nil => rfl
  | cons b rest ih => simp [sendBits_cons, ih]
@[simp] theorem sendBits_answers (s : State) (bits : List Bool) : (sendBits s bits).answers = s.answers := by
  induction bits generalizing s with
  | nil => rfl
  | cons b rest ih => simp [sendBits_cons, ih]
@[simp] theorem sendBits_asked (s : State) (bits : List Bool) : (sendBits s bits).asked = s.asked := by
  induction bits generalizing s with
  | nil => rfl
  | cons b rest ih => simp [sendBits_cons, ih]
@[simp] theorem sendBits_clk (s : State) (bits : List Bool) : (sendBits s bits).clk = s.clk := by
  induction bits generalizing s with
  | nil => rfl
  | cons b rest ih => simp [sendBits_cons, ih]
@[simp] theorem sendBits_dat (s : State) (bits : List Bool) : (sendBits s bits).dat = s.dat := by
  induction bits generalizing s with
  | nil => rfl
  | cons b rest ih => simp [sendBits_cons, ih]

@[simp] theorem sendBits_owns (s : State) (bits : List Bool) (q : Nat) : (sendBits s bits).owns q = s.owns q := by
  induction bits generalizing s with
  | nil => rfl
  | cons b rest ih => simp [sendBits_cons, ih]

/-- The events of a list of bits. -/
@[simp] theorem sendBits_tr (s : State) (bits : List Bool) :
    (sendBits s bits).tr = s.tr ++ bits.flatMap (bitTrace s) := by
  induction bits generalizing s with
  | nil => simp [sendBits]
  | cons b rest ih =>
    have h : bitTrace (sendBit s b) = bitTrace s := by
      funext c
      exact bitTrace_congr s _ c (by simp) (by simp) (by simp) (by simp) (by simp)
    simp [sendBits_cons, ih, h]

@[simp] theorem sendBits_env (s : State) (bits : List Bool) : (sendBits s bits).env = s.env.drop (6 * bits.length) := by
  induction bits generalizing s with
  | nil => simp [sendBits]
  | cons b rest ih =>
    simp only [sendBits_cons, ih, sendBit_env, List.drop_drop, List.length_cons]
    congr 1
    omega

@[simp] theorem sendBits_ticks (s : State) (bits : List Bool) :
    (sendBits s bits).ticks = s.ticks + 6 * bits.length := by
  induction bits generalizing s with
  | nil => simp [sendBits]
  | cons b rest ih =>
    simp only [sendBits_cons, ih, sendBit_ticks, List.length_cons]
    omega

/-! ### Bytes -/

@[simp] theorem length_byteBits (o : BitOrder) (x : Byte) : (byteBits o x).length = 8 := by
  simp [byteBits]

theorem sendByte_eq (s : State) (x : Byte) : sendByte s x = sendBits s (byteBits s.cfg.val.bitOrder x) := rfl

/-- The outer loop of SEND is the list of all its bits (41_send.md R140). -/
theorem foldl_sendByte (s : State) (bytes : List Byte) :
    bytes.foldl sendByte s = sendBits s (bufferBits s.cfg.val.bitOrder bytes) := by
  induction bytes generalizing s with
  | nil => rfl
  | cons x rest ih =>
    rw [List.foldl_cons, ih, sendByte_eq, sendBits_cfg, bufferBits, bufferBits, List.flatMap_cons, sendBits_append]

@[simp] theorem length_bufferBits (o : BitOrder) (bytes : List Byte) : (bufferBits o bytes).length = 8 * bytes.length := by
  induction bytes with
  | nil => rfl
  | cons x rest ih =>
    have h : bufferBits o (x :: rest) = byteBits o x ++ bufferBits o rest := rfl
    rw [h, List.length_append, ih, length_byteBits, List.length_cons]
    omega

/-- The position after a bit that is not the last of its byte. -/
theorem nextBit_within (p : Phase) (i len : Nat) (k : Nat) (h : k < 7) :
    nextBit ⟨p, i, ⟨k, by omega⟩⟩ len = ⟨.sData, i, ⟨k + 1, by omega⟩⟩ := by
  simp [nextBit, h]

/-- The position after the last bit of a byte. -/
theorem nextBit_last (p : Phase) (i len : Nat) :
    nextBit ⟨p, i, ⟨7, by omega⟩⟩ len = if i + 1 < len then ⟨.sData, i + 1, 0⟩ else ⟨.sRestore, i, 7⟩ := by
  simp [nextBit]

/-- The bits of a byte from the `k`-th on, six micro-steps each. -/
theorem runCommand_bitsFrom (n i : Nat) (e : Option ErrorKind) (m : Nat) :
    ∀ (s : State) (k : Nat) (hk : k + m = 7),
      runCommand (n + 6 * (m + 1)) (s.control true ⟨.sData, i, ⟨k, by omega⟩⟩ e) =
        runCommand n ((sendBits s ((List.range' k (m + 1)).map (bitsel s.cfg.val.bitOrder (s.buf.getD i 0)))).control
          true (if i + 1 < s.buf.length then ⟨.sData, i + 1, 0⟩ else ⟨.sRestore, i, 7⟩) e) := by
  induction m with
  | zero =>
    intro s k hk
    obtain rfl : k = 7 := by omega
    rw [show n + 6 * (0 + 1) = n + 6 by omega, runCommand_bit, nextBit_last]
    rfl
  | succ m ih =>
    intro s k hk
    rw [show n + 6 * (m + 1 + 1) = n + 6 * (m + 1) + 6 by omega, runCommand_bit,
      nextBit_within _ _ _ _ (by omega), ih _ (k + 1) (by omega), sendBit_cfg, sendBit_buf,
      List.range'_succ (n := m + 1), List.map_cons, sendBits_cons]

/-- One byte takes 48 micro-steps; after it the sequencer is at the next byte or at the idle restore (41_send.md
R146). -/
theorem runCommand_byte (n : Nat) (s : State) (i : Nat) (e : Option ErrorKind) :
    runCommand (n + 48) (s.control true ⟨.sData, i, 0⟩ e) =
      runCommand n ((sendByte s (s.buf.getD i 0)).control true
        (if i + 1 < s.buf.length then ⟨.sData, i + 1, 0⟩ else ⟨.sRestore, i, 7⟩) e) := by
  rw [sendByte_eq, byteBits, List.range_eq_range']
  exact runCommand_bitsFrom n i e 7 s 0 rfl

/-- From the first bit of byte `i` a SEND sends every byte that is left, then restores the data line and completes. -/
theorem runCommand_bytes (m : Nat) : ∀ (s : State) (i : Nat) (e : Option ErrorKind), i + (m + 1) = s.buf.length →
    runCommand (48 * (m + 1) + 1) (s.control true ⟨.sData, i, 0⟩ e) =
      (((s.buf.drop i).foldl sendByte s).wr32 (clroff s.cfg.val s.dat) s.datMask).finish .ok := by
  induction m with
  | zero =>
    intro s i e h
    have hd : s.buf.drop i = [s.buf.getD i 0] := by
      rw [List.drop_eq_getElem_cons (by omega), List.drop_of_length_le (by omega),
        List.getD_eq_getElem _ _ (by omega)]
    rw [show 48 * (0 + 1) + 1 = 0 + 1 + 48 from rfl, runCommand_byte, if_neg (by omega), runCommand_busy,
      microStep_sRestore, hd]
    simp [runCommand, sendByte_eq]
  | succ m ih =>
    intro s i e h
    have hd : s.buf.drop i = s.buf.getD i 0 :: s.buf.drop (i + 1) := by
      rw [List.drop_eq_getElem_cons (by omega), List.getD_eq_getElem _ _ (by omega)]
    rw [show 48 * (m + 1 + 1) + 1 = 48 * (m + 1) + 1 + 48 by omega, runCommand_byte, if_pos (by omega),
      ih _ _ _ (by simp [sendByte_eq]; omega), hd, List.foldl_cons]
    simp [sendByte_eq]

/-! ### The trace of a SEND -/

@[simp] theorem length_bitTrace (s : State) (b : Bool) : (bitTrace s b).length = 6 := rfl

theorem length_flatMap_bitTrace (s : State) (bits : List Bool) : (bits.flatMap (bitTrace s)).length = 6 * bits.length := by
  induction bits with
  | nil => rfl
  | cons b rest ih =>
    simp only [List.flatMap_cons, List.length_append, ih, List.length_cons, length_bitTrace]
    omega

/-- `48 * N + 1` events, none for an empty buffer (41_send.md R147, R148). -/
theorem length_sendTrace (s : State) (bytes : List Byte) :
    (sendTrace s bytes).length = 48 * bytes.length + if bytes.length > 0 then 1 else 0 := by
  simp only [sendTrace, List.length_append, length_flatMap_bitTrace, length_bufferBits]
  split <;> simp <;> omega

/-- The events of a SEND depend on the pins, the masks and the configuration only. -/
theorem sendTrace_congr (s t : State) (bytes : List Byte) (hc : t.cfg = s.cfg) (hk : t.clk = s.clk) (hd : t.dat = s.dat)
    (hkm : t.clkMask = s.clkMask) (hdm : t.datMask = s.datMask) : sendTrace t bytes = sendTrace s bytes := by
  have h : bitTrace t = bitTrace s := funext fun b => bitTrace_congr s t b hc hk hd hkm hdm
  simp only [sendTrace, h, hc, hd, hdm]

end Sys2Proof.Machine
end

