-- ==== Sys2Proof/Tests/Slice0.lean ====
section
/-!
SUPPORT. The model's own tests. Expected values come from spec/ (95_test_vectors.md unless said otherwise). The second half
shows, for every statement with hypotheses, concrete states and operands that meet them together.
-/

namespace Sys2Proof.Machine

/-! ### WellFormed refuses (30_encoding.md R82, R84) -/

theorem test_wf_refuses_negative_clk : ¬ (Instr.construct (-1) 3).WellFormed := by decide
theorem test_wf_refuses_wide_clk : ¬ (Instr.construct 256 3).WellFormed := by decide
theorem test_wf_refuses_negative_dat : ¬ (Instr.construct 3 (-1)).WellFormed := by decide
theorem test_wf_refuses_wide_dat : ¬ (Instr.construct 3 256).WellFormed := by decide
theorem test_wf_refuses_long_send : ¬ (Instr.send (List.replicate (2 ^ 30) 0)).WellFormed :=
  fun h => Nat.lt_irrefl (2 ^ 30) (lt_of_eq_of_lt List.length_replicate.symm h)

/-- Whether a configuration is accepted. -/
def cfgAccepted (c : Cfg) : Bool := decide c.WellFormed

/-- Every clause of a well-formed configuration refuses (00_scope.md R12). -/
theorem test_cfg_wf_refuses :
    cfgAccepted { ex1 with pinCount := 1 } = false ∧ cfgAccepted { ex1 with blockLen := 0 } = false ∧
    cfgAccepted { ex1 with blockLen := 4098 } = false ∧ cfgAccepted { ex1 with ctrlOff := 0x31 } = false ∧
    cfgAccepted { ex1 with setOff := 0x1E } = false ∧ cfgAccepted { ex1 with clrOff := 0x2A } = false ∧
    cfgAccepted { ex1 with pinsPerWord := 0 } = false ∧ cfgAccepted { ex1 with pinsPerWord := 11 } = false ∧
    cfgAccepted { ex1 with ctrlOff := 4092 } = false ∧ cfgAccepted { ex1 with setOff := 4092 } = false ∧
    cfgAccepted { ex1 with clrOff := 4092 } = false ∧ cfgAccepted { ex1 with setOff := 0x14 } = false ∧
    cfgAccepted { ex1 with clrOff := 0x14 } = false ∧ cfgAccepted { ex1 with clrOff := 0x20 } = false := by
  decide

/-! ### Decoding: words written out bit by bit (95_test_vectors.md 2.4) -/

theorem test_decode_construct :
    decodeTableWord 32 0b00000000000000000000101100001010 = some (.construct 11 10) ∧
    decodeTableWord 32 0b00000000000000000000010100000101 = some (.construct 5 5) ∧
    decodeTableWord 32 0b00000000000000000011011000000000 = some (.construct 54 0) ∧
    decodeTableWord 32 0b00000000000000001111111111111110 = some (.construct 255 254) := by
  decide

theorem test_decode_initialise : decodeTableWord 32 0b01000000000000000000000000000000 = some .initialise := by decide

theorem test_decode_send :
    decode (bytesOfWord 0b10000000000000000000000000000000#32) = .command (.send []) [] ∧
    decode (bytesOfWord 0b10000000000000000000000000000001#32 ++ [0xA5#8]) = .command (.send [0xA5#8]) [] ∧
    decode (bytesOfWord 0b10000000000000000000000000000010#32 ++ [0x00#8, 0xFF#8]) =
      .command (.send [0x00#8, 0xFF#8]) [] := by
  decide

theorem test_decode_teardown : decodeTableWord 32 0b11000000000000000000000000000000 = some .teardown := by decide

/-- The table gives SEND no payload bits: the operand bytes are zeros. -/
theorem test_decode_table_send : decodeTableWord 32 0x80000002 = some (.send [0x00#8, 0x00#8]) := by decide

theorem test_decode_refuses_reserved :
    decode (bytesOfWord 0x00010B0A#32) = .reservedBits ∧ decode (bytesOfWord 0x3FFF0000#32) = .reservedBits ∧
    decode (bytesOfWord 0x40000001#32) = .reservedBits ∧ decode (bytesOfWord 0xC0000100#32) = .reservedBits := by
  decide

/-- The largest LEN decodes as a SEND that waits for its payload. -/
theorem test_decode_longest_send : decode (bytesOfWord 0xBFFFFFFF#32) = .incompletePayload := by decide

theorem test_encode :
    encode (.construct 11 10) = bytesOfWord 0x00000B0A#32 ∧ encode .initialise = bytesOfWord 0x40000000#32 ∧
    encode (.send [0xA5#8]) = bytesOfWord 0x80000001#32 ++ [0xA5#8] ∧
    encode .teardown = bytesOfWord 0xC0000000#32 := by
  decide

/-- The assembler text (30_encoding.md R93). -/
theorem test_assemble :
    assemble (.construct 11 10) = "CONSTRUCT 11, 10" ∧ assemble .initialise = "INITIALIZE" ∧
    assemble (.send []) = "SEND []" ∧ assemble (.send [0x00#8, 0xFF#8]) = "SEND [0x00, 0xFF]" ∧
    assemble .teardown = "TEARDOWN" ∧ assembleLine (.send [0xA5#8]) .ok = "SEND [0xA5] -> OK" := by
  decide

/-! ### Operands (95_test_vectors.md 2.1 to 2.3) -/

/-- Pins 31, 32, 35 and 53 of the table: mask, set, clear and control offsets, field position. -/
theorem test_operands :
    (maskOf 31, setoff ex1 31, clroff ex1 31, fseloff ex1 31, fselsh ex1 31) = (0x80000000#32, 0x1C, 0x28, 0x0C, 3) ∧
    (maskOf 32, setoff ex1 32, clroff ex1 32, fseloff ex1 32, fselsh ex1 32) = (0x00000001#32, 0x20, 0x2C, 0x0C, 6) ∧
    (maskOf 35, setoff ex1 35, clroff ex1 35, fseloff ex1 35, fselsh ex1 35) = (0x00000008#32, 0x20, 0x2C, 0x0C, 15) ∧
    (maskOf 53, setoff ex1 53, clroff ex1 53, fseloff ex1 53, fselsh ex1 53) = (0x00200000#32, 0x20, 0x2C, 0x14, 9) := by
  decide

theorem test_fselnew :
    fselnew ex1 0xFFFFFFFF#32 9 = 0xCFFFFFFF#32 ∧ fselnew ex1 0xC0000000#32 29 = 0xC8000000#32 ∧
    fselnew ex1 0xDEADBEEF#32 53 = 0xDEADB2EF#32 ∧ fselnew ex1 0x24924924#32 11 = 0x2492490C#32 := by
  decide

theorem test_bitsel :
    byteBits .msbFirst 0x80#8 = [true, false, false, false, false, false, false, false] ∧
    byteBits .lsbFirst 0x80#8 = [false, false, false, false, false, false, false, true] := by
  decide

/-! ### States for the tests and witnesses -/

/-- Power-on of `EX1` with a scripted environment that does nothing, and a platform that answers `ok`. -/
def testPower : State :=
  { State.powerOn ex1Platform with env := List.replicate 60 [], answers := [.ok, .ok, .ok, .ok, .ok, .ok] }

/-- An instance on pins 11 and 10, constructed. -/
def testConstructed : State := { testPower with lc := .constructed, clkPin := 11, datPin := 10 }

/-- An instance on the pins 5 and 5, constructed with `CFGERR = 1`. -/
def testBadPins : State := { testPower with lc := .constructed, clkPin := 5, datPin := 5, cfgErr := true }

/-- An instance on pins 11 and 10, ready: both fields of control word 1 are outputs. -/
def testReady : State :=
  { testPower with
    lc := .ready, clkPin := 11, datPin := 10, sessionValid := true, mapped := true
    clkMask := 0x00000800, datMask := 0x00000400, block := [(4, 0x09#8)]
    tr := [.openEv .ok, .mapEv 0x20200000 4096 .ok] }

/-- A ready instance whose pins 3 and 35 have equal masks. -/
def testReady335 : State :=
  { testReady with
    clkPin := 3, datPin := 35, clkMask := 0x00000008, datMask := 0x00000008
    block := [(1, 0x02#8), (13, 0x80#8)] }

/-- An instance after its TEARDOWN. -/
def testTornDown : State :=
  { testReady with
    lc := .tornDown, sessionValid := false, mapped := false
    tr := [.openEv .ok, .mapEv 0x20200000 4096 .ok, .unmapEv .ok, .closeEv .fail] }

/-- In the middle of an INITIALIZE on pins 11 and 10, at a given phase. -/
def testConfiguring (p : Phase) : State :=
  { testReady with lc := .constructed, busy := true, seq := ⟨p, 0, 0⟩, hold := 0x24924909#32 }

/-- In the middle of a SEND of `0xA5`, at the rising edge of its first bit: the data line is already high. -/
def testRising : State :=
  { testReady with
    busy := true, seq := ⟨.sClkHi, 0, 0⟩, buf := [0xA5#8]
    level := (List.replicate 54 false).set 10 true }

/-- The state after an outcome, when there is one. -/
def nextState (o : Host.Outcome State Fault Refusal) : Option State :=
  match o with
  | .next t => some t
  | .fault _ => none
  | .refused _ => none

/-- A state with the bytes of a command at its port. -/
def atPort (s : State) (bytes : List Byte) : State := { s with cmdIn := bytes }

/-! ### One step of each command -/

/-- Pins 3 and 35 share `mod 32` and are accepted; no event (2.5). -/
theorem test_construct_same_mask :
    (nextState (step (atPort testPower (bytesOfWord 0x00000323#32)))).map
      (fun t => ((t.status, t.cfgErr, t.lc), (t.clkPin, t.datPin, t.tr))) =
      some ((.ok, false, .constructed), (3, 35, [])) := by
  decide

/-- Pin 54 is out of range: the error is reported, the pins and the check stay latched (2.5). -/
theorem test_construct_out_of_range :
    (nextState (step (atPort testPower (bytesOfWord 0x00003600#32)))).map
      (fun t => ((t.status, t.cfgErr, t.lc), (t.clkPin, t.datPin, t.tr))) =
      some ((.configurationError, true, .constructed), (54, 0, [])) := by
  decide

/-- Both pins in one pre-populated control word: the second read sees the first write (program 1, events 0 to 7). -/
theorem test_initialise_shared_word :
    (nextState (step (atPort { testConstructed with block := [(4, 0x24#8), (5, 0x49#8), (6, 0x92#8), (7, 0x24#8)] }
      (bytesOfWord 0x40000000#32)))).map (fun t => (t.status, t.lc, t.fsel 1, t.tr)) =
      some (.ok, .ready, 0x24924909#32,
        [.openEv .ok, .mapEv 0x20200000 4096 .ok, .rd32 0x04 0x24924924#32, .wr32 0x04 0x2492490C#32,
         .rd32 0x04 0x2492490C#32, .wr32 0x04 0x24924909#32, .wr32 0x28 0x00000800#32, .wr32 0x28 0x00000400#32]) := by
  decide

/-- MAP fails, CLOSE fails: MappingFailure, nothing held (2.6 row 4). -/
theorem test_initialise_map_fails :
    (nextState (step (atPort { testConstructed with answers := [.ok, .fail, .fail] } (bytesOfWord 0x40000000#32)))).map
      (fun t => (t.status, t.lc, t.sessionValid, t.mapped, t.tr)) =
      some (.mappingFailure, .constructed, false, false,
        [.openEv .ok, .mapEv 0x20200000 4096 .fail, .closeEv .fail]) := by
  decide

/-- SEND of `0x80` on pins 3 and 35: the first bit is a one, the last event is the idle restore (program 5). -/
theorem test_send_equal_masks :
    (nextState (step (atPort testReady335 (bytesOfWord 0x80000001#32 ++ [0x80#8])))).map
      (fun t => ((t.status, (t.tr.drop 2).length, (t.tr.drop 2).take 7), (t.tr.getLast?, t.levelOf 3, t.levelOf 35))) =
      some ((.ok, 49,
        [.wr32 0x20 0x00000008#32, .delay .settle, .wr32 0x1C 0x00000008#32, .delay .high, .wr32 0x28 0x00000008#32,
         .delay .low, .wr32 0x2C 0x00000008#32]),
        (some (.wr32 0x2C 0x00000008#32), false, false)) := by
  decide

/-- SEND before INITIALIZE: PreconditionViolation and no event (program 2). -/
theorem test_send_too_early :
    (nextState (step (atPort testConstructed (bytesOfWord 0x80000001#32 ++ [0x01#8])))).map
      (fun t => (t.status, t.lc, t.tr)) = some (.preconditionViolation, .constructed, []) := by
  decide

/-- TEARDOWN from READY with both answers `fail`: both flags cleared (2.8). -/
theorem test_teardown_answers_ignored :
    (nextState (step (atPort { testReady with answers := [.fail, .fail] } (bytesOfWord 0xC0000000#32)))).map
      (fun t => (t.status, t.lc, t.sessionValid, t.mapped, t.tr.drop 2)) =
      some (.ok, .tornDown, false, false, [.unmapEv .fail, .closeEv .fail]) := by
  decide

/-- TEARDOWN with no instance: a no-op that leaves ABSENT (2.8). -/
theorem test_teardown_absent :
    (nextState (step (atPort testPower (bytesOfWord 0xC0000000#32)))).map (fun t => (t.status, t.lc, t.tr)) =
      some (.ok, .absent, []) := by
  decide

/-- The first instruction after reset, on any platform. -/
theorem test_first_step :
    (nextState (step (State.reset.withFetchWord 32 0x40000000))).map (fun t => (t.status, t.lc)) =
      some (.preconditionViolation, .absent) := by
  decide

/-! ### The invariant of the witness states -/

theorem testPower_inv : testPower.Inv := by
  constructor <;> first | decide | simp [testPower, State.powerOn, State.PhaseInv, Seq.idle]

theorem testConstructed_inv : testConstructed.Inv := by
  constructor <;> first | decide | simp [testConstructed, testPower, State.powerOn, State.PhaseInv, Seq.idle]

theorem testBadPins_inv : testBadPins.Inv := by
  constructor <;> first | decide | simp [testBadPins, testPower, State.powerOn, State.PhaseInv, Seq.idle]

theorem testReady_inv : testReady.Inv := by
  constructor <;> first | decide | simp [testReady, testPower, State.powerOn, State.PhaseInv, Seq.idle, AccessOk]

theorem testReady335_inv : testReady335.Inv := by
  constructor <;> first
    | decide
    | simp [testReady335, testReady, testPower, State.powerOn, State.PhaseInv, Seq.idle, AccessOk]

theorem testTornDown_inv : testTornDown.Inv := by
  constructor <;> first
    | decide
    | simp [testTornDown, testReady, testPower, State.powerOn, State.PhaseInv, Seq.idle, AccessOk]

theorem testRising_inv : testRising.Inv := by
  constructor <;> first
    | decide
    | (show testRising.Sending ∧ testRising.levelOf testRising.clk = false ∧
        testRising.levelOf testRising.dat = testRising.currentBit
       decide)
    | simp [testRising, testReady, testPower, State.powerOn, AccessOk]

theorem testConfiguring_inv_iClkWr : (testConfiguring .iClkWr).Inv := by
  constructor <;> first
    | decide
    | (show (testConfiguring .iClkWr).Configuring ∧ (testConfiguring .iClkWr).MasksSet
       decide)
    | simp [testConfiguring, testReady, testPower, State.powerOn, AccessOk]

theorem testConfiguring_inv_iDatWr : (testConfiguring .iDatWr).Inv := by
  constructor <;> first
    | decide
    | (show (testConfiguring .iDatWr).Configuring ∧ (testConfiguring .iDatWr).MasksSet ∧
        (testConfiguring .iDatWr).IsOutput (testConfiguring .iDatWr).clk ∧
        (fselw ex1 11 = fselw ex1 10 → fieldAt (testConfiguring .iDatWr).hold (fselsh ex1 11) = ex1.fselOutput)
       decide)
    | simp [testConfiguring, testReady, testPower, State.powerOn, AccessOk]

/-- The invariant does not look at the scripts or at the port. -/
theorem inv_scripts {s : State} (h : s.Inv) (answers : List Answer) (env : List (List EnvMove)) (bytes : List Byte) :
    { s with answers := answers, env := env, cmdIn := bytes }.Inv :=
  ⟨h.blockWf, h.levelLength, h.idleSeq, h.busyPhase, h.pendingCloses, h.cfgErrLatched, h.readyPins, h.quiescent,
    h.idleLevels, h.phase, h.opens, h.maps, h.accesses⟩

/-- The scripted environment of the witness states does nothing. -/
theorem test_quiet : testReady.Quiet 49 ∧ testConstructed.Quiet 8 := by
  unfold State.Quiet
  decide

/-! ### Witnesses: the hypotheses of each statement can be met together -/

theorem test_witness_DecodeOfEncodeGivesTheCommand :
    (Instr.construct 0 255).WellFormed ∧ Instr.initialise.WellFormed ∧ (Instr.send []).WellFormed ∧
    (Instr.send [0xA5#8]).WellFormed ∧ Instr.teardown.WellFormed := by
  decide

theorem test_witness_EncodeOfDecodeGivesTheBytes :
    decode [0x0A#8, 0x0B#8, 0x00#8, 0x00#8, 0x77#8] = .command (.construct 11 10) [0x77#8] ∧
    decode [0x01#8, 0x00#8, 0x00#8, 0x80#8, 0xA5#8, 0x77#8] = .command (.send [0xA5#8]) [0x77#8] := by
  decide

/-- One word for each clause, with the lowest must-be-zero bit set. -/
theorem test_witness_ReservedWordIsRefused :
    (testPower.busy = false ∧ (atPort testPower (bytesOfWord 0x00010000#32 ++ [])).cmdIn = bytesOfWord 0x00010000#32 ++ []) ∧
    ((0x00010000#32).extractLsb' 30 2 = 0b00#2 ∧ (0x00010000#32).extractLsb' 16 14 ≠ 0#14) ∧
    ((0x40000001#32).extractLsb' 30 2 = 0b01#2 ∧ (0x40000001#32).extractLsb' 0 30 ≠ 0#30) ∧
    ((0xC0000001#32).extractLsb' 30 2 = 0b11#2 ∧ (0xC0000001#32).extractLsb' 0 30 ≠ 0#30) := by
  decide

/-- One byte too few for each clause. -/
theorem test_witness_IncompleteCommandWaits :
    ((atPort testPower (bytesOfWord 0x80000002#32 ++ [0x00#8])).cmdIn = bytesOfWord 0x80000002#32 ++ [0x00#8] ∧
      testPower.busy = false ∧ (0x80000002#32).extractLsb' 30 2 = 0b10#2 ∧
      [0x00#8].length < ((0x80000002#32).extractLsb' 0 30).toNat) ∧
    (atPort testPower [0x00#8, 0x00#8, 0x00#8]).busy = false ∧
      (atPort testPower [0x00#8, 0x00#8, 0x00#8]).cmdIn.length < 4 := by
  decide

theorem test_witness_StepRunsTheDecodedCommand :
    (atPort testReady (encode (.send [0xA5#8]))).busy = false ∧
    decode (atPort testReady (encode (.send [0xA5#8]))).cmdIn = .command (.send [0xA5#8]) [] := by
  decide

theorem test_witness_CommandInProgressExcludesOthers : testRising.busy = true := rfl

/-- States with no command in progress in every lifecycle state: the hypothesis of the statements about accepted
commands in any state. -/
theorem test_witness_EveryCommandRunsToCompletion :
    (testPower.busy = false ∧ testPower.lc = .absent) ∧ (testConstructed.busy = false ∧ testConstructed.lc = .constructed) ∧
    (testReady.busy = false ∧ testReady.lc = .ready) ∧ (testTornDown.busy = false ∧ testTornDown.lc = .tornDown) := by
  decide

/-- Both cases of CONSTRUCT, and both outcomes of the check at the edge of the range. -/
theorem test_witness_ConstructResult :
    (testReady.busy = false ∧ testReady.lc ≠ .absent) ∧ (testPower.busy = false ∧ testPower.lc = .absent) ∧
    PinValid ex1 0 ∧ PinValid ex1 53 ∧ ¬ PinValid ex1 54 ∧ ¬ PinValid ex1 (-1) := by
  decide

theorem test_witness_ConfigurationErrorTouchesNothing :
    (testPower.busy = false ∧ testPower.lc = .absent ∧ ((5 : Int) = 5) ∧ ¬ PinValid testPower.cfg.val 54 ∧
      ¬ PinValid testPower.cfg.val (-1)) ∧
    (testBadPins.busy = false ∧ testBadPins.lc = .constructed ∧ testBadPins.cfgErr = true) := by
  decide

theorem test_witness_InitialiseRefinesBigStep : testConstructed.busy = false := rfl

theorem test_witness_InitialiseChecksInOrder :
    (testTornDown.busy = false ∧ testTornDown.lc ≠ .constructed) ∧
    (testBadPins.busy = false ∧ testBadPins.cfgErr = true) := by
  decide

theorem test_witness_InitialiseSuccess :
    testConstructed.Inv ∧ testConstructed.busy = false ∧ testConstructed.lc = .constructed ∧
    testConstructed.cfgErr = false ∧ testConstructed.nextAnswer = .ok ∧ testConstructed.openReq.2.nextAnswer = .ok :=
  ⟨testConstructed_inv, by decide⟩

/-- Pins 11 and 10 share control word 1 of the six; bit 31 is in neither field. -/
theorem test_witness_InitialisePreservesOtherPins :
    (testConstructed.Inv ∧ testConstructed.Quiet 8) ∧ testConstructed.busy = false ∧
    testConstructed.lc = .constructed ∧ testConstructed.cfgErr = false ∧ testConstructed.nextAnswer = .ok ∧
    testConstructed.openReq.2.nextAnswer = .ok ∧ 5 < testConstructed.cfg.val.nf ∧
    fseloff ex1 testConstructed.clk = 4 ∧ fseloff ex1 testConstructed.dat = 4 :=
  ⟨⟨testConstructed_inv, test_quiet.2⟩, by decide⟩

theorem test_witness_InitialiseMappingFailure :
    ({ testConstructed with answers := [.fail], env := [], cmdIn := [] }.Inv ∧
      { testConstructed with answers := [.ok, .fail], env := [[], [], []], cmdIn := [] }.Inv) ∧
    State.nextAnswer { testConstructed with answers := [.fail], env := [], cmdIn := [] } = .fail ∧
    State.nextAnswer { testConstructed with answers := [.ok, .fail], env := [[], [], []], cmdIn := [] } = .ok ∧
    State.nextAnswer (State.openReq { testConstructed with answers := [.ok, .fail], env := [[], [], []], cmdIn := [] }).2 =
      .fail ∧
    testConstructed.busy = false ∧ testConstructed.lc = .constructed ∧ testConstructed.cfgErr = false :=
  ⟨⟨inv_scripts testConstructed_inv _ _ _, inv_scripts testConstructed_inv _ _ _⟩, by decide⟩

theorem test_witness_FailedInitialiseCanBeRetried :
    { testConstructed with answers := [.ok, .fail, .fail, .ok, .ok], env := [], cmdIn := [] }.Inv ∧
    testConstructed.busy = false ∧ testConstructed.lc = .constructed ∧ testConstructed.cfgErr = false :=
  ⟨inv_scripts testConstructed_inv _ _ _, by decide⟩

theorem test_witness_NewOutputShowsTheOldLatch :
    ((testConfiguring .iClkWr).Inv ∧ (testConfiguring .iDatWr).Inv) ∧
    ((testConfiguring .iClkWr).busy = true ∧ (testConfiguring .iClkWr).seq.phase = .iClkWr) ∧
    ((testConfiguring .iDatWr).busy = true ∧ (testConfiguring .iDatWr).seq.phase = .iDatWr) :=
  ⟨⟨testConfiguring_inv_iClkWr, testConfiguring_inv_iDatWr⟩, by decide⟩

theorem test_witness_ControlWriteLosesConcurrentChange :
    MemoryWf (testConfiguring .iClkWr).block ∧ (testConfiguring .iClkWr).seq.phase = .iClkWr ∧
    PinValid (testConfiguring .iClkWr).cfg.val (testConfiguring .iClkWr).clkPin := by
  decide

theorem test_witness_TeardownRefinesBigStep : testReady.busy = false := rfl

theorem test_witness_TeardownReleasesWhatIsHeld :
    (testReady.Inv ∧ testReady.Quiet 2) ∧ testReady.busy = false ∧ testReady.lc = .ready :=
  ⟨⟨testReady_inv, fun k hk => test_quiet.1 k (by omega)⟩, by decide⟩

theorem test_witness_TeardownWithNothingHeld :
    (testPower.Inv ∧ testConstructed.Inv ∧ testTornDown.Inv) ∧
    (testPower.busy = false ∧ testPower.lc ≠ .ready) ∧ (testConstructed.busy = false ∧ testConstructed.lc ≠ .ready) ∧
    (testTornDown.busy = false ∧ testTornDown.lc ≠ .ready) :=
  ⟨⟨testPower_inv, testConstructed_inv, testTornDown_inv⟩, by decide⟩

theorem test_witness_SecondTeardownIsNoOp : testReady.busy = false ∧ ∃ t, exec .teardown testReady = .next t :=
  ⟨rfl, _, rfl⟩

theorem test_witness_TeardownLeavesNothingHeld :
    testReady.Inv ∧ testReady.busy = false ∧ ∃ t, exec .teardown testReady = .next t :=
  ⟨testReady_inv, rfl, _, rfl⟩

theorem test_witness_InitialiseThenTeardownBalances :
    PinValid ex1Platform.val 0 ∧ PinValid ex1Platform.val 53 ∧ (0 : Int) ≠ 53 := by
  decide

theorem test_witness_SendRefinesBigStep : testReady.busy = false := rfl

/-- The hypotheses of the statements about a SEND accepted in READY, on pins that share a word and on pins that do
not. -/
theorem test_witness_SendResult :
    (testReady.Inv ∧ testReady.busy = false ∧ testReady.lc = .ready) ∧
    (testReady335.Inv ∧ testReady335.busy = false ∧ testReady335.lc = .ready) :=
  ⟨⟨testReady_inv, by decide⟩, testReady335_inv, by decide⟩

theorem test_witness_SendLeavesLinesIdle :
    testReady.Inv ∧ testReady.Quiet (sendTrace testReady [0xA5#8]).length ∧ testReady.busy = false ∧
    testReady.lc = .ready :=
  ⟨testReady_inv, test_quiet.1, by decide⟩

theorem test_witness_SendOutsideReady :
    (testPower.busy = false ∧ testPower.lc ≠ .ready) ∧ (testConstructed.busy = false ∧ testConstructed.lc ≠ .ready) ∧
    (testTornDown.busy = false ∧ testTornDown.lc ≠ .ready) := by
  decide

theorem test_witness_EmptySendDoesNothing :
    (testReady.Inv ∧ testReady.busy = false ∧ testReady.lc = .ready) ∧
    (testTornDown.Inv ∧ testTornDown.busy = false ∧ testTornDown.lc ≠ .ready) :=
  ⟨⟨testReady_inv, by decide⟩, testTornDown_inv, by decide⟩

theorem test_witness_SendCounts : testReady335.Inv ∧ testReady335.busy = false ∧ testReady335.lc = .ready :=
  ⟨testReady335_inv, by decide⟩

/-- The third event of a bit is the clock set write the statement speaks of. -/
theorem test_witness_DataSettledBeforeEveryRisingEdge :
    testReady.Inv ∧ testReady.busy = false ∧ testReady.lc = .ready ∧
    (sendTrace testReady [0xA5#8])[2]? = some (.wr32 (setoff testReady.cfg.val testReady.clk) testReady.clkMask) :=
  ⟨testReady_inv, by decide⟩

theorem test_witness_ReceiverReadsTheBytes : testReady.Inv ∧ testReady.busy = false ∧ testReady.lc = .ready :=
  ⟨testReady_inv, by decide⟩

theorem test_witness_RisingEdgeShowsTheBit :
    testRising.Inv ∧ testRising.busy = true ∧ testRising.seq.phase = .sClkHi :=
  ⟨testRising_inv, by decide⟩

theorem test_witness_SendTakesAtLeast : testReady.busy = false ∧ testReady.lc = .ready := by decide

theorem test_witness_BitSelection : 0 < 8 ∧ 7 < 8 := by decide

theorem test_witness_ReadReturnsTheControlWord : 5 < testReady.cfg.val.nf := by decide

/-- The last control word, with an address just below it and one just above it. -/
theorem test_witness_WriteReplacesTheControlWord :
    MemoryWf testReady.block ∧ 5 < testReady.cfg.val.nf ∧ 19 < ctrlWordOff testReady.cfg.val 5 ∧
    ctrlWordOff testReady.cfg.val 5 + 4 ≤ 24 := by
  decide

theorem test_witness_SetWriteDrivesLinesHigh :
    testReady.level.length = testReady.cfg.val.pinCount ∧ 1 < testReady.cfg.val.nw ∧ 53 < testReady.cfg.val.pinCount := by
  decide

theorem test_witness_ClearWriteDrivesLinesLow :
    testReady.level.length = testReady.cfg.val.pinCount ∧ 1 < testReady.cfg.val.nw ∧ 32 < testReady.cfg.val.pinCount := by
  decide

theorem test_witness_OutputWordKeepsOtherBits : ex1.WellFormed ∧ 53 < ex1.pinCount ∧ 31 < 32 := by decide

/-- An owned line for the first clause; a line of the same control word that is not owned, with a slot that rewrites
it, for the last. -/
theorem test_witness_EnvironmentReachesForeignLinesOnly :
    (MemoryWf testReady.block ∧ testReady.owns 11 = true ∧ testReady.owns 10 = true) ∧
    (testReady.level.length = testReady.cfg.val.pinCount ∧ 12 < testReady.cfg.val.pinCount ∧ testReady.owns 12 = false) ∧
    { testReady with env := [[.field 12 0b111#3, .latch 12 true]] }.env.head? = some [.field 12 0b111#3, .latch 12 true] := by
  decide

theorem test_witness_OperandAssembly : ex1.WellFormed ∧ 53 < ex1.pinCount := by decide

/-- A whole command at the port, and a micro-step inside one. -/
theorem test_witness_StepKeepsTheInvariant :
    ((atPort testReady (encode .teardown)).Inv ∧ ∃ t, step (atPort testReady (encode .teardown)) = .next t) ∧
    (testRising.Inv ∧ ∃ t, step testRising = .next t) :=
  ⟨⟨inv_scripts testReady_inv testReady.answers testReady.env _, _, rfl⟩, testRising_inv, _, rfl⟩

theorem test_witness_AcceptingKeepsTheInvariant : testReady.Inv ∧ testReady.busy = false := ⟨testReady_inv, rfl⟩

theorem test_witness_LifecycleTableHolds : testBadPins.busy = false ∧ testBadPins.cfgErr = true := by decide

theorem test_witness_PinsImmutableAfterConstruction :
    (∃ t, step (atPort testConstructed (encode .initialise)) = .next t) ∧ testConstructed.lc ≠ .absent :=
  ⟨⟨_, rfl⟩, by decide⟩

theorem test_witness_MasksWrittenByInitialiseOnly :
    (testReady.busy = false ∧ ∃ t, exec .teardown testReady = .next t) ∧
    (testBadPins.busy = false ∧ ∃ t, exec .initialise testBadPins = .next t ∧ t.status ≠ .ok) :=
  ⟨⟨rfl, _, rfl⟩, rfl, _, rfl, by decide⟩

theorem test_witness_TraceOnlyGrows : ∃ t, step (atPort testReady (encode .teardown)) = .next t := ⟨_, rfl⟩

theorem test_witness_MicroStepDoesAtMostOneThing : testRising.Inv ∧ testRising.busy = true := ⟨testRising_inv, rfl⟩

theorem test_witness_EngineAccessesOwnWordsOnly : testRising.Inv ∧ ∃ t, step testRising = .next t :=
  ⟨testRising_inv, _, rfl⟩

theorem test_witness_OnlySendDrivesALineHigh :
    (testConstructed.Inv ∧ testConstructed.busy = false ∧ ∃ t, exec .initialise testConstructed = .next t) ∧
    testConstructed.lc ≠ .ready ∧ 0 < testConstructed.cfg.val.nw :=
  ⟨⟨testConstructed_inv, rfl, _, rfl⟩, by decide⟩

theorem test_witness_TornDownIsFinal : testTornDown.Inv ∧ testTornDown.busy = false ∧ testTornDown.lc = .tornDown :=
  ⟨testTornDown_inv, by decide⟩

theorem test_witness_EnvironmentNeverDecidesTheCommand :
    testReady.Inv ∧ testReady.busy = false ∧ ∃ t, exec (.send [0xA5#8]) testReady = .next t :=
  ⟨testReady_inv, rfl, _, rfl⟩

/-- A well-formed configuration, and one that fails the last clause only: the set and clear regions meet. -/
theorem test_witness_OnlyWellFormedConfigurationsMakeAMachine :
    ex1.WellFormed ∧ (∃ s, State.configure ex1 = .next s) ∧ cfgAccepted { ex1 with clrOff := 0x20 } = false :=
  ⟨ex1_wellFormed, ⟨_, State.configure_wellFormed ex1 ex1_wellFormed⟩, by decide⟩

end Sys2Proof.Machine
end

