-- ==== Sys2Proof/Proofs/Configuration.lean ====
section
/-!
Building a machine on a configuration (00_scope.md R12): the platform's configuration is what the built machine holds.
-/

namespace Sys2Proof.Machine

@[simp] theorem State.powerOn_cfg (c : Platform) : (State.powerOn c).cfg = c := rfl

/-- A machine that was built holds the configuration it was built on, which is therefore well formed. -/
theorem State.configure_holds_configuration (c : Cfg) (s : State) (h : State.configure c = .next s) :
    s.cfg.val = c ∧ c.WellFormed := by
  obtain ⟨w, rfl⟩ := State.configure_cases c s h
  exact ⟨congrArg Subtype.val (State.powerOn_cfg ⟨c, w⟩), w⟩

/-- Building a machine on a powered-on machine's own configuration gives that machine again. -/
theorem State.configure_powerOn_cfg (p : Platform) :
    State.configure (State.powerOn p).cfg.val = .next (State.powerOn p) := by
  rw [State.powerOn_cfg]
  exact State.configure_wellFormed p.val p.property

/-- Settles O57: the two branches of `State.configure`, its inversion, and the reset state as a powered-on one. -/
theorem onlyWellFormedConfigurationsMakeAMachine : Obligations.OnlyWellFormedConfigurationsMakeAMachine := by
  unfold Obligations.OnlyWellFormedConfigurationsMakeAMachine
  exact ⟨State.configure_wellFormed, State.configure_illFormed, State.configure_holds_configuration,
    State.configure_powerOn_cfg Config.platform⟩

end Sys2Proof.Machine
end

