-- ==== Sys2Proof/Proofs/Commands.lean ====
section
/-!
A command as its accept row and its micro-steps (10_state.md R31, R32), one rule for what every step does to a
relation between states, and each whole command as the big-step pseudocode of 40_lifecycle.md and 41_send.md.
-/

namespace Sys2Proof.Machine

/-! ### A command is its accept row, then micro-steps -/

/-- The state after the accept row of a command (40_lifecycle.md R110, R112, R117; 41_send.md R146). -/
def acceptRow (i : Instr) (s : State) : State :=
  match i with
  | .construct clk dat => construct clk dat s
  | .initialise => acceptInitialise s
  | .send bytes => acceptSend bytes s
  | .teardown => acceptTeardown s

/-- The micro-steps a command may take; CONSTRUCT takes none. -/
def microBudget (i : Instr) : Nat :=
  match i with
  | .construct _ _ => 0
  | .initialise => initialiseBudget
  | .send bytes => sendBudget bytes.length
  | .teardown => teardownBudget

theorem exec_eq_runCommand (i : Instr) (s : State) (hb : s.busy = false) :
    exec i s = .next (runCommand (microBudget i) (acceptRow i s)) := by
  cases i with
  | construct clk dat => simp [exec, execConstruct, hb, microBudget, acceptRow, runCommand]
  | initialise => simp [exec, execInitialise, hb, microBudget, acceptRow]
  | send bytes => simp [exec, execSend, hb, microBudget, acceptRow]
  | teardown => simp [exec, execTeardown, hb, microBudget, acceptRow]

/-- A command in progress excludes every other (10_state.md R32). -/
theorem exec_busy (i : Instr) (s : State) (hb : s.busy = true) : exec i s = .refused .commandInProgress := by
  cases i with
  | construct clk dat => simp [exec, execConstruct, hb]
  | initialise => simp [exec, execInitialise, hb]
  | send bytes => simp [exec, execSend, hb]
  | teardown => simp [exec, execTeardown, hb]

theorem exec_cases {i : Instr} {s t : State} (h : exec i s = .next t) :
    s.busy = false ∧ t = runCommand (microBudget i) (acceptRow i s) := by
  cases hb : s.busy with
  | true => simp [exec_busy i s hb] at h
  | false => exact ⟨rfl, by simpa [exec_eq_runCommand i s hb] using h.symm⟩

theorem step_busy (s : State) (hb : s.busy = true) : step s = .next (microStep s) := if_pos hb

/-- What a step that answers a next state is: a micro-step, or a whole command on the state in which it was taken. -/
theorem step_cases {s t : State} (h : step s = .next t) :
    (s.busy = true ∧ t = microStep s) ∨
    (s.busy = false ∧ ∃ i rest, decode s.cmdIn = .command i rest ∧
      t = runCommand (microBudget i) (acceptRow i (s.taken rest))) := by
  cases hb : s.busy with
  | true => exact .inl ⟨rfl, by simpa [step_busy s hb] using h.symm⟩
  | false =>
    rw [step, if_neg (by simp [hb])] at h
    cases hd : decode s.cmdIn with
    | command i rest =>
      rw [hd] at h
      exact .inr ⟨rfl, i, rest, rfl, (exec_cases h).2⟩
    | incompleteWord => simp [hd, stepDecoded] at h
    | incompletePayload => simp [hd, stepDecoded] at h
    | reservedBits => simp [hd, stepDecoded] at h

/-! ### What every step does to a relation -/

section Related

variable {R : State → State → Prop} (refl : ∀ s, R s s) (trans : ∀ s t u, R s t → R t u → R s u)
  (micro : ∀ s, s.busy = true → R s (microStep s))

include refl trans micro

/-- Running a command relates two states when every micro-step does. -/
theorem runCommand_related (n : Nat) (s : State) : R s (runCommand n s) := by
  induction n generalizing s with
  | zero => exact refl s
  | succ n ih =>
    rw [runCommand]
    split
    next hb => exact trans _ _ _ (micro s hb) (ih _)
    next => exact refl s

/-- A step relates two states when taking a command, every accept row and every micro-step do. -/
theorem step_related (taken : ∀ s rest, s.busy = false → R s (s.taken rest))
    (accept : ∀ i s, s.busy = false → R s (acceptRow i s)) {s t : State} (h : step s = .next t) : R s t := by
  rcases step_cases h with ⟨hb, rfl⟩ | ⟨hb, i, rest, -, rfl⟩
  · exact micro s hb
  · exact trans _ _ _ (taken s rest hb)
      (trans _ _ _ (accept i _ hb) (runCommand_related refl trans micro _ _))

end Related

/-- Settles O7, by the first branch of `step` and the guard of each meaning. -/
theorem commandInProgressExcludesOthers : Obligations.CommandInProgressExcludesOthers := by
  unfold Obligations.CommandInProgressExcludesOthers
  exact fun s hb => ⟨step_busy s hb, fun i => exec_busy i s hb⟩

/-! ### Whole commands as the big-step pseudocode -/

theorem State.release_held (s : State) (h : s.sessionValid = true) :
    s.release = s.closeReq.2.setSession false := if_pos h

theorem State.release_nothing (s : State) (h : s.sessionValid = false) : s.release = s := if_neg (by simp [h])

theorem State.unmapIfMapped_nothing (s : State) (h : s.mapped = false) : s.unmapIfMapped = s := if_neg (by simp [h])

/-! CONSTRUCT (40_lifecycle.md R110). -/

theorem construct_wrongState (clk dat : Int) (s : State) (hl : s.lc ≠ .absent) :
    construct clk dat s = s.finish .preconditionViolation := if_pos hl

theorem construct_absent (clk dat : Int) (s : State) (hl : s.lc = .absent) :
    construct clk dat s =
      (s.latchPins clk dat).finish (if configError s.cfg.val clk dat then .configurationError else .ok) := by
  rw [construct, if_neg (not_not_intro hl)]
  split <;> rfl

/-! INITIALIZE ends in one of five ways (40_lifecycle.md R111, 60_exceptions.md R175). -/

theorem bigInitialise_wrongState (s : State) (hl : s.lc ≠ .constructed) :
    bigInitialise s = s.finish .preconditionViolation := if_pos hl

theorem bigInitialise_badPins (s : State) (hl : s.lc = .constructed) (he : s.cfgErr = true) :
    bigInitialise s = s.finish .configurationError := by
  rw [bigInitialise, if_neg (not_not_intro hl), if_pos he]

theorem bigInitialise_openFails (s : State) (hl : s.lc = .constructed) (he : s.cfgErr = false)
    (ho : s.nextAnswer = .fail) : bigInitialise s = s.openReq.2.finish .mappingFailure := by
  rw [bigInitialise, if_neg (not_not_intro hl), if_neg (by simp [he]), State.openReq_eq, ho]

theorem bigInitialise_mapFails (s : State) (hl : s.lc = .constructed) (he : s.cfgErr = false)
    (ho : s.nextAnswer = .ok) (hm : (s.openReq.2.setSession true).nextAnswer = .fail) :
    bigInitialise s =
      ((s.openReq.2.setSession true).mapReq.2.closeReq.2.setSession false).finish .mappingFailure := by
  rw [bigInitialise, if_neg (not_not_intro hl), if_neg (by simp [he]), State.openReq_eq, ho]
  dsimp only
  rw [State.mapReq_eq, hm]

theorem bigInitialise_succeeds (s : State) (hl : s.lc = .constructed) (he : s.cfgErr = false)
    (ho : s.nextAnswer = .ok) (hm : (s.openReq.2.setSession true).nextAnswer = .ok) :
    bigInitialise s = bigConfigure ((s.openReq.2.setSession true).mapReq.2.setMapped true) := by
  rw [bigInitialise, if_neg (not_not_intro hl), if_neg (by simp [he]), State.openReq_eq, ho]
  dsimp only
  rw [State.mapReq_eq, hm]

/-- INITIALIZE from its first phase on (40_lifecycle.md R112). -/
theorem runCommand_iOpen (s : State) (hl : s.lc = .constructed) (he : s.cfgErr = false) :
    runCommand initialiseBudget (s.control true ⟨.iOpen, 0, 0⟩ s.pending) = bigInitialise s := by
  rw [initialiseBudget, runCommand_busy]
  cases ho : s.nextAnswer with
  | fail => rw [microStep_iOpen_fail _ _ _ ho, runCommand_idle _ _ rfl, bigInitialise_openFails s hl he ho]
  | ok =>
    rw [microStep_iOpen_ok _ _ _ ho, runCommand_busy]
    cases hm : (s.openReq.2.setSession true).nextAnswer with
    | fail =>
      rw [microStep_iMap_fail _ _ _ hm, runCommand_busy, microStep_tClose_some, runCommand_idle _ _ rfl,
        State.release_held _ rfl, bigInitialise_mapFails s hl he ho hm]
      rfl
    | ok =>
      simp only [microStep_iMap_ok _ _ _ hm, runCommand_busy, microStep_iMasks, microStep_iClkRd, microStep_iClkWr,
        microStep_iDatRd, microStep_iDatWr, microStep_iIdleClk, microStep_iIdleDat,
        bigInitialise_succeeds s hl he ho hm]
      rfl

/-- INITIALIZE as R111 writes it is INITIALIZE as R112 tabulates it. -/
theorem runCommand_acceptInitialise (s : State) :
    runCommand initialiseBudget (acceptInitialise s) = bigInitialise s := by
  by_cases hl : s.lc = .constructed
  · rw [acceptInitialise, if_neg (not_not_intro hl)]
    cases he : s.cfgErr with
    | true => exact (runCommand_idle _ _ rfl).trans (bigInitialise_badPins s hl he).symm
    | false => exact runCommand_iOpen s hl he
  · rw [acceptInitialise, if_pos hl, bigInitialise_wrongState s hl]
    exact runCommand_idle _ _ rfl

/-- SEND as 41_send.md R140 writes it is SEND as R146 tabulates it. -/
theorem runCommand_acceptSend (bytes : List Byte) (s : State) :
    runCommand (sendBudget bytes.length) (acceptSend bytes s) = bigSend bytes s := by
  rw [acceptSend, bigSend]
  split
  next => exact runCommand_idle _ _ rfl
  next =>
    cases bytes with
    | nil => exact runCommand_idle _ _ rfl
    | cons x rest =>
      rw [if_neg (by simp)]
      exact (runCommand_bytes rest.length (s.setBuf (x :: rest)) 0 s.pending (by simp)).trans
        (by simp [foldl_sendByte, sendByte_eq])

@[simp] theorem State.release_lc (s : State) : s.release.lc = s.lc := by
  unfold State.release
  split <;> rfl

@[simp] theorem State.unmapIfMapped_lc (s : State) : s.unmapIfMapped.lc = s.lc := by
  unfold State.unmapIfMapped
  split <;> rfl

theorem State.setLc_lcAfterTeardown (s : State) :
    s.setLc (lcAfterTeardown s.lc) = if s.lc ≠ .absent then s.setLc .tornDown else s := by
  by_cases h : s.lc = .absent
  · rw [lcAfterTeardown, if_pos h, if_neg (not_not_intro h), ← h]
    rfl
  · rw [lcAfterTeardown, if_neg h, if_pos h]

/-- TEARDOWN as its two phases leave it (40_lifecycle.md R116). -/
theorem bigTeardown_eq (s : State) :
    bigTeardown s = (s.unmapIfMapped.release.setLc (lcAfterTeardown s.lc)).finish .ok := by
  have hl : s.unmapIfMapped.release.lc = s.lc := by simp
  rw [← hl, State.setLc_lcAfterTeardown]
  rfl

/-- TEARDOWN as R116 writes it is TEARDOWN as R117 tabulates it. -/
theorem runCommand_acceptTeardown (s : State) : runCommand teardownBudget (acceptTeardown s) = bigTeardown s := by
  have ha : acceptTeardown s = s.control true ⟨.tUnmap, 0, 0⟩ none := rfl
  rw [teardownBudget, ha, runCommand_busy, microStep_tUnmap, runCommand_busy, microStep_tClose_none,
    runCommand_idle _ _ rfl, bigTeardown_eq, State.unmapIfMapped_lc]

/-- What a whole command does to the state. -/
def bigCommand (i : Instr) (s : State) : State :=
  match i with
  | .construct clk dat => construct clk dat s
  | .initialise => bigInitialise s
  | .send bytes => bigSend bytes s
  | .teardown => bigTeardown s

/-- Every command accepted while BUSY is 0 does what its big-step pseudocode does. -/
theorem exec_eq_bigCommand (i : Instr) (s : State) (hb : s.busy = false) : exec i s = .next (bigCommand i s) := by
  rw [exec_eq_runCommand i s hb]
  cases i with
  | construct clk dat => rfl
  | initialise => exact congrArg _ (runCommand_acceptInitialise s)
  | send bytes => exact congrArg _ (runCommand_acceptSend bytes s)
  | teardown => exact congrArg _ (runCommand_acceptTeardown s)

end Sys2Proof.Machine
end

