-- ==== Sys2Proof/Proofs/Invariant.lean ====
section
/-!
The invariant (10_state.md R26, R31), phase by phase. It is cut into three parts: the block and the pins
(`State.Wired`), the trace and the resources (`State.Balanced`), and what BUSY and SEQ say (`State.Inv.inPhase`,
`State.Inv.atRest`). A micro-operation is then one lemma for each of the first two parts, and a phase of the sequencer
is one application of the third.
-/

namespace Sys2Proof.Machine

/-! ### The parts of the invariant -/

/-- The part that speaks of the block, the latches and the pins. -/
def State.Wired (s : State) : Prop :=
  MemoryWf s.block ∧ s.level.length = s.cfg.val.pinCount ∧
  (s.lc ≠ .absent → s.cfgErr = configError s.cfg.val s.clkPin s.datPin) ∧
  (s.lc = .ready → s.cfgErr = false ∧ s.MasksSet ∧ s.IsOutput s.clk ∧ s.IsOutput s.dat)

/-- The part that speaks of the trace and of what is held. -/
def State.Balanced (s : State) : Prop :=
  s.tr.countP Event.isOpenOk = s.tr.countP Event.isClose + s.sessionValid.toNat ∧
  s.tr.countP Event.isMapOk = s.tr.countP Event.isUnmap + s.mapped.toNat ∧
  ∀ e ∈ s.tr, AccessOk s.cfg.val e

/-- They depend on the block, the latches, the pins and their check, and the masks only. -/
theorem State.Wired.of_same {s t : State} (h : s.Wired) (hb : t.block = s.block := by simp)
    (hl : t.level = s.level := by simp) (hcfg : t.cfg = s.cfg := by simp) (hlc : t.lc = s.lc := by simp)
    (he : t.cfgErr = s.cfgErr := by simp) (hk : t.clkPin = s.clkPin := by simp)
    (hd : t.datPin = s.datPin := by simp) (hkm : t.clkMask = s.clkMask := by simp)
    (hdm : t.datMask = s.datMask := by simp) : t.Wired := by
  cases s
  cases t
  subst hb hl hcfg hlc he hk hd hkm hdm
  exact h

/-- It depends on the trace, the two flags of what is held, and the configuration only. -/
theorem State.Balanced.of_same {s t : State} (h : s.Balanced) (ht : t.tr = s.tr := by simp)
    (hs : t.sessionValid = s.sessionValid := by simp) (hm : t.mapped = s.mapped := by simp)
    (hcfg : t.cfg = s.cfg := by simp) : t.Balanced := by
  simpa only [State.Balanced, ht, hs, hm, hcfg] using h

theorem State.Inv.wired {s : State} (h : s.Inv) : s.Wired :=
  ⟨h.blockWf, h.levelLength, h.cfgErrLatched, h.readyPins⟩

theorem State.Inv.balanced {s : State} (h : s.Inv) : s.Balanced := ⟨h.opens, h.maps, h.accesses⟩

/-- The invariant of a state inside a command. -/
theorem State.Inv.inPhase {s : State} (hw : s.Wired) (ht : s.Balanced) (hb : s.busy = true)
    (hq : s.seq.phase ≠ .idle) (he : s.pending = none ∨ s.seq.phase = .tClose) (hp : s.PhaseInv) : s.Inv := by
  obtain ⟨hm, hl, hc, hr⟩ := hw
  obtain ⟨ho, hu, ha⟩ := ht
  have hn : s.busy ≠ false := by simp [hb]
  exact ⟨hm, hl, fun h => absurd h hn, fun _ => hq, he.resolve_left, hc, hr, fun h => absurd h hn,
    fun h => absurd h hn, hp, ho, hu, ha⟩

/-- The invariant of a state between two commands (10_state.md R26, R30). -/
theorem State.Inv.atRest {s : State} (hw : s.Wired) (ht : s.Balanced) (hb : s.busy = false) (hq : s.seq = Seq.idle)
    (he : s.pending = none) (hh : s.mapped = s.sessionValid ∧ (s.mapped = true ↔ s.lc = .ready))
    (hv : s.lc = .ready → s.levelOf s.clk = false ∧ s.levelOf s.dat = false) : s.Inv := by
  obtain ⟨hm, hl, hc, hr⟩ := hw
  obtain ⟨ho, hu, ha⟩ := ht
  have hp : s.PhaseInv := by simp [State.PhaseInv, hq, Seq.idle]
  exact ⟨hm, hl, fun _ => hq, fun h => absurd h (by simp [hb]), fun h => absurd he h, hc, hr, fun _ => hh,
    fun _ => hv, hp, ho, hu, ha⟩

theorem State.Inv.pending_none {s : State} (h : s.Inv) (hp : s.seq.phase ≠ .tClose) : s.pending = none :=
  Classical.not_not.1 fun he => hp (h.pendingCloses he)

/-- READY comes with good pins (10_state.md R28). -/
theorem State.Inv.readyGood {s : State} (h : s.Inv) (hl : s.lc = .ready) : s.GoodPins :=
  h.goodPins (.inr hl) (h.readyPins hl).1

/-! ### The block and the pins after one micro-operation -/

/-- The environment's slot keeps them: it reaches no owned line (20_memory.md R68). -/
theorem State.Inv.envTick_wired {s : State} (h : s.Inv) : s.envTick.Wired := by
  refine ⟨s.envTick_wf h.blockWf, s.envTick_level_length.trans h.levelLength, h.cfgErrLatched, fun hl => ?_⟩
  obtain ⟨hc, hm, hk, hd⟩ := h.readyPins hl
  have g := h.readyGood hl
  exact ⟨hc, hm, (s.envTick_fieldOf h.blockWf _ g.clkOwned).trans hk,
    (s.envTick_fieldOf h.blockWf _ g.datOwned).trans hd⟩

/-- A write keeps them, if in READY it leaves the fields of the owned lines. -/
theorem State.Inv.wr32_wired {s : State} (h : s.Inv) (off : Nat) (v : Word)
    (hf : s.lc = .ready → ∀ q, s.owns q = true → (s.wr32 off v).fieldOf q = s.fieldOf q) : (s.wr32 off v).Wired := by
  refine ⟨s.wr32_wf off v h.blockWf, (s.wr32_level_length off v).trans h.levelLength, h.cfgErrLatched, fun hl => ?_⟩
  obtain ⟨hc, hm, hk, hd⟩ := h.readyPins hl
  have g := h.readyGood hl
  exact ⟨hc, hm, (hf hl _ g.clkOwned).trans hk, (hf hl _ g.datOwned).trans hd⟩

/-- A write of a pin's set or clear word leaves every owned field (20_memory.md R57, R58). -/
theorem State.wr32_dataOff_fieldOf (s : State) (hm : MemoryWf s.block) (p : Nat) (b : Bool) (v : Word)
    (hp : p < s.cfg.val.pinCount) (q : Nat) (hq : s.owns q = true) :
    (s.wr32 (dataOff s.cfg.val p b) v).fieldOf q = s.fieldOf q := by
  cases b
  · exact s.wr32_clroff_fieldOf hm p v hp q hq
  · exact s.wr32_setoff_fieldOf hm p v hp q hq

/-- A write of a pin's mask to its set or clear word drives its latch and no other owned one (20_memory.md R57,
R58). -/
theorem State.Inv.wr32_dataOff_levelOf {s : State} (h : s.Inv) (p : Nat) (b : Bool) (v : Word) (hv : v = maskOf p)
    (hp : p < s.cfg.val.pinCount) (q : Nat) (hlt : q < s.cfg.val.pinCount) (hq : s.owns q = true) :
    (s.wr32 (dataOff s.cfg.val p b) v).levelOf q = if q = p then b else s.levelOf q := by
  subst hv
  cases b
  · exact s.wr32_clroff_levelOf p hp q h.levelLength hlt hq
  · exact s.wr32_setoff_levelOf p hp q h.levelLength hlt hq

theorem accessOk_wr32_dataOff (c : Cfg) (h : c.WellFormed) (p : Nat) (hp : p < c.pinCount) (b : Bool) (v : Word) :
    AccessOk c (.wr32 (dataOff c p b) v) := by
  cases b
  · exact accessOk_wr32_clr c h p hp v
  · exact accessOk_wr32_set c h p hp v

theorem State.Inv.wr32_dataOff_wired {s : State} (h : s.Inv) (p : Nat) (b : Bool) (v : Word)
    (hp : p < s.cfg.val.pinCount) : (s.wr32 (dataOff s.cfg.val p b) v).Wired :=
  h.wr32_wired _ v fun _ q hq => s.wr32_dataOff_fieldOf h.blockWf p b v hp q hq

/-- A control word is written before READY only. -/
theorem State.Inv.wr32_fseloff_wired {s : State} (h : s.Inv) (p : Nat) (v : Word) (hl : s.lc = .constructed) :
    (s.wr32 (fseloff s.cfg.val p) v).Wired :=
  h.wr32_wired _ v fun hr => absurd (hl.symm.trans hr) (by decide)

/-- The word that makes pin `p` an output does so (30_encoding.md R87). -/
theorem fieldAt_fselnew_same (c : Cfg) (h : c.WellFormed) (v : Word) (p : Nat) :
    fieldAt (fselnew c v p) (fselsh c p) = c.fselOutput :=
  fieldAt_insertField_same _ _ _ (fselsh_le c h p)

/-- It leaves the field of every other pin of the same word (30_encoding.md R87). -/
theorem fieldAt_fselnew_other (c : Cfg) (h : c.WellFormed) (v : Word) (p q : Nat) (hw : fselw c q = fselw c p)
    (hne : q ≠ p) : fieldAt (fselnew c v p) (fselsh c q) = fieldAt v (fselsh c q) :=
  fieldAt_insertField_other _ _ _ _ (fselsh_le c h q) (fselsh_apart c q p hw hne)

/-! ### The trace and the resources after one micro-operation -/

/-- An event that changes the balance of acquisitions by what is then held (40_lifecycle.md R118). -/
theorem State.Inv.balanced_append {s : State} (h : s.Inv) (e : Event) (sess map : Bool)
    (ho : e.isOpenOk.toNat + s.sessionValid.toNat = e.isClose.toNat + sess.toNat)
    (hu : e.isMapOk.toNat + s.mapped.toNat = e.isUnmap.toNat + map.toNat) (ha : AccessOk s.cfg.val e) :
    { s with tr := s.tr ++ [e], sessionValid := sess, mapped := map }.Balanced := by
  have count (p : Event → Bool) : (s.tr ++ [e]).countP p = s.tr.countP p + (p e).toNat := by
    cases hp : p e <;> simp [hp]
  refine ⟨?_, ?_, fun x hx => ?_⟩
  · simp only [count]
    have := h.opens
    omega
  · simp only [count]
    have := h.maps
    omega
  · rcases List.mem_append.1 hx with hx | hx
    · exact h.accesses x hx
    · exact List.mem_singleton.1 hx ▸ ha

theorem State.Inv.rd32_balanced {s : State} (h : s.Inv) (p : Nat) (hp : p < s.cfg.val.pinCount) :
    (s.rd32 (fseloff s.cfg.val p)).2.Balanced :=
  h.balanced_append _ s.sessionValid s.mapped rfl rfl (accessOk_rd32 _ s.cfg.property p hp _)

theorem State.Inv.wr32_balanced {s : State} (h : s.Inv) (off : Nat) (v : Word)
    (ha : AccessOk s.cfg.val (.wr32 off v)) : (s.wr32 off v).Balanced :=
  h.balanced_append _ s.sessionValid s.mapped rfl rfl ha

theorem State.Inv.wr32_fseloff_balanced {s : State} (h : s.Inv) (p : Nat) (v : Word)
    (hp : p < s.cfg.val.pinCount) : (s.wr32 (fseloff s.cfg.val p) v).Balanced :=
  h.wr32_balanced _ v (accessOk_wr32_fsel _ s.cfg.property p hp v)

theorem State.Inv.wr32_dataOff_balanced {s : State} (h : s.Inv) (p : Nat) (b : Bool) (v : Word)
    (hp : p < s.cfg.val.pinCount) : (s.wr32 (dataOff s.cfg.val p b) v).Balanced :=
  h.wr32_balanced _ v (accessOk_wr32_dataOff _ s.cfg.property p hp b v)

theorem State.Inv.delay_balanced {s : State} (h : s.Inv) (k : DelayKind) : (s.delay k).Balanced :=
  h.balanced_append _ s.sessionValid s.mapped rfl rfl trivial

/-! ### INITIALIZE (40_lifecycle.md R112) -/

theorem phaseOpen_ok (s : State) (h : s.nextAnswer = .ok) :
    phaseOpen s = (s.openReq.2.setSession true).goto .iMap := by
  rw [phaseOpen, State.openReq_eq, h]

theorem phaseOpen_fail (s : State) (h : s.nextAnswer = .fail) :
    phaseOpen s = s.openReq.2.raiseError .mappingFailure := by
  rw [phaseOpen, State.openReq_eq, h]

theorem phaseMap_ok (s : State) (h : s.nextAnswer = .ok) :
    phaseMap s = (s.mapReq.2.setMapped true).goto .iMasks := by
  rw [phaseMap, State.mapReq_eq, h]

theorem phaseMap_fail (s : State) (h : s.nextAnswer = .fail) :
    phaseMap s = (s.mapReq.2.setPending (some .mappingFailure)).goto .tClose := by
  rw [phaseMap, State.mapReq_eq, h]

theorem phaseOpen_inv {s : State} (h : s.Inv) (hb : s.busy = true) (hp : s.seq.phase = .iOpen) :
    (phaseOpen s).Inv := by
  obtain ⟨hl, hc, hs, hm⟩ := by simpa only [State.PhaseInv, hp] using h.phase
  have he := h.pending_none (by simp [hp])
  cases ha : s.nextAnswer with
  | ok =>
    have ht := h.balanced_append (.openEv s.nextAnswer) true s.mapped (by rw [ha, hs]; rfl) rfl trivial
    rw [phaseOpen_ok s ha]
    exact .inPhase h.envTick_wired.of_same ht.of_same (by simpa using hb) (by simp) (by simp [he])
      (by simp [State.PhaseInv, hl, hc, hm])
  | fail =>
    have ht := h.balanced_append (.openEv s.nextAnswer) s.sessionValid s.mapped (by rw [ha]; rfl) rfl trivial
    rw [phaseOpen_fail s ha]
    exact .atRest h.envTick_wired.of_same ht.of_same rfl rfl rfl (by simp [hl, hs, hm]) (by simp [hl])

theorem phaseMap_inv {s : State} (h : s.Inv) (hb : s.busy = true) (hp : s.seq.phase = .iMap) :
    (phaseMap s).Inv := by
  obtain ⟨hl, hc, hs, hm⟩ := by simpa only [State.PhaseInv, hp] using h.phase
  have he := h.pending_none (by simp [hp])
  cases ha : s.nextAnswer with
  | ok =>
    have ht := h.balanced_append (.mapEv s.cfg.val.basePhys s.cfg.val.blockLen s.nextAnswer) s.sessionValid true
      rfl (by rw [ha, hm]; rfl) trivial
    rw [phaseMap_ok s ha]
    exact .inPhase h.envTick_wired.of_same ht.of_same (by simpa using hb) (by simp) (by simp [he])
      (by simp [State.PhaseInv, State.Configuring, hl, hc, hs])
  | fail =>
    have ht := h.balanced_append (.mapEv s.cfg.val.basePhys s.cfg.val.blockLen s.nextAnswer) s.sessionValid s.mapped
      rfl (by rw [ha]; rfl) trivial
    rw [phaseMap_fail s ha]
    exact .inPhase h.envTick_wired.of_same ht.of_same (by simpa using hb) (by simp) (by simp)
      (by simp [State.PhaseInv, hl, hc, hs, hm])

theorem phaseMasks_inv {s : State} (h : s.Inv) (hb : s.busy = true) (hp : s.seq.phase = .iMasks) :
    (phaseMasks s).Inv := by
  obtain ⟨hl, hc, hs, hm⟩ := by simpa only [State.PhaseInv, hp] using h.phase
  have hw : s.setMasks.Wired := ⟨h.blockWf, h.levelLength, h.cfgErrLatched, fun hr => by simp [hl] at hr⟩
  rw [phaseMasks]
  exact .inPhase hw.of_same h.balanced.of_same (by simpa using hb) (by simp)
    (.inl (h.pending_none (by simp [hp])))
    (by simp [State.PhaseInv, State.Configuring, State.MasksSet, hl, hc, hs, hm])

theorem phaseClkRd_inv {s : State} (h : s.Inv) (hb : s.busy = true) (hp : s.seq.phase = .iClkRd) :
    (phaseClkRd s).Inv := by
  obtain ⟨⟨hl, hc, hs, hm⟩, hkm, hdm⟩ := by simpa only [State.PhaseInv, hp] using h.phase
  have g := h.goodPins (.inl hl) hc
  rw [phaseClkRd]
  exact .inPhase h.envTick_wired.of_same (h.rd32_balanced s.clk g.clkLt).of_same (by simpa using hb) (by simp)
    (.inl (h.pending_none (by simp [hp])))
    (by simp [State.PhaseInv, State.Configuring, State.MasksSet, hl, hc, hs, hm, hkm, hdm])

theorem phaseClkWr_inv {s : State} (h : s.Inv) (hb : s.busy = true) (hp : s.seq.phase = .iClkWr) :
    (phaseClkWr s).Inv := by
  obtain ⟨⟨hl, hc, hs, hm⟩, hkm, hdm⟩ := by simpa only [State.PhaseInv, hp] using h.phase
  have g := h.goodPins (.inl hl) hc
  have hw := h.wr32_fseloff_wired s.clk (fselnew s.cfg.val s.hold s.clk) hl
  have ht := h.wr32_fseloff_balanced s.clk (fselnew s.cfg.val s.hold s.clk) g.clkLt
  have hk : (s.wr32 (fseloff s.cfg.val s.clk) (fselnew s.cfg.val s.hold s.clk)).fieldOf s.clk =
      s.cfg.val.fselOutput := by
    rw [s.wr32_fseloff_fieldOf h.blockWf _ _ g.clkLt _ g.clkOwned, if_pos rfl,
      fieldAt_fselnew_same _ s.cfg.property]
  rw [phaseClkWr]
  exact .inPhase hw.of_same ht.of_same (by simpa using hb) (by simp) (.inl (h.pending_none (by simp [hp])))
    (by simp [State.PhaseInv, State.Configuring, State.MasksSet, State.IsOutput, hl, hc, hs, hm, hkm, hdm, hk])

/-- When both pins share a control word, the word read for the data pin holds the clock pin's field, which no other
agent can have changed (20_memory.md R55, R68). -/
theorem State.Inv.fieldAt_rd32_dat {s : State} (h : s.Inv) (g : s.GoodPins)
    (hw : fselw s.cfg.val s.clk = fselw s.cfg.val s.dat) :
    fieldAt (s.rd32 (fseloff s.cfg.val s.dat)).1 (fselsh s.cfg.val s.clk) = s.fieldOf s.clk := by
  have ho : fseloff s.cfg.val s.clk = fseloff s.cfg.val s.dat := congrArg (ctrlWordOff _) hw
  have hread : (s.rd32 (fseloff s.cfg.val s.dat)).1 = readWord s.envTick.block (fseloff s.cfg.val s.clk) := by
    rw [State.rd32, State.readReg, State.envTick_cfg, regAt_fseloff _ s.cfg.property _ g.datLt, ho]
  rw [hread]
  exact s.envTick_fieldOf h.blockWf s.clk g.clkOwned

theorem phaseDatRd_inv {s : State} (h : s.Inv) (hb : s.busy = true) (hp : s.seq.phase = .iDatRd) :
    (phaseDatRd s).Inv := by
  obtain ⟨⟨hl, hc, hs, hm⟩, ⟨hkm, hdm⟩, hk⟩ := by simpa only [State.PhaseInv, hp] using h.phase
  have g := h.goodPins (.inl hl) hc
  have hk' := (s.rd32_fieldOf (fseloff s.cfg.val s.dat) h.blockWf s.clk g.clkOwned).trans hk
  have hf (hw) := (h.fieldAt_rd32_dat g hw).trans hk
  rw [phaseDatRd]
  exact .inPhase h.envTick_wired.of_same (h.rd32_balanced s.dat g.datLt).of_same (by simpa using hb) (by simp)
    (.inl (h.pending_none (by simp [hp])))
    (by simpa [State.PhaseInv, State.Configuring, State.MasksSet, State.IsOutput, hl, hc, hs, hm, hkm, hdm, hk']
      using hf)

/-- The word written back keeps the clock pin an output, whether or not the two pins share it (40_lifecycle.md
R113). -/
theorem phaseDatWr_inv {s : State} (h : s.Inv) (hb : s.busy = true) (hp : s.seq.phase = .iDatWr) :
    (phaseDatWr s).Inv := by
  obtain ⟨⟨hl, hc, hs, hm⟩, ⟨hkm, hdm⟩, hk, hf⟩ := by simpa only [State.PhaseInv, hp] using h.phase
  have g := h.goodPins (.inl hl) hc
  have hw := h.wr32_fseloff_wired s.dat (fselnew s.cfg.val s.hold s.dat) hl
  have ht := h.wr32_fseloff_balanced s.dat (fselnew s.cfg.val s.hold s.dat) g.datLt
  have hd : (s.wr32 (fseloff s.cfg.val s.dat) (fselnew s.cfg.val s.hold s.dat)).fieldOf s.dat =
      s.cfg.val.fselOutput := by
    rw [s.wr32_fseloff_fieldOf h.blockWf _ _ g.datLt _ g.datOwned, if_pos rfl,
      fieldAt_fselnew_same _ s.cfg.property]
  have hk' : (s.wr32 (fseloff s.cfg.val s.dat) (fselnew s.cfg.val s.hold s.dat)).fieldOf s.clk =
      s.cfg.val.fselOutput := by
    rw [s.wr32_fseloff_fieldOf h.blockWf _ _ g.datLt _ g.clkOwned]
    split
    next hshare => rw [fieldAt_fselnew_other _ s.cfg.property _ _ _ hshare g.apart, hf hshare]
    next => exact hk
  rw [phaseDatWr]
  exact .inPhase hw.of_same ht.of_same (by simpa using hb) (by simp) (.inl (h.pending_none (by simp [hp])))
    (by simp [State.PhaseInv, State.Configuring, State.MasksSet, State.IsOutput, hl, hc, hs, hm, hkm, hdm, hd, hk'])

/-- What a write to a line leaves: the parts of the invariant, both fields, and the two lines at these levels. -/
structure State.Drives (s t : State) (clkLevel datLevel : Bool) : Prop where
  wired : t.Wired
  balanced : t.Balanced
  clkField : t.fieldOf s.clk = s.fieldOf s.clk
  datField : t.fieldOf s.dat = s.fieldOf s.dat
  clk : t.levelOf s.clk = clkLevel
  dat : t.levelOf s.dat = datLevel

/-- Writing the clock's mask drives the clock line and leaves the data line (20_memory.md R57, R58). -/
theorem State.Inv.driveClk {s : State} (h : s.Inv) (g : s.GoodPins) (hv : s.clkMask = maskOf s.clk) (b : Bool) :
    s.Drives (s.wr32 (dataOff s.cfg.val s.clk b) s.clkMask) b (s.levelOf s.dat) :=
  ⟨h.wr32_dataOff_wired _ b _ g.clkLt, h.wr32_dataOff_balanced _ b _ g.clkLt,
    s.wr32_dataOff_fieldOf h.blockWf _ b _ g.clkLt _ g.clkOwned,
    s.wr32_dataOff_fieldOf h.blockWf _ b _ g.clkLt _ g.datOwned,
    (h.wr32_dataOff_levelOf _ b _ hv g.clkLt _ g.clkLt g.clkOwned).trans (if_pos rfl),
    (h.wr32_dataOff_levelOf _ b _ hv g.clkLt _ g.datLt g.datOwned).trans (if_neg g.apart.symm)⟩

/-- Writing the data pin's mask drives the data line and leaves the clock line (20_memory.md R57, R58). -/
theorem State.Inv.driveDat {s : State} (h : s.Inv) (g : s.GoodPins) (hv : s.datMask = maskOf s.dat) (b : Bool) :
    s.Drives (s.wr32 (dataOff s.cfg.val s.dat b) s.datMask) (s.levelOf s.clk) b :=
  ⟨h.wr32_dataOff_wired _ b _ g.datLt, h.wr32_dataOff_balanced _ b _ g.datLt,
    s.wr32_dataOff_fieldOf h.blockWf _ b _ g.datLt _ g.clkOwned,
    s.wr32_dataOff_fieldOf h.blockWf _ b _ g.datLt _ g.datOwned,
    (h.wr32_dataOff_levelOf _ b _ hv g.datLt _ g.clkLt g.clkOwned).trans (if_neg g.apart),
    (h.wr32_dataOff_levelOf _ b _ hv g.datLt _ g.datLt g.datOwned).trans (if_pos rfl)⟩

@[simp] theorem dataOff_true (c : Cfg) (p : Nat) : dataOff c p true = setoff c p := rfl
@[simp] theorem dataOff_false (c : Cfg) (p : Nat) : dataOff c p false = clroff c p := rfl

theorem phaseIdleClk_inv {s : State} (h : s.Inv) (hb : s.busy = true) (hp : s.seq.phase = .iIdleClk) :
    (phaseIdleClk s).Inv := by
  obtain ⟨⟨hl, hc, hs, hm⟩, ⟨hkm, hdm⟩, hk, hd⟩ := by simpa only [State.PhaseInv, hp] using h.phase
  have d := h.driveClk (h.goodPins (.inl hl) hc) hkm false
  rw [dataOff_false] at d
  rw [phaseIdleClk]
  exact .inPhase d.wired.of_same d.balanced.of_same (by simpa using hb) (by simp)
    (.inl (h.pending_none (by simp [hp])))
    (by simpa [State.PhaseInv, State.Configuring, State.MasksSet, State.IsOutput, hl, hc, hs, hm, d.clk]
      using ⟨⟨hkm, hdm⟩, d.clkField.trans hk, d.datField.trans hd⟩)

/-- The last write of INITIALIZE: both lines are idle outputs, and READY is reached (40_lifecycle.md R114). -/
theorem phaseIdleDat_inv {s : State} (h : s.Inv) (hp : s.seq.phase = .iIdleDat) : (phaseIdleDat s).Inv := by
  obtain ⟨⟨hl, hc, hs, hm⟩, ⟨hkm, hdm⟩, hk, hd, hv⟩ := by simpa only [State.PhaseInv, hp] using h.phase
  have d := h.driveDat (h.goodPins (.inl hl) hc) hdm false
  rw [dataOff_false] at d
  obtain ⟨hwf, hlen, he, -⟩ := d.wired
  have hw : ((s.wr32 (clroff s.cfg.val s.dat) s.datMask).setLc .ready).Wired :=
    ⟨hwf, hlen, fun _ => he (by simp [hl]),
      fun _ => ⟨hc, ⟨hkm, hdm⟩, d.clkField.trans hk, d.datField.trans hd⟩⟩
  rw [phaseIdleDat]
  exact .atRest hw.of_same d.balanced.of_same rfl rfl rfl (by simp [hs, hm]) (by simp [d.clk, d.dat, hv])

/-! ### SEND (41_send.md R146) -/

/-! The bit at hand stays the same through the six micro-operations of a bit (41_send.md R149). -/

@[simp] theorem State.wr32_currentBit (s : State) (off : Nat) (v : Word) :
    (s.wr32 off v).currentBit = s.currentBit := rfl
@[simp] theorem State.delay_currentBit (s : State) (k : DelayKind) : (s.delay k).currentBit = s.currentBit := rfl
@[simp] theorem State.sameBit_currentBit (s : State) (p : Phase) : (s.sameBit p).currentBit = s.currentBit := rfl

theorem phaseData_inv {s : State} (h : s.Inv) (hb : s.busy = true) (hp : s.seq.phase = .sData) :
    (phaseData s).Inv := by
  obtain ⟨⟨hl, hs, hm, hi⟩, hv⟩ := by simpa only [State.PhaseInv, hp] using h.phase
  obtain ⟨-, ⟨-, hdm⟩, -⟩ := h.readyPins hl
  have d := h.driveDat (h.readyGood hl) hdm s.currentBit
  rw [phaseData]
  exact .inPhase d.wired.of_same d.balanced.of_same (by simpa using hb) (by simp)
    (.inl (h.pending_none (by simp [hp])))
    (by simp [State.PhaseInv, State.Sending, hl, hs, hm, hi, hv, d.clk, d.dat])

/-- The three delays of a bit leave both lines: no agent reaches them (20_memory.md R68). -/
theorem State.Inv.delay_levelOf_pins {s : State} (h : s.Inv) (hl : s.lc = .ready) (k : DelayKind) :
    (s.delay k).levelOf s.clk = s.levelOf s.clk ∧ (s.delay k).levelOf s.dat = s.levelOf s.dat :=
  ⟨s.delay_levelOf k _ (h.readyGood hl).clkOwned, s.delay_levelOf k _ (h.readyGood hl).datOwned⟩

theorem phaseSettle_inv {s : State} (h : s.Inv) (hb : s.busy = true) (hp : s.seq.phase = .sSettle) :
    (phaseSettle s).Inv := by
  obtain ⟨⟨hl, hs, hm, hi⟩, hvk, hvd⟩ := by simpa only [State.PhaseInv, hp] using h.phase
  obtain ⟨hk, hd⟩ := h.delay_levelOf_pins hl .settle
  rw [phaseSettle]
  exact .inPhase h.envTick_wired.of_same (h.delay_balanced .settle).of_same (by simpa using hb) (by simp)
    (.inl (h.pending_none (by simp [hp]))) (by simp [State.PhaseInv, State.Sending, hl, hs, hm, hi, hk, hd, hvk, hvd])

theorem phaseHoldHi_inv {s : State} (h : s.Inv) (hb : s.busy = true) (hp : s.seq.phase = .sHoldHi) :
    (phaseHoldHi s).Inv := by
  obtain ⟨⟨hl, hs, hm, hi⟩, hvk, hvd⟩ := by simpa only [State.PhaseInv, hp] using h.phase
  obtain ⟨hk, hd⟩ := h.delay_levelOf_pins hl .high
  rw [phaseHoldHi]
  exact .inPhase h.envTick_wired.of_same (h.delay_balanced .high).of_same (by simpa using hb) (by simp)
    (.inl (h.pending_none (by simp [hp]))) (by simp [State.PhaseInv, State.Sending, hl, hs, hm, hi, hk, hd, hvk, hvd])

theorem phaseClkHi_inv {s : State} (h : s.Inv) (hb : s.busy = true) (hp : s.seq.phase = .sClkHi) :
    (phaseClkHi s).Inv := by
  obtain ⟨⟨hl, hs, hm, hi⟩, -, hv⟩ := by simpa only [State.PhaseInv, hp] using h.phase
  obtain ⟨-, ⟨hkm, -⟩, -⟩ := h.readyPins hl
  have d := h.driveClk (h.readyGood hl) hkm true
  rw [dataOff_true] at d
  rw [phaseClkHi]
  exact .inPhase d.wired.of_same d.balanced.of_same (by simpa using hb) (by simp)
    (.inl (h.pending_none (by simp [hp])))
    (by simp [State.PhaseInv, State.Sending, hl, hs, hm, hi, hv, d.clk, d.dat])

theorem phaseClkLo_inv {s : State} (h : s.Inv) (hb : s.busy = true) (hp : s.seq.phase = .sClkLo) :
    (phaseClkLo s).Inv := by
  obtain ⟨⟨hl, hs, hm, hi⟩, -, hv⟩ := by simpa only [State.PhaseInv, hp] using h.phase
  obtain ⟨-, ⟨hkm, -⟩, -⟩ := h.readyPins hl
  have d := h.driveClk (h.readyGood hl) hkm false
  rw [dataOff_false] at d
  rw [phaseClkLo]
  exact .inPhase d.wired.of_same d.balanced.of_same (by simpa using hb) (by simp)
    (.inl (h.pending_none (by simp [hp])))
    (by simp [State.PhaseInv, State.Sending, hl, hs, hm, hi, hv, d.clk, d.dat])

/-- After a bit the sequencer is at a bit of the buffer, or at the idle restore (41_send.md R146). -/
theorem nextBit_cases (q : Seq) (len : Nat) (h : q.byteIdx < len) :
    ((nextBit q len).phase = .sData ∧ (nextBit q len).byteIdx < len) ∨ (nextBit q len).phase = .sRestore := by
  unfold nextBit
  split
  · exact .inl ⟨rfl, h⟩
  · split
    next hn => exact .inl ⟨rfl, hn⟩
    next => exact .inr rfl

theorem phaseHoldLo_inv {s : State} (h : s.Inv) (hb : s.busy = true) (hp : s.seq.phase = .sHoldLo) :
    (phaseHoldLo s).Inv := by
  obtain ⟨⟨hl, hs, hm, hi⟩, hvk, -⟩ := by simpa only [State.PhaseInv, hp] using h.phase
  obtain ⟨hk, -⟩ := h.delay_levelOf_pins hl .low
  have hw := h.envTick_wired
  have ht := h.delay_balanced .low
  have he := h.pending_none (by simp [hp])
  rw [phaseHoldLo]
  rcases nextBit_cases s.seq s.buf.length hi with ⟨hq, hn⟩ | hq
  · exact .inPhase hw.of_same ht.of_same (by simpa using hb) (by simp [hq]) (.inl he)
      (by simp [State.PhaseInv, State.Sending, hq, hn, hl, hs, hm, hk, hvk])
  · exact .inPhase hw.of_same ht.of_same (by simpa using hb) (by simp [hq]) (.inl he)
      (by simp [State.PhaseInv, hq, hl, hs, hm, hk, hvk])

/-- The idle restore: both lines are low when the SEND completes (41_send.md R144). -/
theorem phaseRestore_inv {s : State} (h : s.Inv) (hp : s.seq.phase = .sRestore) : (phaseRestore s).Inv := by
  obtain ⟨hl, hs, hm, hv⟩ := by simpa only [State.PhaseInv, hp] using h.phase
  obtain ⟨-, ⟨-, hdm⟩, -⟩ := h.readyPins hl
  have d := h.driveDat (h.readyGood hl) hdm false
  rw [dataOff_false] at d
  rw [phaseRestore]
  exact .atRest d.wired.of_same d.balanced.of_same rfl rfl rfl (by simp [hs, hm, hl])
    (by simp [d.clk, d.dat, hv])

/-! ### TEARDOWN (40_lifecycle.md R117) -/

theorem phaseUnmap_inv {s : State} (h : s.Inv) (hb : s.busy = true) (hp : s.seq.phase = .tUnmap) :
    (phaseUnmap s).Inv := by
  obtain ⟨he, hs, hr⟩ := by simpa only [State.PhaseInv, hp] using h.phase
  cases hm : s.mapped with
  | true =>
    have ht := h.balanced_append (.unmapEv s.nextAnswer) s.sessionValid false rfl
      (by cases s.nextAnswer <;> simp [hm, Event.isMapOk, Event.isUnmap]) trivial
    rw [phaseUnmap, if_pos hm]
    exact .inPhase h.envTick_wired.of_same ht.of_same (by simpa using hb) (by simp) (.inl he)
      (by simp [State.PhaseInv, he, ← hs, ← hr])
  | false =>
    rw [phaseUnmap, if_neg (by simp [hm])]
    exact .inPhase h.wired.of_same h.balanced.of_same (by simpa using hb) (by simp) (.inl he)
      (by simp [State.PhaseInv, he, ← hs, ← hr, hm])

/-- Releasing the session, or having none to release, keeps the block, the pins and the balance. -/
theorem State.Inv.release_parts {s : State} (h : s.Inv) :
    s.release.Wired ∧ s.release.Balanced ∧ s.release.sessionValid = false ∧ s.release.mapped = s.mapped := by
  cases hs : s.sessionValid with
  | true =>
    have ht := h.balanced_append (.closeEv s.nextAnswer) false s.mapped
      (by cases s.nextAnswer <;> simp [hs, Event.isOpenOk, Event.isClose]) rfl trivial
    rw [State.release_held s hs]
    exact ⟨h.envTick_wired.of_same, ht.of_same, rfl, rfl⟩
  | false =>
    rw [State.release_nothing s hs]
    exact ⟨h.wired, h.balanced, hs, rfl⟩

theorem phaseClose_inv {s : State} (h : s.Inv) (hp : s.seq.phase = .tClose) : (phaseClose s).Inv := by
  obtain ⟨hm, hcase⟩ := by simpa only [State.PhaseInv, hp] using h.phase
  obtain ⟨hw, ht, hs', hm'⟩ := h.release_parts
  rcases hcase with ⟨he, hl, -, -⟩ | ⟨he, -⟩
  · rw [phaseClose, he]
    exact .atRest hw.of_same ht.of_same rfl rfl rfl (by simp [hs', hm', hm, hl]) (by simp [hl])
  · obtain ⟨hwf, hlen, hc, -⟩ := hw
    have hlc : lcAfterTeardown s.lc ≠ .ready := by unfold lcAfterTeardown; split <;> decide
    have hw' : (s.release.setLc (lcAfterTeardown s.lc)).Wired :=
      ⟨hwf, hlen, fun ha => hc fun hl => ha (by simpa [lcAfterTeardown] using hl), fun hr => absurd hr hlc⟩
    rw [phaseClose, he]
    exact .atRest hw'.of_same ht.of_same rfl rfl rfl (by simp [hs', hm', hm, hlc]) (by simp [hlc])

/-! ### Every micro-step -/

/-- One micro-step keeps the invariant (10_state.md R31). -/
theorem microStep_inv {s : State} (h : s.Inv) (hb : s.busy = true) : (microStep s).Inv := by
  cases hp : s.seq.phase with
  | idle => exact absurd hp (h.busyPhase hb)
  | iOpen => simpa only [microStep, hp] using phaseOpen_inv h hb hp
  | iMap => simpa only [microStep, hp] using phaseMap_inv h hb hp
  | iMasks => simpa only [microStep, hp] using phaseMasks_inv h hb hp
  | iClkRd => simpa only [microStep, hp] using phaseClkRd_inv h hb hp
  | iClkWr => simpa only [microStep, hp] using phaseClkWr_inv h hb hp
  | iDatRd => simpa only [microStep, hp] using phaseDatRd_inv h hb hp
  | iDatWr => simpa only [microStep, hp] using phaseDatWr_inv h hb hp
  | iIdleClk => simpa only [microStep, hp] using phaseIdleClk_inv h hb hp
  | iIdleDat => simpa only [microStep, hp] using phaseIdleDat_inv h hp
  | sData => simpa only [microStep, hp] using phaseData_inv h hb hp
  | sSettle => simpa only [microStep, hp] using phaseSettle_inv h hb hp
  | sClkHi => simpa only [microStep, hp] using phaseClkHi_inv h hb hp
  | sHoldHi => simpa only [microStep, hp] using phaseHoldHi_inv h hb hp
  | sClkLo => simpa only [microStep, hp] using phaseClkLo_inv h hb hp
  | sHoldLo => simpa only [microStep, hp] using phaseHoldLo_inv h hb hp
  | sRestore => simpa only [microStep, hp] using phaseRestore_inv h hp
  | tUnmap => simpa only [microStep, hp] using phaseUnmap_inv h hb hp
  | tClose => simpa only [microStep, hp] using phaseClose_inv h hp

/-! ### Between two commands (10_state.md R26, R29) -/

/-- With no command in progress no error is pending. -/
theorem State.Inv.pending_at_rest {s : State} (h : s.Inv) (hb : s.busy = false) : s.pending = none :=
  h.pending_none (by simp [h.idleSeq hb, Seq.idle])

/-- Outside READY nothing is held between two commands. -/
theorem State.Inv.nothing_held {s : State} (h : s.Inv) (hb : s.busy = false) (hl : s.lc ≠ .ready) :
    s.sessionValid = false ∧ s.mapped = false := by
  obtain ⟨hs, hr⟩ := h.quiescent hb
  have hm : s.mapped = false := by simpa [hl] using hr
  exact ⟨hs ▸ hm, hm⟩

/-- Ending a command at once changes STATUS only and keeps the invariant (60_exceptions.md R176). -/
theorem State.Inv.finish_at_rest {s : State} (h : s.Inv) (hb : s.busy = false) (st : Status) : (s.finish st).Inv :=
  .atRest h.wired.of_same h.balanced.of_same rfl rfl rfl (by simpa using h.quiescent hb)
    (by simpa using h.idleLevels hb)

/-- The environment's slot before a command is taken, and the port, keep the invariant (20_memory.md R68). -/
theorem State.Inv.taken {s : State} (h : s.Inv) (hb : s.busy = false) (rest : List Byte) : (s.taken rest).Inv := by
  refine .atRest h.envTick_wired.of_same h.balanced.of_same hb (h.idleSeq hb) (h.pending_at_rest hb)
    (h.quiescent hb) fun hl => ?_
  obtain ⟨hk, hd⟩ := h.idleLevels hb hl
  exact ⟨(s.envTick_levelOf _ (h.readyGood hl).clkOwned).trans hk,
    (s.envTick_levelOf _ (h.readyGood hl).datOwned).trans hd⟩

/-! ### Accept rows -/

/-- CONSTRUCT latches whatever pins it is given, with their check (40_lifecycle.md R110). -/
theorem construct_inv {s : State} (h : s.Inv) (hb : s.busy = false) (clk dat : Int) : (construct clk dat s).Inv := by
  by_cases hl : s.lc = .absent
  · obtain ⟨hs, hm⟩ := h.nothing_held hb (by simp [hl])
    have hw : (s.latchPins clk dat).Wired := ⟨h.blockWf, h.levelLength, fun _ => rfl, nofun⟩
    rw [construct_absent clk dat s hl]
    exact .atRest hw.of_same h.balanced.of_same rfl rfl rfl (by simp [hs, hm]) (by simp)
  · rw [construct_wrongState clk dat s hl]
    exact h.finish_at_rest hb _

theorem acceptInitialise_inv {s : State} (h : s.Inv) (hb : s.busy = false) : (acceptInitialise s).Inv := by
  by_cases hl : s.lc = .constructed
  · rw [acceptInitialise, if_neg (not_not_intro hl)]
    cases hc : s.cfgErr with
    | true => exact h.finish_at_rest hb _
    | false =>
      obtain ⟨hs, hm⟩ := h.nothing_held hb (by simp [hl])
      exact .inPhase h.wired.of_same h.balanced.of_same rfl nofun (.inl (h.pending_at_rest hb))
        (by simp [State.PhaseInv, hl, hc, hs, hm])
  · rw [acceptInitialise, if_pos hl]
    exact h.finish_at_rest hb _

theorem acceptSend_inv {s : State} (h : s.Inv) (hb : s.busy = false) (bytes : List Byte) :
    (acceptSend bytes s).Inv := by
  by_cases hl : s.lc = .ready
  · obtain ⟨hs, hm⟩ := h.quiescent hb
    have hm' : s.mapped = true := hm.2 hl
    obtain ⟨hk, hd⟩ := h.idleLevels hb hl
    rw [acceptSend, if_neg (not_not_intro hl)]
    split
    next => exact .atRest h.wired.of_same h.balanced.of_same rfl rfl rfl (by simp [← hs, hm', hl]) (by simp [hk, hd])
    next hn =>
      exact .inPhase h.wired.of_same h.balanced.of_same rfl nofun (.inl (h.pending_at_rest hb))
        (by simpa [State.PhaseInv, State.Sending, hl, ← hs, hm', hk] using Nat.pos_of_ne_zero hn)
  · rw [acceptSend, if_pos hl]
    exact h.finish_at_rest hb _

theorem acceptTeardown_inv {s : State} (h : s.Inv) (hb : s.busy = false) : (acceptTeardown s).Inv := by
  rw [acceptTeardown]
  exact .inPhase h.wired.of_same h.balanced.of_same rfl nofun (.inl rfl)
    (by simpa [State.PhaseInv] using h.quiescent hb)

theorem acceptRow_inv (i : Instr) {s : State} (h : s.Inv) (hb : s.busy = false) : (acceptRow i s).Inv := by
  cases i with
  | construct clk dat => exact construct_inv h hb clk dat
  | initialise => exact acceptInitialise_inv h hb
  | send bytes => exact acceptSend_inv h hb bytes
  | teardown => exact acceptTeardown_inv h hb

/-- Settles O47, one accept row after the other. -/
theorem acceptingKeepsTheInvariant : Obligations.AcceptingKeepsTheInvariant := by
  unfold Obligations.AcceptingKeepsTheInvariant
  exact fun s h hb => ⟨construct_inv h hb, acceptInitialise_inv h hb, acceptSend_inv h hb, acceptTeardown_inv h hb⟩

/-- Settles O46: taking a command, every accept row and every micro-step keep the invariant. -/
theorem stepKeepsTheInvariant : Obligations.StepKeepsTheInvariant := by
  unfold Obligations.StepKeepsTheInvariant
  intro s t h hstep
  exact step_related (R := fun s t => s.Inv → t.Inv) (fun _ => id) (fun _ _ _ f g => g ∘ f)
    (fun _ hb h => microStep_inv h hb) (fun _ rest hb h => h.taken hb rest)
    (fun i _ hb h => acceptRow_inv i h hb) hstep h

/-! ### Power-on -/

/-- The machine has the invariant when it is powered on (10_state.md R40). -/
theorem powerOn_inv (c : Platform) : (State.powerOn c).Inv :=
  .atRest ⟨⟨.nil, nofun⟩, List.length_replicate, fun ha => absurd rfl ha, nofun⟩ ⟨rfl, rfl, nofun⟩ rfl rfl rfl
    ⟨rfl, nofun, nofun⟩ nofun

/-- Settles O10: the reset state is a powered-on one. -/
theorem resetHasTheInvariant : Obligations.ResetHasTheInvariant := by
  unfold Obligations.ResetHasTheInvariant
  exact ⟨powerOn_inv Config.platform, powerOn_inv⟩

/-- Settles O9, from the definition of the power-on state. -/
theorem powerOnValues : Obligations.PowerOnValues := by
  unfold Obligations.PowerOnValues
  exact fun c => ⟨rfl, rfl, rfl, rfl, rfl, rfl, rfl, rfl⟩

end Sys2Proof.Machine
end

