-- ==== Sys2Proof/Proofs/Lifecycle.lean ====
section
/-!
The lifecycle table (10_state.md R29), what every step leaves of the pins, the masks and the trace (R21, R22, R38), and
the one event of a micro-step (R31).
-/

namespace Sys2Proof.Machine

/-! ### How each command ends -/

/-- Once the block is mapped INITIALIZE reaches READY (40_lifecycle.md R111). -/
theorem bigConfigure_ready (s : State) : ∃ t, bigConfigure s = State.finish t .ok ∧ t.lc = .ready :=
  ⟨_, rfl, rfl⟩

/-- The outcomes of INITIALIZE (60_exceptions.md R175): refused by its checks, failed with the masks as before, or
READY. -/
theorem bigInitialise_cases (s : State) :
    (s.lc ≠ .constructed ∧ bigInitialise s = s.finish .preconditionViolation) ∨
    (s.lc = .constructed ∧ s.cfgErr = true ∧ bigInitialise s = s.finish .configurationError) ∨
    (s.lc = .constructed ∧ s.cfgErr = false ∧
      ((∃ t, bigInitialise s = State.finish t .mappingFailure ∧ t.lc = .constructed ∧ t.clkMask = s.clkMask ∧
          t.datMask = s.datMask) ∨
        ∃ t, bigInitialise s = State.finish t .ok ∧ t.lc = .ready)) := by
  by_cases hl : s.lc = .constructed
  · cases he : s.cfgErr with
    | true => exact .inr (.inl ⟨hl, rfl, bigInitialise_badPins s hl he⟩)
    | false =>
      refine .inr (.inr ⟨hl, rfl, ?_⟩)
      cases ho : s.nextAnswer with
      | fail => exact .inl ⟨_, bigInitialise_openFails s hl he ho, hl, by simp, by simp⟩
      | ok =>
        cases hm : (s.openReq.2.setSession true).nextAnswer with
        | fail => exact .inl ⟨_, bigInitialise_mapFails s hl he ho hm, by simp [hl], by simp, by simp⟩
        | ok => exact .inr (bigInitialise_succeeds s hl he ho hm ▸ bigConfigure_ready _)
  · exact .inl ⟨hl, bigInitialise_wrongState s hl⟩

theorem bigSend_outsideReady (bytes : List Byte) (s : State) (hl : s.lc ≠ .ready) :
    bigSend bytes s = s.finish .preconditionViolation := if_pos hl

/-- A SEND accepted in READY ends OK and leaves the lifecycle state and the masks (41_send.md R140, R154). -/
theorem bigSend_ready (bytes : List Byte) (s : State) (hl : s.lc = .ready) :
    ∃ t, bigSend bytes s = State.finish t .ok ∧ t.lc = .ready ∧ t.clkMask = s.clkMask ∧ t.datMask = s.datMask := by
  refine ⟨_, if_neg (not_not_intro hl), ?_⟩
  split <;> simp [foldl_sendByte, hl]

@[simp] theorem State.release_clkMask (s : State) : s.release.clkMask = s.clkMask := by
  unfold State.release
  split <;> rfl

@[simp] theorem State.release_datMask (s : State) : s.release.datMask = s.datMask := by
  unfold State.release
  split <;> rfl

@[simp] theorem State.unmapIfMapped_clkMask (s : State) : s.unmapIfMapped.clkMask = s.clkMask := by
  unfold State.unmapIfMapped
  split <;> rfl

@[simp] theorem State.unmapIfMapped_datMask (s : State) : s.unmapIfMapped.datMask = s.datMask := by
  unfold State.unmapIfMapped
  split <;> rfl

/-- Every command ends by finishing (10_state.md R30, R32). -/
theorem bigCommand_finishes (i : Instr) (s : State) : ∃ t st, bigCommand i s = State.finish t st := by
  cases i with
  | construct clk dat =>
    by_cases hl : s.lc = .absent
    · exact ⟨_, _, construct_absent clk dat s hl⟩
    · exact ⟨_, _, construct_wrongState clk dat s hl⟩
  | initialise =>
    rcases bigInitialise_cases s with ⟨-, h⟩ | ⟨-, -, h⟩ | ⟨-, -, ⟨_, h, -⟩ | ⟨_, h, -⟩⟩
    all_goals exact ⟨_, _, h⟩
  | send bytes =>
    by_cases hl : s.lc = .ready
    · obtain ⟨t, h, -⟩ := bigSend_ready bytes s hl
      exact ⟨t, _, h⟩
    · exact ⟨_, _, bigSend_outsideReady bytes s hl⟩
  | teardown => exact ⟨_, _, bigTeardown_eq s⟩

/-- Settles O8: every command does what its big-step pseudocode does, which ends by finishing. -/
theorem everyCommandRunsToCompletion : Obligations.EveryCommandRunsToCompletion := by
  unfold Obligations.EveryCommandRunsToCompletion
  intro i s hb
  obtain ⟨t, st, h⟩ := bigCommand_finishes i s
  exact ⟨t.finish st, h ▸ exec_eq_bigCommand i s hb, rfl, rfl, rfl⟩

/-! ### The lifecycle table -/

/-- Every command ends in a cell of the table (10_state.md R29). -/
theorem bigCommand_lifecycle (i : Instr) (s : State) :
    ((bigCommand i s).lc, (bigCommand i s).status) ∈ lifecycleTable i s.lc s.cfgErr := by
  cases i with
  | construct clk dat =>
    by_cases hl : s.lc = .absent
    · rw [bigCommand, construct_absent clk dat s hl, hl]
      split <;> simp [lifecycleTable]
    · rw [bigCommand, construct_wrongState clk dat s hl]
      cases hs : s.lc <;> simp_all [lifecycleTable]
  | initialise =>
    rw [bigCommand]
    rcases bigInitialise_cases s with ⟨hl, h⟩ | ⟨hl, he, h⟩ | ⟨hl, he, ⟨t, h, ht, -⟩ | ⟨t, h, ht⟩⟩
    · rw [h]
      cases hs : s.lc <;> simp_all [lifecycleTable]
    · simp [h, hl, he, lifecycleTable]
    · simp [h, hl, he, ht, lifecycleTable]
    · simp [h, hl, he, ht, lifecycleTable]
  | send bytes =>
    rw [bigCommand]
    by_cases hl : s.lc = .ready
    · obtain ⟨t, h, ht, -⟩ := bigSend_ready bytes s hl
      simp [h, hl, ht, lifecycleTable]
    · rw [bigSend_outsideReady bytes s hl]
      cases hs : s.lc <;> simp_all [lifecycleTable]
  | teardown =>
    rw [bigCommand, bigTeardown_eq]
    cases hs : s.lc <;> simp [lcAfterTeardown, lifecycleTable]

/-- Settles O48, cell by cell. -/
theorem lifecycleTableHolds : Obligations.LifecycleTableHolds := by
  unfold Obligations.LifecycleTableHolds
  exact fun i s hb => ⟨bigCommand i s, exec_eq_bigCommand i s hb, bigCommand_lifecycle i s⟩

/-! ### The masks -/

/-- A command other than INITIALIZE, and an INITIALIZE that does not end OK, leaves the masks (10_state.md R22,
41_send.md R154). -/
theorem bigCommand_masks (i : Instr) (s : State) (h : i ≠ .initialise ∨ (bigCommand i s).status ≠ .ok) :
    (bigCommand i s).clkMask = s.clkMask ∧ (bigCommand i s).datMask = s.datMask := by
  cases i with
  | construct clk dat =>
    by_cases hl : s.lc = .absent
    · simp [bigCommand, construct_absent clk dat s hl]
    · simp [bigCommand, construct_wrongState clk dat s hl]
  | initialise =>
    rw [bigCommand] at h ⊢
    rcases bigInitialise_cases s with ⟨-, he⟩ | ⟨-, -, he⟩ | ⟨-, -, ⟨t, he, -, hk, hd⟩ | ⟨t, he, -⟩⟩
    · simp [he]
    · simp [he]
    · simp [he, hk, hd]
    · simp [he] at h
  | send bytes =>
    by_cases hl : s.lc = .ready
    · obtain ⟨t, he, -, hk, hd⟩ := bigSend_ready bytes s hl
      simp [bigCommand, he, hk, hd]
    · simp [bigCommand, bigSend_outsideReady bytes s hl]
  | teardown => simp [bigCommand, bigTeardown_eq]

/-- Settles O50: what a command does to the masks, read off its big-step pseudocode. -/
theorem masksWrittenByInitialiseOnly : Obligations.MasksWrittenByInitialiseOnly := by
  unfold Obligations.MasksWrittenByInitialiseOnly
  intro i s t hb h hi
  obtain rfl : bigCommand i s = t := by simpa [exec_eq_bigCommand i s hb] using h
  exact bigCommand_masks i s hi

/-! ### TORN_DOWN -/

/-- With no command in progress, finishing changes STATUS only. -/
theorem State.Inv.finish_eq {s : State} (h : s.Inv) (hb : s.busy = false) (st : Status) :
    s.finish st = { s with status := st } := by
  rw [State.finish, ← h.idleSeq hb, ← h.pending_at_rest hb, ← hb]

/-- Settles O55: in TORN_DOWN three commands fail their first check, and TEARDOWN finds nothing to release. -/
theorem tornDownIsFinal : Obligations.TornDownIsFinal := by
  unfold Obligations.TornDownIsFinal
  intro i s h hb hl
  rw [exec_eq_bigCommand i s hb, ← h.finish_eq hb]
  cases i with
  | construct clk dat => rw [bigCommand, construct_wrongState clk dat s (by simp [hl]), if_neg nofun]
  | initialise => rw [bigCommand, bigInitialise_wrongState s (by simp [hl]), if_neg nofun]
  | send bytes => rw [bigCommand, bigSend_outsideReady bytes s (by simp [hl]), if_neg nofun]
  | teardown =>
    obtain ⟨hs, hm⟩ := h.nothing_held hb (by simp [hl])
    have hlc : lcAfterTeardown s.lc = s.lc := by rw [hl]; rfl
    rw [bigCommand, bigTeardown_eq, State.unmapIfMapped_nothing s hm, State.release_nothing s hs, hlc, if_pos rfl]
    rfl

/-! ### The pins -/

/-- The configuration is kept, and so is what CONSTRUCT latched, once it has. -/
def PinsKept (s t : State) : Prop :=
  t.cfg = s.cfg ∧
  (s.lc ≠ .absent → t.clkPin = s.clkPin ∧ t.datPin = s.datPin ∧ t.cfgErr = s.cfgErr ∧ t.lc ≠ .absent)

theorem PinsKept.refl (s : State) : PinsKept s s := ⟨rfl, fun h => ⟨rfl, rfl, rfl, h⟩⟩

theorem PinsKept.trans (s t u : State) (h : PinsKept s t) (h' : PinsKept t u) : PinsKept s u := by
  refine ⟨h'.1.trans h.1, fun hl => ?_⟩
  obtain ⟨hk, hd, he, ht⟩ := h.2 hl
  obtain ⟨hk', hd', he', hu⟩ := h'.2 ht
  exact ⟨hk'.trans hk, hd'.trans hd, he'.trans he, hu⟩

/-- An operation that writes none of these registers keeps them. -/
theorem PinsKept.of_same {s t : State} (hcfg : t.cfg = s.cfg := by simp) (hk : t.clkPin = s.clkPin := by simp)
    (hd : t.datPin = s.datPin := by simp) (he : t.cfgErr = s.cfgErr := by simp) (hl : t.lc = s.lc := by simp) :
    PinsKept s t := ⟨hcfg, fun h => ⟨hk, hd, he, hl ▸ h⟩⟩

theorem acceptRow_pinsKept (i : Instr) (s : State) : PinsKept s (acceptRow i s) := by
  cases i with
  | construct clk dat =>
    rw [acceptRow]
    by_cases hl : s.lc = .absent
    · rw [construct_absent clk dat s hl]
      exact ⟨by simp, absurd hl⟩
    · rw [construct_wrongState clk dat s hl]
      exact .of_same
  | initialise =>
    rw [acceptRow, acceptInitialise]
    split
    · exact .of_same
    · split <;> exact .of_same
  | send bytes =>
    rw [acceptRow, acceptSend]
    split
    · exact .of_same
    · split <;> exact .of_same
  | teardown =>
    rw [acceptRow, acceptTeardown]
    exact .of_same

/-- Closing the session keeps the pins. -/
theorem release_pinsKept (s : State) : PinsKept s s.release := by
  unfold State.release
  split <;> exact .of_same

/-- The two phases that write LC, the last of INITIALIZE and the last of TEARDOWN, never write ABSENT into it. -/
theorem phaseIdleDat_pinsKept (s : State) : PinsKept s (phaseIdleDat s) := by
  rw [phaseIdleDat]
  exact ⟨by simp, fun _ => by simp⟩

theorem phaseClose_pinsKept (s : State) : PinsKept s (phaseClose s) := by
  obtain ⟨hcfg, hkept⟩ := release_pinsKept s
  unfold phaseClose
  split
  · exact ⟨by simp [hcfg], by simpa using hkept⟩
  · exact ⟨by simp [hcfg], fun hl => by simpa [hl, lcAfterTeardown] using hkept hl⟩

theorem microStep_pinsKept (s : State) : PinsKept s (microStep s) := by
  unfold microStep
  cases s.seq.phase with
  | idle => exact .refl s
  | iOpen =>
    cases ha : s.nextAnswer with
    | ok => exact phaseOpen_ok s ha ▸ .of_same
    | fail => exact phaseOpen_fail s ha ▸ .of_same
  | iMap =>
    cases ha : s.nextAnswer with
    | ok => exact phaseMap_ok s ha ▸ .of_same
    | fail => exact phaseMap_fail s ha ▸ .of_same
  | iMasks => simpa only [phaseMasks] using .of_same
  | iClkRd => simpa only [phaseClkRd] using .of_same
  | iClkWr => simpa only [phaseClkWr] using .of_same
  | iDatRd => simpa only [phaseDatRd] using .of_same
  | iDatWr => simpa only [phaseDatWr] using .of_same
  | iIdleClk => simpa only [phaseIdleClk] using .of_same
  | iIdleDat => exact phaseIdleDat_pinsKept s
  | sData => simpa only [phaseData] using .of_same
  | sSettle => simpa only [phaseSettle] using .of_same
  | sClkHi => simpa only [phaseClkHi] using .of_same
  | sHoldHi => simpa only [phaseHoldHi] using .of_same
  | sClkLo => simpa only [phaseClkLo] using .of_same
  | sHoldLo => simpa only [phaseHoldLo] using .of_same
  | sRestore => simpa only [phaseRestore] using .of_same
  | tUnmap =>
    simp only [phaseUnmap]
    split <;> exact .of_same
  | tClose => exact phaseClose_pinsKept s

/-- Settles O49: taking a command, every accept row and every micro-step keep the pins. -/
theorem pinsImmutableAfterConstruction : Obligations.PinsImmutableAfterConstruction := by
  unfold Obligations.PinsImmutableAfterConstruction
  exact fun s t h => step_related PinsKept.refl PinsKept.trans (fun s _ => microStep_pinsKept s)
    (fun _ _ _ => .of_same) (fun i s _ => acceptRow_pinsKept i s) h

/-! ### The trace -/

/-- The one micro-operation of a phase, if it has one (10_state.md R31): the event it appends to the trace. -/
def microEvent (s : State) : Option Event :=
  match s.seq.phase with
  | .idle => none
  | .iOpen => some (.openEv s.nextAnswer)
  | .iMap => some (.mapEv s.cfg.val.basePhys s.cfg.val.blockLen s.nextAnswer)
  | .iMasks => none
  | .iClkRd => some (.rd32 (fseloff s.cfg.val s.clk) (s.rd32 (fseloff s.cfg.val s.clk)).1)
  | .iClkWr => some (.wr32 (fseloff s.cfg.val s.clk) (fselnew s.cfg.val s.hold s.clk))
  | .iDatRd => some (.rd32 (fseloff s.cfg.val s.dat) (s.rd32 (fseloff s.cfg.val s.dat)).1)
  | .iDatWr => some (.wr32 (fseloff s.cfg.val s.dat) (fselnew s.cfg.val s.hold s.dat))
  | .iIdleClk => some (.wr32 (clroff s.cfg.val s.clk) s.clkMask)
  | .iIdleDat => some (.wr32 (clroff s.cfg.val s.dat) s.datMask)
  | .sData => some (.wr32 (dataOff s.cfg.val s.dat s.currentBit) s.datMask)
  | .sSettle => some (.delay .settle)
  | .sClkHi => some (.wr32 (setoff s.cfg.val s.clk) s.clkMask)
  | .sHoldHi => some (.delay .high)
  | .sClkLo => some (.wr32 (clroff s.cfg.val s.clk) s.clkMask)
  | .sHoldLo => some (.delay .low)
  | .sRestore => some (.wr32 (clroff s.cfg.val s.dat) s.datMask)
  | .tUnmap => if s.mapped then some (.unmapEv s.nextAnswer) else none
  | .tClose => if s.sessionValid then some (.closeEv s.nextAnswer) else none

theorem release_tr (s : State) :
    s.release.tr = s.tr ++ (if s.sessionValid then some (.closeEv s.nextAnswer) else none : Option Event).toList := by
  unfold State.release
  split <;> simp

/-- A micro-step appends its event and rewrites nothing of the trace (10_state.md R38). -/
theorem microStep_tr (s : State) : (microStep s).tr = s.tr ++ (microEvent s).toList := by
  unfold microStep microEvent
  cases s.seq.phase with
  | idle => simp
  | iOpen => cases ha : s.nextAnswer <;> simp [phaseOpen_ok, phaseOpen_fail, ha]
  | iMap => cases ha : s.nextAnswer <;> simp [phaseMap_ok, phaseMap_fail, ha]
  | iMasks => simp [phaseMasks]
  | iClkRd => simp [phaseClkRd]
  | iClkWr => simp [phaseClkWr]
  | iDatRd => simp [phaseDatRd]
  | iDatWr => simp [phaseDatWr]
  | iIdleClk => simp [phaseIdleClk]
  | iIdleDat => simp [phaseIdleDat]
  | sData => simp [phaseData]
  | sSettle => simp [phaseSettle]
  | sClkHi => simp [phaseClkHi]
  | sHoldHi => simp [phaseHoldHi]
  | sClkLo => simp [phaseClkLo]
  | sHoldLo => simp [phaseHoldLo]
  | sRestore => simp [phaseRestore]
  | tUnmap => cases hm : s.mapped <;> simp [phaseUnmap, hm]
  | tClose => cases he : s.pending <;> simp [phaseClose, he, release_tr]

/-- An accept row makes no micro-operation (log entry 18). -/
theorem acceptRow_tr (i : Instr) (s : State) : (acceptRow i s).tr = s.tr := by
  cases i with
  | construct clk dat =>
    by_cases hl : s.lc = .absent
    · simp [acceptRow, construct_absent clk dat s hl]
    · simp [acceptRow, construct_wrongState clk dat s hl]
  | initialise =>
    simp only [acceptRow, acceptInitialise]
    split
    · simp
    · split <;> simp
  | send bytes =>
    simp only [acceptRow, acceptSend]
    split
    · simp
    · split <;> simp
  | teardown => simp [acceptRow, acceptTeardown]

/-- Settles O51: a micro-step appends to the trace, taking a command and its accept row leave it. -/
theorem traceOnlyGrows : Obligations.TraceOnlyGrows := by
  unfold Obligations.TraceOnlyGrows
  intro s t h
  exact step_related (R := fun s t => ∃ events, t.tr = s.tr ++ events) (fun s => ⟨[], by simp⟩)
    (fun _ _ _ ⟨a, ha⟩ ⟨b, hb⟩ => ⟨a ++ b, by rw [hb, ha, List.append_assoc]⟩) (fun s _ => ⟨_, microStep_tr s⟩)
    (fun s _ _ => ⟨[], by simp⟩) (fun i s _ => ⟨[], by simp [acceptRow_tr]⟩) h

/-- The block is mapped in every phase that may access it (10_state.md R25). -/
theorem State.Inv.mapped_in_access {s : State} (h : s.Inv)
    (hp : s.seq.phase ∉ [.idle, .iOpen, .iMap, .tUnmap, .tClose]) : s.mapped = true := by
  have hphase := h.phase
  unfold State.PhaseInv at hphase
  split at hphase <;> simp_all [State.Configuring, State.Sending]

/-- What a micro-operation needs is held when its phase is reached (10_state.md R25, 20_memory.md R62). -/
theorem microEvent_allowed {s : State} (h : s.Inv) {e : Event} (he : microEvent s = some e) :
    e.Allowed s.sessionValid s.mapped := by
  unfold microEvent at he
  cases hp : s.seq.phase with
  | idle | iMasks => simp [hp] at he
  | iOpen | sSettle | sHoldHi | sHoldLo =>
    obtain rfl : _ = e := by simpa only [hp, Option.some.injEq] using he
    trivial
  | iMap =>
    obtain ⟨-, -, hs, -⟩ := by simpa only [State.PhaseInv, hp] using h.phase
    obtain rfl : _ = e := by simpa only [hp, Option.some.injEq] using he
    exact hs
  | iClkRd | iClkWr | iDatRd | iDatWr | iIdleClk | iIdleDat | sData | sClkHi | sClkLo | sRestore =>
    obtain rfl : _ = e := by simpa only [hp, Option.some.injEq] using he
    exact h.mapped_in_access (by simp [hp])
  | tUnmap =>
    obtain ⟨hm, rfl⟩ : s.mapped = true ∧ _ = e := by simpa [hp] using he
    exact hm
  | tClose =>
    obtain ⟨hs, rfl⟩ : s.sessionValid = true ∧ _ = e := by simpa [hp] using he
    exact hs

/-- Settles O52: what a micro-step appends is the event of its phase, of which there is at most one. -/
theorem microStepDoesAtMostOneThing : Obligations.MicroStepDoesAtMostOneThing := by
  unfold Obligations.MicroStepDoesAtMostOneThing
  exact fun s h _ => ⟨_, microStep_tr s, Option.length_toList_le,
    fun _ he => microEvent_allowed h (Option.mem_toList.1 he)⟩

end Sys2Proof.Machine
end

