-- ==== Sys2Proof/Proofs/Memory.lean ====
section
/-!
The register block word by word (20_memory.md R55 to R58): what a read returns, what a write replaces or drives, and
how far the environment's slot reaches (R68).
-/

namespace Sys2Proof.Machine

/-! ### Control words -/

/-- A read of a control word's offset is that control word (20_memory.md R55). -/
theorem State.readReg_ctrlWordOff (s : State) (j : Nat) (hj : j < s.cfg.val.nf) :
    s.readReg (ctrlWordOff s.cfg.val j) = s.fsel j := by
  rw [State.readReg, regAt_ctrlWordOff _ j hj]
  rfl

theorem blockAfterWrite_ctrlWordOff (c : Cfg) (m : List Host.Cell) (j : Nat) (v : Word) (hj : j < c.nf) :
    blockAfterWrite c m (ctrlWordOff c j) v = writeWord m (ctrlWordOff c j) v := by
  rw [blockAfterWrite, regAt_ctrlWordOff c j hj]

theorem levelAfterWrite_ctrlWordOff (c : Cfg) (lvl : List Bool) (j : Nat) (v : Word) (hj : j < c.nf) :
    levelAfterWrite c lvl (ctrlWordOff c j) v = lvl := by
  rw [levelAfterWrite, regAt_ctrlWordOff c j hj]

/-- The control word written is the control word read, whatever the environment does before the write. -/
theorem State.wr32_ctrlWordOff_fsel (s : State) (j : Nat) (v : Word) (hm : MemoryWf s.block)
    (hj : j < s.cfg.val.nf) : (s.wr32 (ctrlWordOff s.cfg.val j) v).fsel j = v := by
  rw [State.fsel, State.wr32_block, State.wr32_cfg, blockAfterWrite_ctrlWordOff _ _ j v hj,
    readWord_writeWord_same _ _ v (s.envTick_wf hm)]

/-- Settles O38: a read is the environment's slot, then one event with the word of that moment. -/
theorem readReturnsTheControlWord : Obligations.ReadReturnsTheControlWord := by
  unfold Obligations.ReadReturnsTheControlWord
  intro s j hj
  have hr : (s.rd32 (ctrlWordOff s.cfg.val j)).1 = s.envTick.fsel j := s.envTick.readReg_ctrlWordOff j hj
  exact ⟨hr, hr ▸ rfl⟩

/-- Settles O39: at the offset of a control word a write is a write of that word to the bytes of the block. -/
theorem writeReplacesTheControlWord : Obligations.WriteReplacesTheControlWord := by
  unfold Obligations.WriteReplacesTheControlWord
  intro s j v hm hj
  refine ⟨s.wr32_ctrlWordOff_fsel j v hm hj, fun a ha => ?_, ?_⟩
  · rw [State.wr32_block, blockAfterWrite_ctrlWordOff _ _ j v hj, readByte_writeWord_other _ _ a v ha]
  · rw [State.wr32_level, levelAfterWrite_ctrlWordOff _ _ j v hj]

/-- Settles O20: the write of the clock pin's control word does not look at what the word has become since it was
read. -/
theorem controlWriteLosesConcurrentChange : Obligations.ControlWriteLosesConcurrentChange := by
  unfold Obligations.ControlWriteLosesConcurrentChange
  intro s hm hp hv
  obtain ⟨h0, hlt⟩ := hv
  have hclk : s.clk < s.cfg.val.pinCount := by unfold State.clk; omega
  rw [microStep, hp]
  exact s.wr32_ctrlWordOff_fsel _ _ hm (fselw_lt _ s.cfg.property _ hclk)

/-! ### Set and clear words -/

/-- A write of a set word drives the masked lines high and leaves the block (20_memory.md R57). -/
theorem State.wr32_setWord (s : State) (w : Nat) (v : Word) (hw : w < s.cfg.val.nw) :
    (s.wr32 (s.cfg.val.setOff + 4 * w) v).level = driveLatches s.envTick.level w v true ∧
    (s.wr32 (s.cfg.val.setOff + 4 * w) v).block = s.envTick.block := by
  rw [State.wr32_level, State.wr32_block, levelAfterWrite, blockAfterWrite, regAt_setWord _ s.cfg.property w hw]
  exact ⟨rfl, rfl⟩

/-- A write of a clear word drives the masked lines low and leaves the block (20_memory.md R58). -/
theorem State.wr32_clrWord (s : State) (w : Nat) (v : Word) (hw : w < s.cfg.val.nw) :
    (s.wr32 (s.cfg.val.clrOff + 4 * w) v).level = driveLatches s.envTick.level w v false ∧
    (s.wr32 (s.cfg.val.clrOff + 4 * w) v).block = s.envTick.block := by
  rw [State.wr32_level, State.wr32_block, levelAfterWrite, blockAfterWrite, regAt_clrWord _ s.cfg.property w hw]
  exact ⟨rfl, rfl⟩

/-- The level of an existing line once latches have been driven after the environment's slot. -/
theorem State.levelOf_of_driven {s t : State} {w : Nat} {v : Word} {high : Bool}
    (ht : t.level = driveLatches s.envTick.level w v high) (hl : s.level.length = s.cfg.val.pinCount) (p : Nat)
    (hp : p < s.cfg.val.pinCount) :
    t.levelOf p = if p / 32 = w ∧ v.getLsbD (p % 32) = true then high else s.envTick.levelOf p := by
  rw [State.levelOf, ht, getD_driveLatches _ w v high p (by simpa [hl] using hp)]
  rfl

/-- Settles O40: a write of a set word drives latches to high and touches no byte of the block. -/
theorem setWriteDrivesLinesHigh : Obligations.SetWriteDrivesLinesHigh := by
  unfold Obligations.SetWriteDrivesLinesHigh
  intro s w v hl hw
  obtain ⟨hlevel, hblock⟩ := s.wr32_setWord w v hw
  exact ⟨State.levelOf_of_driven hlevel hl, hblock⟩

/-- Settles O41: a write of a clear word drives latches to low and touches no byte of the block. -/
theorem clearWriteDrivesLinesLow : Obligations.ClearWriteDrivesLinesLow := by
  unfold Obligations.ClearWriteDrivesLinesLow
  intro s w v hl hw
  obtain ⟨hlevel, hblock⟩ := s.wr32_clrWord w v hw
  exact ⟨State.levelOf_of_driven hlevel hl, hblock⟩

/-! ### The reach of the environment's slot (20_memory.md R68) -/

/-- A move on the field of a line it may touch gives the field that code. -/
theorem moveBlock_field_same (c : Cfg) (h : c.WellFormed) (free : Nat → Bool) (m : List Host.Cell) (p : Nat)
    (code : BitVec 3) (hm : MemoryWf m) (hp : free p = true) :
    blockField c (moveBlock c free m (.field p code)) p = code := by
  rw [moveBlock, if_pos hp, blockField, readWord_writeWord_same _ _ _ hm,
    fieldAt_insertField_same _ _ _ (fselsh_le c h p)]

/-- A move on the latch of a line it may touch gives the latch that level. -/
theorem moveLevel_getD_same (free : Nat → Bool) (lvl : List Bool) (p : Nat) (high : Bool) (hp : free p = true)
    (hlt : p < lvl.length) : (moveLevel free lvl (.latch p high)).getD p false = high := by
  rw [moveLevel, if_pos hp, List.getD_eq_getElem _ _ (by simpa using hlt), List.getElem_set_self]

/-- A scripted slot makes the moves of the script. -/
theorem State.movesAt_zero (s : State) (mvs : List EnvMove) (h : s.env.head? = some mvs) : s.movesAt 0 = mvs := by
  rw [State.movesAt, ← List.head?_eq_getElem?, h]

theorem State.foreign_of_not_owns (s : State) (p : Nat) (hp : p < s.cfg.val.pinCount) (ho : s.owns p = false) :
    s.foreign p = true := by
  simp [State.foreign, hp, ho]

/-- One slot can give the field and the latch of a foreign line any value. -/
theorem State.envTick_sets_foreign (s : State) (p : Nat) (code : BitVec 3) (high : Bool) (hm : MemoryWf s.block)
    (hl : s.level.length = s.cfg.val.pinCount) (hp : p < s.cfg.val.pinCount) (ho : s.owns p = false)
    (he : s.env.head? = some [.field p code, .latch p high]) :
    s.envTick.fieldOf p = code ∧ s.envTick.levelOf p = high := by
  have hmoves := s.movesAt_zero _ he
  have hfree := s.foreign_of_not_owns p hp ho
  refine ⟨?_, ?_⟩
  · simp only [State.fieldOf, State.envTick, hmoves]
    exact moveBlock_field_same _ s.cfg.property _ _ p code hm hfree
  · simp only [State.levelOf, State.envTick, hmoves]
    exact moveLevel_getD_same _ _ p high hfree (hl.symm ▸ hp)

/-- Settles O43: a slot is moves on foreign lines, and one move sets a field or a latch to anything. -/
theorem environmentReachesForeignLinesOnly : Obligations.EnvironmentReachesForeignLinesOnly := by
  unfold Obligations.EnvironmentReachesForeignLinesOnly
  exact ⟨fun s p hm ho => ⟨s.envTick_fieldOf hm p ho, s.envTick_levelOf p ho⟩, fun _ => rfl,
    State.envTick_sets_foreign⟩

end Sys2Proof.Machine
end

