-- ==== Sys2Proof/Proofs/Accesses.lean ====
section
/-!
The accesses of a step (20_memory.md R60, R63): every event it appends is an access of a word of an owned pin.
-/

namespace Sys2Proof.Machine

/-- Which accesses are the engine's own depends on the configuration and the pins only. -/
theorem OwnAccess.of_pins {s t : State} {e : Event} (h : OwnAccess s e) (hcfg : t.cfg = s.cfg)
    (hk : t.clkPin = s.clkPin) (hd : t.datPin = s.datPin) : OwnAccess t e := by
  simpa only [OwnAccess, State.clk, State.dat, hcfg, hk, hd] using h

/-- The set and the clear word of the data pin are its own words. -/
theorem ownAccess_wr32_dat (s : State) (b : Bool) (v : Word) :
    OwnAccess s (.wr32 (dataOff s.cfg.val s.dat b) v) := by
  cases b <;> simp [OwnAccess]

/-- The micro-operation of a phase accesses a word of one of the two pins, or nothing (20_memory.md R60). -/
theorem microEvent_ownAccess {s : State} {e : Event} (he : microEvent s = some e) : OwnAccess s e := by
  unfold microEvent at he
  cases hp : s.seq.phase with
  | idle | iMasks => simp [hp] at he
  | iOpen | iMap | sSettle | sHoldHi | sHoldLo =>
    obtain rfl : _ = e := by simpa only [hp, Option.some.injEq] using he
    trivial
  | iClkRd | iDatRd | iClkWr | iDatWr | iIdleClk | iIdleDat | sClkHi | sClkLo | sRestore =>
    obtain rfl : _ = e := by simpa only [hp, Option.some.injEq] using he
    simp [OwnAccess]
  | sData =>
    obtain rfl : _ = e := by simpa only [hp, Option.some.injEq] using he
    exact ownAccess_wr32_dat s _ _
  | tUnmap =>
    obtain ⟨-, rfl⟩ : s.mapped = true ∧ _ = e := by simpa [hp] using he
    trivial
  | tClose =>
    obtain ⟨-, rfl⟩ : s.sessionValid = true ∧ _ = e := by simpa [hp] using he
    trivial

/-- A micro-operation is made after CONSTRUCT only, so the pins are final (10_state.md R21, R26). -/
theorem State.Inv.live_of_microEvent {s : State} (h : s.Inv) {e : Event} (he : microEvent s = some e) :
    s.lc ≠ .absent := by
  have hphase := h.phase
  unfold State.PhaseInv at hphase
  unfold microEvent at he
  cases hp : s.seq.phase with
  | idle | iMasks => simp [hp] at he
  | tUnmap =>
    obtain ⟨hm, -⟩ : s.mapped = true ∧ _ = e := by simpa [hp] using he
    obtain ⟨-, -, hr⟩ := by simpa only [hp] using hphase
    simp [hr.1 hm]
  | tClose =>
    obtain ⟨hs, -⟩ : s.sessionValid = true ∧ _ = e := by simpa [hp] using he
    obtain ⟨-, ⟨-, hl, -⟩ | ⟨-, hr⟩⟩ := by simpa only [hp] using hphase
    · simp [hl]
    · simp [hr.1 hs]
  | iOpen | iMap | iClkRd | iClkWr | iDatRd | iDatWr | iIdleClk | iIdleDat | sData | sSettle | sClkHi | sHoldHi
  | sClkLo | sHoldLo | sRestore =>
    simp only [hp] at hphase
    simp [hphase]

/-- From `s` to `t` the pins are kept, and the events appended are accesses of the words of `t`'s pins, made once the
pins are final. -/
def OwnEvents (s t : State) : Prop :=
  PinsKept s t ∧ ∃ events, t.tr = s.tr ++ events ∧ ∀ e ∈ events, OwnAccess t e ∧ t.lc ≠ .absent

/-- Where no event is appended only the pins matter. -/
theorem OwnEvents.of_no_event {s t : State} (h : PinsKept s t) (ht : t.tr = s.tr) : OwnEvents s t :=
  ⟨h, [], by simpa using ht, nofun⟩

theorem OwnEvents.trans {s t u : State} (h : OwnEvents s t) (h' : OwnEvents t u) : OwnEvents s u := by
  obtain ⟨hp, a, ha, hown⟩ := h
  obtain ⟨hp', b, hb, hown'⟩ := h'
  refine ⟨hp.trans _ _ _ hp', a ++ b, by rw [hb, ha, List.append_assoc], fun e he => ?_⟩
  rcases List.mem_append.1 he with he | he
  · obtain ⟨ho, hl⟩ := hown e he
    obtain ⟨hk, hd, -, hu⟩ := hp'.2 hl
    exact ⟨ho.of_pins hp'.1 hk hd, hu⟩
  · exact hown' e he

theorem microStep_ownEvents {s : State} (h : s.Inv) : OwnEvents s (microStep s) := by
  have hpins := microStep_pinsKept s
  refine ⟨hpins, _, microStep_tr s, fun e he => ?_⟩
  have he' : microEvent s = some e := Option.mem_toList.1 he
  obtain ⟨hk, hd, -, hl⟩ := hpins.2 (h.live_of_microEvent he')
  exact ⟨(microEvent_ownAccess he').of_pins hpins.1 hk hd, hl⟩

/-- Every step keeps the invariant and appends accesses of owned words only. -/
theorem step_ownEvents {s t : State} (h : s.Inv) (hstep : step s = .next t) : t.Inv ∧ OwnEvents s t :=
  step_related (R := fun s t => s.Inv → t.Inv ∧ OwnEvents s t)
    (fun s h => ⟨h, .of_no_event (.refl s) rfl⟩)
    (fun _ _ _ f g h => ⟨(g (f h).1).1, (f h).2.trans (g (f h).1).2⟩)
    (fun _ hb h => ⟨microStep_inv h hb, microStep_ownEvents h⟩)
    (fun s rest hb h => ⟨h.taken hb rest, .of_no_event .of_same (by simp)⟩)
    (fun i s hb h => ⟨acceptRow_inv i h hb, .of_no_event (acceptRow_pinsKept i s) (acceptRow_tr i s)⟩) hstep h

/-- Settles O53: the events of a step are the engine's own accesses, and the invariant says that every access on the
trace is aligned and inside the block. -/
theorem engineAccessesOwnWordsOnly : Obligations.EngineAccessesOwnWordsOnly := by
  unfold Obligations.EngineAccessesOwnWordsOnly
  intro s t h hstep
  obtain ⟨hinv, -, events, htr, hown⟩ := step_ownEvents h hstep
  exact ⟨events, htr, fun e he => ⟨(hown e he).1, hinv.accesses e (by simp [htr, he])⟩⟩

end Sys2Proof.Machine
end

