-- ==== Sys2Proof/Proofs/Noninterference.lean ====
section
/-!
Two runs of one command from states that differ only in the register block, the latches and the environment
(93_implementation_defined.md U1): they make the same micro-operations and leave the same engine registers. The
relation `Agrees` says so of two states; every operation keeps it, hence every command.
-/

namespace Sys2Proof.Machine

/-! ### States that agree but for the block and the environment -/

/-- `t` is `s` but for the block, the latches, the environment, the word last read from the block, and the values of
control words on the trace. -/
def Agrees (s t : State) : Prop :=
  ∃ block level hold env ticks tr,
    t = { s with block := block, level := level, hold := hold, env := env, ticks := ticks, tr := tr } ∧
    tr.map (eventShape s.cfg.val) = s.tr.map (eventShape s.cfg.val)

theorem Agrees.intro {s t : State}
    (he : t = { s with block := t.block, level := t.level, hold := t.hold, env := t.env, ticks := t.ticks, tr := t.tr })
    (htr : t.tr.map (eventShape s.cfg.val) = s.tr.map (eventShape s.cfg.val)) : Agrees s t :=
  ⟨_, _, _, _, _, _, he, htr⟩

/-- The checks of the commands and the operands of their accesses are the same. -/
theorem Agrees.checks {s t : State} (h : Agrees s t) :
    t.lc = s.lc ∧ t.cfgErr = s.cfgErr ∧ t.sessionValid = s.sessionValid ∧ t.mapped = s.mapped ∧
      t.nextAnswer = s.nextAnswer := by
  obtain ⟨m, l, v, env, k, tr, rfl, -⟩ := h
  exact ⟨rfl, rfl, rfl, rfl, rfl⟩

theorem Agrees.pins {s t : State} (h : Agrees s t) : t.cfg = s.cfg ∧ t.clk = s.clk ∧ t.dat = s.dat := by
  obtain ⟨m, l, v, env, k, tr, rfl, -⟩ := h
  exact ⟨rfl, rfl, rfl⟩

/-- An operation that neither reads nor writes what the two states differ in keeps the agreement. -/
theorem Agrees.map {s t : State} (h : Agrees s t) (f : State → State)
    (hf : ∀ block level hold env ticks tr,
      f { s with block := block, level := level, hold := hold, env := env, ticks := ticks, tr := tr } =
        { f s with block := block, level := level, hold := hold, env := env, ticks := ticks, tr := tr } := by
      intros; rfl)
    (hcfg : (f s).cfg = s.cfg := by rfl) (htr : (f s).tr = s.tr := by rfl) : Agrees (f s) (f t) := by
  obtain ⟨m, l, v, env, k, tr, rfl, hshape⟩ := h
  exact ⟨m, l, v, env, k, tr, hf .., by rw [hcfg, htr, hshape]⟩

theorem Agrees.finish {s t : State} (h : Agrees s t) (st : Status) : Agrees (s.finish st) (t.finish st) :=
  h.map (State.finish · st)

/-- A request is answered by the platform, which does not see the block (20_memory.md R62). -/
theorem Agrees.request {s t : State} (h : Agrees s t) (ev : Answer → Event) :
    Agrees (s.request ev).2 (t.request ev).2 := by
  obtain ⟨-, -, -, -, hans⟩ := h.checks
  obtain ⟨m, l, v, env, k, tr, rfl, htr⟩ := h
  exact .intro rfl (by simp [State.request, htr, hans])

theorem Agrees.mapReq {s t : State} (h : Agrees s t) : Agrees s.mapReq.2 t.mapReq.2 := by
  obtain ⟨hcfg, -⟩ := h.pins
  rw [State.mapReq, State.mapReq, hcfg]
  exact h.request _

/-! ### CONSTRUCT -/

theorem construct_agrees (clk dat : Int) {s t : State} (h : Agrees s t) :
    Agrees (construct clk dat s) (construct clk dat t) := by
  obtain ⟨hlc, -⟩ := h.checks
  obtain ⟨hcfg, -⟩ := h.pins
  by_cases hl : s.lc = .absent
  · rw [construct_absent clk dat s hl, construct_absent clk dat t (hlc.trans hl), hcfg]
    exact (h.map (State.latchPins · clk dat)).finish _
  · rw [construct_wrongState clk dat s hl, construct_wrongState clk dat t (hlc ▸ hl)]
    exact h.finish _

/-! ### INITIALIZE -/

/-- The value written to a pin's control word is not part of the event's shape. -/
theorem eventShape_wr32_fseloff (c : Cfg) (h : c.WellFormed) (p : Nat) (hp : p < c.pinCount) (v : Word) :
    eventShape c (.wr32 (fseloff c p) v) = .wr32 (fseloff c p) 0 := by
  rw [eventShape, regAt_fseloff c h p hp]

@[simp] theorem eventShape_rd32 (c : Cfg) (off : Nat) (v : Word) : eventShape c (.rd32 off v) = .rd32 off 0 := rfl

/-- Making a pin an output shows the block's value in the two accesses of its control word only. -/
theorem configOutput_agrees {s t : State} (h : Agrees s t) (p : Nat) (hp : p < s.cfg.val.pinCount) :
    Agrees (configOutput s p) (configOutput t p) := by
  obtain ⟨m, l, v, env, k, tr, rfl, htr⟩ := h
  have hw := eventShape_wr32_fseloff _ s.cfg.property p hp
  exact .intro rfl (by simp [configOutput, htr, hw])

/-- The last two writes of INITIALIZE, and READY (40_lifecycle.md R111). -/
def idleLines (s : State) : State :=
  let s := s.wr32 (clroff s.cfg.val s.clk) s.clkMask
  let s := s.wr32 (clroff s.cfg.val s.dat) s.datMask
  (s.setLc .ready).finish .ok

@[simp] theorem configOutput_dat (s : State) (p : Nat) : (configOutput s p).dat = s.dat := by simp [configOutput]

theorem bigConfigure_eq (s : State) :
    bigConfigure s = idleLines (configOutput (configOutput s.setMasks s.clk) s.dat) := by
  have h : bigConfigure s = idleLines (configOutput (configOutput s.setMasks s.setMasks.clk)
    (configOutput s.setMasks s.setMasks.clk).dat) := rfl
  simpa using h

theorem idleLines_agrees {s t : State} (h : Agrees s t) : Agrees (idleLines s) (idleLines t) := by
  obtain ⟨m, l, v, env, k, tr, rfl, htr⟩ := h
  exact .intro rfl (by simp [idleLines, htr, State.clk, State.dat])

theorem bigConfigure_agrees {s t : State} (h : Agrees s t) (hk : s.clk < s.cfg.val.pinCount)
    (hd : s.dat < s.cfg.val.pinCount) : Agrees (bigConfigure s) (bigConfigure t) := by
  obtain ⟨-, hclk, hdat⟩ := h.pins
  rw [bigConfigure_eq s, bigConfigure_eq t, hclk, hdat]
  exact idleLines_agrees (configOutput_agrees (configOutput_agrees (h.map State.setMasks) _ hk) _ hd)

/-- The platform's answers, not the block, decide how INITIALIZE ends. -/
theorem bigInitialise_agrees {s t : State} (h : Agrees s t) (hi : s.Inv) :
    Agrees (bigInitialise s) (bigInitialise t) := by
  obtain ⟨hlc, herr, -, -, hans⟩ := h.checks
  by_cases hl : s.lc = .constructed
  · have hl' := hlc.trans hl
    cases he : s.cfgErr with
    | true =>
      rw [bigInitialise_badPins s hl he, bigInitialise_badPins t hl' (herr.trans he)]
      exact h.finish _
    | false =>
      have he' := herr.trans he
      have hopen : Agrees s.openReq.2 t.openReq.2 := h.request .openEv
      cases ho : s.nextAnswer with
      | fail =>
        rw [bigInitialise_openFails s hl he ho, bigInitialise_openFails t hl' he' (hans.trans ho)]
        exact hopen.finish _
      | ok =>
        have ho' := hans.trans ho
        have hmap := hopen.map (State.setSession · true)
        obtain ⟨-, -, -, -, hans'⟩ := hmap.checks
        cases hm : (s.openReq.2.setSession true).nextAnswer with
        | fail =>
          rw [bigInitialise_mapFails s hl he ho hm, bigInitialise_mapFails t hl' he' ho' (hans'.trans hm)]
          exact ((hmap.mapReq.request .closeEv).map (State.setSession · false)).finish _
        | ok =>
          rw [bigInitialise_succeeds s hl he ho hm, bigInitialise_succeeds t hl' he' ho' (hans'.trans hm)]
          have g := hi.goodPins (.inl hl) he
          exact bigConfigure_agrees (hmap.mapReq.map (State.setMapped · true)) (by simpa using g.clkLt)
            (by simpa using g.datLt)
  · rw [bigInitialise_wrongState s hl, bigInitialise_wrongState t (hlc ▸ hl)]
    exact h.finish _

/-! ### SEND -/

/-- The bits sent are the buffer's, and the pins and masks are the same (41_send.md R141). -/
theorem sendBit_agrees {s t : State} (h : Agrees s t) (b : Bool) : Agrees (sendBit s b) (sendBit t b) := by
  obtain ⟨m, l, v, env, k, tr, rfl, htr⟩ := h
  refine .intro (by cases b <;> rfl) ?_
  rw [sendBit_cfg, sendBit_tr, sendBit_tr, List.map_append, List.map_append]
  exact congrArg (· ++ (bitTrace s b).map (eventShape s.cfg.val)) htr

theorem sendBits_agrees {s t : State} (h : Agrees s t) (bits : List Bool) :
    Agrees (sendBits s bits) (sendBits t bits) := by
  induction bits generalizing s t with
  | nil => exact h
  | cons b rest ih => exact ih (sendBit_agrees h b)

/-- The idle restore (41_send.md R144). -/
theorem restore_agrees {s t : State} (h : Agrees s t) :
    Agrees (s.wr32 (clroff s.cfg.val s.dat) s.datMask) (t.wr32 (clroff t.cfg.val t.dat) t.datMask) := by
  obtain ⟨m, l, v, env, k, tr, rfl, htr⟩ := h
  exact .intro rfl (by simp [htr, State.dat])

theorem bigSend_agrees (bytes : List Byte) {s t : State} (h : Agrees s t) :
    Agrees (bigSend bytes s) (bigSend bytes t) := by
  obtain ⟨hlc, -⟩ := h.checks
  obtain ⟨hcfg, -⟩ := h.pins
  by_cases hl : s.lc = .ready
  · have hbits := sendBits_agrees (h.map (State.setBuf · bytes)) (bufferBits s.cfg.val.bitOrder bytes)
    simp only [bigSend, hlc, hl, ne_eq, not_true_eq_false, if_false, foldl_sendByte, State.setBuf_cfg, hcfg]
    split
    · exact (restore_agrees hbits).finish _
    · exact hbits.finish _
  · rw [bigSend_outsideReady bytes s hl, bigSend_outsideReady bytes t (hlc ▸ hl)]
    exact h.finish _

/-! ### TEARDOWN -/

theorem unmapIfMapped_agrees {s t : State} (h : Agrees s t) : Agrees s.unmapIfMapped t.unmapIfMapped := by
  obtain ⟨-, -, -, hm, -⟩ := h.checks
  rw [State.unmapIfMapped, State.unmapIfMapped, hm]
  split
  · exact (h.request .unmapEv).map (State.setMapped · false)
  · exact h

theorem release_agrees {s t : State} (h : Agrees s t) : Agrees s.release t.release := by
  obtain ⟨-, -, hs, -⟩ := h.checks
  rw [State.release, State.release, hs]
  split
  · exact (h.request .closeEv).map (State.setSession · false)
  · exact h

theorem bigTeardown_agrees {s t : State} (h : Agrees s t) : Agrees (bigTeardown s) (bigTeardown t) := by
  obtain ⟨hlc, -⟩ := h.checks
  rw [bigTeardown_eq, bigTeardown_eq, hlc]
  exact ((release_agrees (unmapIfMapped_agrees h)).map (State.setLc · _)).finish _

/-! ### Every command -/

theorem bigCommand_agrees (i : Instr) {s t : State} (h : Agrees s t) (hi : s.Inv) :
    Agrees (bigCommand i s) (bigCommand i t) := by
  cases i with
  | construct clk dat => exact construct_agrees clk dat h
  | initialise => exact bigInitialise_agrees h hi
  | send bytes => exact bigSend_agrees bytes h
  | teardown => exact bigTeardown_agrees h

/-- A command leaves the configuration (10_state.md R39). -/
theorem exec_cfg {i : Instr} {s t : State} (h : exec i s = .next t) : t.cfg = s.cfg := by
  obtain ⟨-, rfl⟩ := exec_cases h
  exact (runCommand_related PinsKept.refl PinsKept.trans (fun s _ => microStep_pinsKept s) _ _).1.trans
    (acceptRow_pinsKept i s).1

/-- Settles O56: the two states agree, so the two runs do. -/
theorem environmentNeverDecidesTheCommand : Obligations.EnvironmentNeverDecidesTheCommand := by
  unfold Obligations.EnvironmentNeverDecidesTheCommand
  intro i s t block level env ticks hi hb h
  refine ⟨_, exec_eq_bigCommand i _ hb, ?_⟩
  have hcfg := exec_cfg h
  obtain rfl : bigCommand i s = t := by simpa [exec_eq_bigCommand i s hb] using h
  have start : Agrees s { s with block := block, level := level, env := env, ticks := ticks } := .intro rfl rfl
  obtain ⟨_, _, _, _, _, tr, hu, htr⟩ := bigCommand_agrees i start hi
  rw [hu]
  exact ⟨rfl, rfl, rfl, rfl, rfl, rfl, rfl, rfl, rfl, hcfg ▸ htr⟩

end Sys2Proof.Machine
end

