-- ==== Sys2Proof/Proofs/Encoding.lean ====
section
/-!
The command word (30_encoding.md R80 to R88): the decoder and the encoder are inverse to each other, the words that are
no command are refused, incomplete commands wait; and the operand assembly of R86 and R87.
-/

namespace Sys2Proof

/-! ### The decoder by opcode (30_encoding.md R81) -/

theorem decodeWord_op00 (w : Word) (after : List Byte) (h : w.extractLsb' 30 2 = 0b00#2) :
    decodeWord w after =
      if w.extractLsb' 16 14 = 0#14 then .command (.construct (wordClk w) (wordDat w)) after else .reservedBits := by
  simpa [h] using decodeWord_cases w after

theorem decodeWord_op01 (w : Word) (after : List Byte) (h : w.extractLsb' 30 2 = 0b01#2) :
    decodeWord w after = if w.extractLsb' 0 30 = 0#30 then .command .initialise after else .reservedBits := by
  simpa [h] using decodeWord_cases w after

theorem decodeWord_op10 (w : Word) (after : List Byte) (h : w.extractLsb' 30 2 = 0b10#2) :
    decodeWord w after =
      if wordLen w ≤ after.length then .command (.send (after.take (wordLen w))) (after.drop (wordLen w))
      else .incompletePayload := by
  simpa [h] using decodeWord_cases w after

theorem decodeWord_op11 (w : Word) (after : List Byte) (h : w.extractLsb' 30 2 = 0b11#2) :
    decodeWord w after = if w.extractLsb' 0 30 = 0#30 then .command .teardown after else .reservedBits := by
  simpa [h] using decodeWord_cases w after

/-! ### Decoding what was encoded -/

/-- A pin that fits the 8-bit field is read back from it (30_encoding.md R82). -/
theorem toNat_ofInt_pin {p : Int} (h : PinEncodable p) : ((BitVec.ofInt 8 p).toNat : Int) = p := by
  rw [BitVec.toNat_ofInt]
  omega

/-- The length of a buffer that fits the 30-bit field is read back from it (30_encoding.md R84). -/
theorem wordLen_encodeWord_send {bytes : List Byte} (h : bytes.length < 2 ^ 30) :
    wordLen (encodeWord (.send bytes)) = bytes.length := by
  rw [wordLen, encodeWord_send_len, BitVec.toNat_ofNat, Nat.mod_eq_of_lt h]

theorem decodeWord_encodeWord_construct {clk dat : Int} (hclk : PinEncodable clk) (hdat : PinEncodable dat)
    (after : List Byte) :
    decodeWord (encodeWord (.construct clk dat)) after = .command (.construct clk dat) after := by
  have hits := (hits_construct _).mpr (encodeWord_construct_top clk dat)
  rw [decodeWord, if_pos hits, wordClk, wordDat, encodeWord_construct_clk, encodeWord_construct_dat,
    toNat_ofInt_pin hclk, toNat_ofInt_pin hdat]

theorem decodeWord_encodeWord_send {bytes : List Byte} (h : bytes.length < 2 ^ 30) (rest : List Byte) :
    decodeWord (encodeWord (.send bytes)) (bytes ++ rest) = .command (.send bytes) rest := by
  rw [decodeWord_op10 _ _ (encodeWord_send_op bytes), wordLen_encodeWord_send h, if_pos (by simp),
    List.take_left, List.drop_left]

/-- The word and the payload of a command that has a word decode to it (30_encoding.md R80 to R85). -/
theorem decodeWord_encodeWord {i : Instr} (h : i.WellFormed) (rest : List Byte) :
    decodeWord (encodeWord i) (encodePayload i ++ rest) = .command i rest := by
  cases i with
  | construct clk dat => exact decodeWord_encodeWord_construct h.1 h.2 rest
  | initialise => exact decodeWord_op01 _ _ rfl
  | send bytes => exact decodeWord_encodeWord_send h rest
  | teardown => exact decodeWord_op11 _ _ rfl

/-- Settles O2: the port holds the command's word, then its payload, and each word decodes to its command. -/
theorem decodeOfEncodeGivesTheCommand : Obligations.DecodeOfEncodeGivesTheCommand := by
  unfold Obligations.DecodeOfEncodeGivesTheCommand
  intro i rest h
  rw [encode, List.append_assoc, decode_bytesOfWord, decodeWord_encodeWord h]

/-! ### Encoding what was decoded -/

theorem wordClk_encodable (w : Word) : PinEncodable (wordClk w) := by
  have := (w.extractLsb' 8 8).isLt
  unfold wordClk
  omega

theorem wordDat_encodable (w : Word) : PinEncodable (wordDat w) := by
  have := (w.extractLsb' 0 8).isLt
  unfold wordDat
  omega

theorem wordLen_lt (w : Word) : wordLen w < 2 ^ 30 := (w.extractLsb' 0 30).isLt

/-- A CONSTRUCT word is its must-be-zero bits and its two pin fields (30_encoding.md R82). -/
theorem encodeWord_wordClk_wordDat (w : Word) (h : w.extractLsb' 16 16 = 0#16) :
    encodeWord (.construct (wordClk w) (wordDat w)) = w := by
  have upper : w.extractLsb' 16 16 ++ w.extractLsb' 8 8 = w.extractLsb' 8 24 :=
    BitVec.extractLsb'_append_extractLsb'_eq_extractLsb' rfl
  have whole : w.extractLsb' 8 24 ++ w.extractLsb' 0 8 = w := BitVec.extractLsb'_append_extractLsb'
  rw [encodeWord, wordClk, wordDat, BitVec.ofInt_natCast, BitVec.ofInt_natCast, BitVec.ofNat_toNat,
    BitVec.ofNat_toNat, BitVec.setWidth_eq, BitVec.setWidth_eq, ← h, upper, whole]

/-- A SEND word is its opcode and its length (30_encoding.md R84). -/
theorem encodeWord_send_of_length (w : Word) (bytes : List Byte) (hop : w.extractLsb' 30 2 = 0b10#2)
    (hlen : bytes.length = wordLen w) : encodeWord (.send bytes) = w := by
  rw [encodeWord, hlen, wordLen, BitVec.ofNat_toNat, BitVec.setWidth_eq, ← hop]
  exact (word_eq_op_low w).symm

/-- What a word decodes to has that word, and the payload is what stood after it (30_encoding.md R80 to R85). -/
theorem encodeWord_of_decodeWord {w : Word} {after rest : List Byte} {i : Instr}
    (h : decodeWord w after = .command i rest) :
    i.WellFormed ∧ encodeWord i = w ∧ encodePayload i ++ rest = after := by
  obtain ⟨hop, hd⟩ | ⟨hop, hd⟩ | ⟨hop, hd⟩ | ⟨hop, hd⟩ := decodeWord_cases w after <;> rw [hd] at h
  · split at h <;> cases h
    next hz =>
      have htop := (hits_construct w).mp ((hits_construct_fields w).mpr ⟨hop, hz⟩)
      exact ⟨⟨wordClk_encodable w, wordDat_encodable w⟩, encodeWord_wordClk_wordDat w htop, rfl⟩
  · split at h <;> cases h
    next hz => exact ⟨trivial, ((eq_op_zero w 0b01#2).mpr ⟨hop, hz⟩).symm, rfl⟩
  · split at h <;> cases h
    next hle =>
      have hlen : (after.take (wordLen w)).length = wordLen w := List.length_take_of_le hle
      exact ⟨hlen.trans_lt (wordLen_lt w), encodeWord_send_of_length w _ hop hlen, List.take_append_drop _ _⟩
  · split at h <;> cases h
    next hz => exact ⟨trivial, ((eq_op_zero w 0b11#2).mpr ⟨hop, hz⟩).symm, rfl⟩

/-- A command is decoded from a word and the bytes after it. -/
theorem decodeWord_of_decode {bytes rest : List Byte} {i : Instr} (h : decode bytes = .command i rest) :
    ∃ w after, bytes = bytesOfWord w ++ after ∧ decodeWord w after = .command i rest := by
  match bytes, h with
  | b0 :: b1 :: b2 :: b3 :: after, h =>
    exact ⟨wordOfBytes b0 b1 b2 b3, after, by rw [bytesOfWord_wordOfBytes]; rfl, h⟩

/-- Settles O3: the bytes are a word and what follows it, and a word that decodes is its command's word. -/
theorem encodeOfDecodeGivesTheBytes : Obligations.EncodeOfDecodeGivesTheBytes := by
  unfold Obligations.EncodeOfDecodeGivesTheBytes
  intro bytes i rest h
  obtain ⟨w, after, rfl, hd⟩ := decodeWord_of_decode h
  obtain ⟨hwf, rfl, rfl⟩ := encodeWord_of_decodeWord hd
  exact ⟨hwf, (List.append_assoc _ _ _).symm⟩

/-! ### Words written out -/

/-- Settles O1, by running the decoder on the nine words. -/
theorem commandWordsDecode : Obligations.CommandWordsDecode := by
  unfold Obligations.CommandWordsDecode
  decide

end Sys2Proof

namespace Sys2Proof.Machine

/-! ### One step on what the port holds -/

theorem step_idle (s : State) (hb : s.busy = false) : step s = stepDecoded (decode s.cmdIn) s :=
  if_neg (by simp [hb])

/-- With a whole word at the port the step is what the word and the bytes after it say. -/
theorem step_word {s : State} {w : Word} {after : List Byte} (hb : s.busy = false)
    (hc : s.cmdIn = bytesOfWord w ++ after) : step s = stepDecoded (decodeWord w after) s := by
  rw [step_idle s hb, hc, decode_bytesOfWord]

/-- Settles O4, one opcode after the other. -/
theorem reservedWordIsRefused : Obligations.ReservedWordIsRefused := by
  unfold Obligations.ReservedWordIsRefused
  intro s w rest hb hc h
  rw [step_word hb hc]
  obtain ⟨hop, hz⟩ | ⟨hop, hz⟩ | ⟨hop, hz⟩ := h
  · rw [decodeWord_op00 w rest hop, if_neg hz, stepDecoded]
  · rw [decodeWord_op01 w rest hop, if_neg hz, stepDecoded]
  · rw [decodeWord_op11 w rest hop, if_neg hz, stepDecoded]

/-- Settles O5: without its payload the SEND row answers `incompletePayload`, and a short port holds no word. -/
theorem incompleteCommandWaits : Obligations.IncompleteCommandWaits := by
  unfold Obligations.IncompleteCommandWaits
  constructor
  · intro s w part hb hc hop hlen
    rw [step_word hb hc, decodeWord_op10 w part hop, if_neg (Nat.not_le.mpr hlen : ¬ wordLen w ≤ part.length),
      stepDecoded]
  · intro s hb hlen
    rw [step_idle s hb, decode_short _ hlen, stepDecoded]

/-- Settles O6, from the definitions of the step and of taking a command. -/
theorem stepRunsTheDecodedCommand : Obligations.StepRunsTheDecodedCommand := by
  unfold Obligations.StepRunsTheDecodedCommand
  intro s i rest hb hd
  exact ⟨by rw [step_idle s hb, hd, stepDecoded], rfl⟩

/-! ### Operand assembly and status codes -/

/-- Settles O42: the general bits are those of an inserted field. -/
theorem outputWordKeepsOtherBits : Obligations.OutputWordKeepsOtherBits := by
  unfold Obligations.OutputWordKeepsOtherBits
  refine ⟨fun c v p b _ _ hb => ?_, by decide, by decide⟩
  rw [fselnew, getLsbD_insertField v _ _ b hb]
  simp only [Nat.lt_succ_iff]

/-- Settles O45: the bit of the mask and the bound of the field are the laws of the block, the rest is by definition. -/
theorem operandAssembly : Obligations.OperandAssembly := by
  unfold Obligations.OperandAssembly
  intro c p hc _
  exact ⟨getLsbD_maskOf p, rfl, rfl, rfl, rfl, rfl, rfl, Nat.lt_succ_iff.mp (fselsh_le c hc p)⟩

/-- Settles O44, from the table of the codes. -/
theorem statusCodes : Obligations.StatusCodes := by
  unfold Obligations.StatusCodes
  exact ⟨rfl, rfl, rfl, rfl⟩

end Sys2Proof.Machine
end

