-- ==== Sys2Proof/Proofs/Initialise.lean ====
section
/-!
CONSTRUCT on the whole state (40_lifecycle.md R110), and INITIALIZE (R111 to R115): its refinement, the state a
successful one leaves, and a retry after a failed one.
-/

namespace Sys2Proof.Machine

/-! ### CONSTRUCT -/

/-- The check CONSTRUCT latches, as 40_lifecycle.md R110 writes it. -/
theorem configError_eq_decide (c : Cfg) (clk dat : Int) :
    configError c clk dat = decide (clk = dat ∨ ¬ PinValid c clk ∨ ¬ PinValid c dat) := by
  simp only [configError, Bool.decide_or, decide_not, Bool.or_assoc]

/-- Settles O11: in the wrong state CONSTRUCT only finishes, and in ABSENT it latches the pins and their check. -/
theorem constructResult : Obligations.ConstructResult := by
  unfold Obligations.ConstructResult
  intro clk dat s hb
  rw [exec_eq_bigCommand _ s hb, bigCommand]
  by_cases hl : s.lc = .absent
  · rw [if_neg (not_not_intro hl), construct_absent clk dat s hl, State.finish, State.latchPins, configError_eq_decide]
    simp only [decide_eq_true_eq]
  · rw [if_pos hl, construct_wrongState clk dat s hl, State.finish]

/-! ### INITIALIZE as the pseudocode writes it -/

/-- Settles O13: the phases of R112 run to what R111 writes. -/
theorem initialiseRefinesBigStep : Obligations.InitialiseRefinesBigStep := by
  unfold Obligations.InitialiseRefinesBigStep
  exact fun s hb => exec_eq_bigCommand .initialise s hb

/-! ### The state a successful INITIALIZE leaves -/

/-- A whole command keeps the invariant. -/
theorem exec_inv {i : Instr} {s t : State} (h : s.Inv) (he : exec i s = .next t) : t.Inv := by
  obtain ⟨hb, rfl⟩ := exec_cases he
  exact runCommand_related (R := fun s t => s.Inv → t.Inv) (fun _ => id) (fun _ _ _ f g => g ∘ f)
    (fun _ hb h => microStep_inv h hb) _ _ (acceptRow_inv i h hb)

/-- An output line shows its latch (20_memory.md R59). -/
theorem State.lineLevel_of_isOutput (s : State) (p : Nat) (hp : s.IsOutput p) :
    s.lineLevel p = some (s.levelOf p) := if_pos hp

/-- Between two commands in READY both pins are outputs at the idle level (40_lifecycle.md R114). -/
theorem State.Inv.lineLevel_idle {s : State} (h : s.Inv) (hb : s.busy = false) (hl : s.lc = .ready) :
    s.lineLevel s.clk = some false ∧ s.lineLevel s.dat = some false := by
  obtain ⟨-, -, hk, hd⟩ := h.readyPins hl
  obtain ⟨hk', hd'⟩ := h.idleLevels hb hl
  exact ⟨hk' ▸ s.lineLevel_of_isOutput _ hk, hd' ▸ s.lineLevel_of_isOutput _ hd⟩

/-- The state in which OPEN and MAP have been answered, before the masks are written. -/
def State.acquired (s : State) : State := (s.openReq.2.setSession true).mapReq.2.setMapped true

@[simp] theorem State.acquired_cfg (s : State) : s.acquired.cfg = s.cfg := by simp [State.acquired]
@[simp] theorem State.acquired_clk (s : State) : s.acquired.clk = s.clk := by simp [State.acquired]
@[simp] theorem State.acquired_dat (s : State) : s.acquired.dat = s.dat := by simp [State.acquired]

@[simp] theorem configOutput_cfg (s : State) (p : Nat) : (configOutput s p).cfg = s.cfg := by simp [configOutput]
@[simp] theorem configOutput_clk (s : State) (p : Nat) : (configOutput s p).clk = s.clk := by simp [configOutput]
@[simp] theorem configOutput_clkMask (s : State) (p : Nat) : (configOutput s p).clkMask = s.clkMask := by
  simp [configOutput]
@[simp] theorem configOutput_datMask (s : State) (p : Nat) : (configOutput s p).datMask = s.datMask := by
  simp [configOutput]

/-- The six events of the configuration, where `v1` and `v2` are the words read. -/
def configureTrace (s : State) (v1 v2 : Word) : List Event :=
  [.rd32 (fseloff s.cfg.val s.clk) v1, .wr32 (fseloff s.cfg.val s.clk) (fselnew s.cfg.val v1 s.clk),
    .rd32 (fseloff s.cfg.val s.dat) v2, .wr32 (fseloff s.cfg.val s.dat) (fselnew s.cfg.val v2 s.dat),
    .wr32 (clroff s.cfg.val s.clk) (maskOf s.clk), .wr32 (clroff s.cfg.val s.dat) (maskOf s.dat)]

/-- Everything the configuration of the pins does, but for the block and the latches (40_lifecycle.md R111). -/
theorem bigConfigure_effect (s : State) :
    ∃ v1 v2, bigConfigure s = { s with
      lc := .ready, busy := false, seq := Seq.idle, status := .ok, clkMask := maskOf s.clk, datMask := maskOf s.dat
      hold := v2, pending := none, block := (bigConfigure s).block, level := (bigConfigure s).level
      tr := s.tr ++ configureTrace s v1 v2, env := s.env.drop 6, ticks := s.ticks + 6 } := by
  refine ⟨(s.setMasks.rd32 (fseloff s.cfg.val s.clk)).1,
    ((configOutput s.setMasks s.clk).rd32 (fseloff s.cfg.val s.dat)).1, ?_⟩
  apply State.ext <;> simp [bigConfigure, configOutput, configureTrace, ← List.drop_one]

/-- With both requests answered ok INITIALIZE configures the pins (40_lifecycle.md R111). -/
theorem exec_initialise_succeeds (s : State) (hb : s.busy = false) (hl : s.lc = .constructed) (he : s.cfgErr = false)
    (ho : s.nextAnswer = .ok) (hm : s.openReq.2.nextAnswer = .ok) :
    exec .initialise s = .next (bigConfigure s.acquired) := by
  rw [exec_eq_bigCommand .initialise s hb]
  exact congrArg _ (bigInitialise_succeeds s hl he ho hm)

@[simp] theorem State.setSession_nextAnswer (s : State) (b : Bool) : (s.setSession b).nextAnswer = s.nextAnswer := rfl
@[simp] theorem State.setMapped_nextAnswer (s : State) (b : Bool) : (s.setMapped b).nextAnswer = s.nextAnswer := rfl

/-- Settles O15: two requests, then the configuration of the pins; what the lines show is the invariant in READY. -/
theorem initialiseSuccess : Obligations.InitialiseSuccess := by
  unfold Obligations.InitialiseSuccess
  intro s h hb hl he ho hm
  have hexec := exec_initialise_succeeds s hb hl he ho hm
  obtain ⟨v1, v2, heff⟩ := bigConfigure_effect s.acquired
  have hidle := (exec_inv h hexec).lineLevel_idle (heff ▸ rfl) (heff ▸ rfl)
  refine ⟨bigConfigure s.acquired, v1, v2, hexec, heff.trans ?_, hidle⟩
  apply State.ext <;> simp [State.acquired, configureTrace, ho, hm, ← List.drop_one]

/-! ### A retry -/

theorem State.nextAnswer_of_script (s : State) (a : Answer) (more : List Answer) (h : s.answers = a :: more) :
    s.nextAnswer = a := by
  rw [State.nextAnswer, h]

/-- Settles O18: MAP fails and the session is closed, which leaves CONSTRUCTED with the rest of the script. -/
theorem failedInitialiseCanBeRetried : Obligations.FailedInitialiseCanBeRetried := by
  unfold Obligations.FailedInitialiseCanBeRetried
  intro s ans more _ hb hl he hs
  have hfail := bigInitialise_mapFails s hl he (s.nextAnswer_of_script _ _ hs)
    (State.nextAnswer_of_script _ .fail (ans :: .ok :: .ok :: more) (by simp [hs]))
  have hscript : (bigInitialise s).answers = .ok :: .ok :: more := by simp [hfail, hs]
  have hl' : (bigInitialise s).lc = .constructed := by simp [hfail, hl]
  have hretry := exec_initialise_succeeds (bigInitialise s) (by simp [hfail]) hl' (by simp [hfail, he])
    (State.nextAnswer_of_script _ _ _ hscript) (State.nextAnswer_of_script _ .ok more (by simp [hscript]))
  obtain ⟨v1, v2, heff⟩ := bigConfigure_effect (bigInitialise s).acquired
  exact ⟨_, _, exec_eq_bigCommand .initialise s hb, by simp [bigCommand, hfail], hl', hretry, heff ▸ rfl, heff ▸ rfl⟩

end Sys2Proof.Machine
end

