-- ==== Sys2Proof/Proofs/OtherPins.lean ====
section
/-!
What INITIALIZE leaves of the block and the latches when the environment is quiet (40_lifecycle.md R113,
70_reset_and_hazards.md R211). `State.Still` follows the two through the slots that remain.
-/

namespace Sys2Proof.Machine

/-! ### The block in which a pin has been made an output -/

/-- The block after a read-modify-write of a pin's control word (40_lifecycle.md R113). -/
def blockWithOutput (c : Cfg) (m : List Host.Cell) (p : Nat) : List Host.Cell :=
  writeWord m (fseloff c p) (fselnew c (readWord m (fseloff c p)) p)

theorem blockWithOutput_wf (c : Cfg) (m : List Host.Cell) (p : Nat) (hm : MemoryWf m) :
    MemoryWf (blockWithOutput c m p) := writeWord_wf _ _ _ hm

/-- A byte outside the control word stays. -/
theorem readByte_blockWithOutput (c : Cfg) (m : List Host.Cell) (p a : Nat)
    (ha : a < fseloff c p ∨ fseloff c p + 4 ≤ a) : readByte (blockWithOutput c m p) a = readByte m a :=
  readByte_writeWord_other _ _ _ _ ha

/-- Bit `b` of control word `j` belongs to the field of pin `p` (30_encoding.md R86). -/
abbrev InField (c : Cfg) (p j b : Nat) : Prop := j = fselw c p ∧ fselsh c p ≤ b ∧ b < fselsh c p + 3

/-- The control words after it: the output code in the pin's field, the old bits elsewhere (30_encoding.md R87). -/
theorem getLsbD_blockWithOutput (c : Cfg) (m : List Host.Cell) (p j b : Nat) (hm : MemoryWf m) (hb : b < 32) :
    (readWord (blockWithOutput c m p) (ctrlWordOff c j)).getLsbD b =
      if InField c p j b then c.fselOutput.getLsbD (b - fselsh c p)
      else (readWord m (ctrlWordOff c j)).getLsbD b := by
  by_cases hj : j = fselw c p
  · subst hj
    rw [blockWithOutput, fseloff, readWord_writeWord_same _ _ _ hm, fselnew, getLsbD_insertField _ _ _ b hb]
    simp only [InField, true_and]
  · rw [blockWithOutput, fseloff, readWord_writeWord_other _ _ _ _ (ctrlWordOff_apart c j _ hj),
      if_neg fun h => hj h.1]

/-- The fields of two pins have no bit in common. -/
theorem not_inField_both (c : Cfg) (p q j b : Nat) (hne : p ≠ q) (hp : InField c p j b) (hq : InField c q j b) :
    False := by
  obtain ⟨hjp, hp⟩ := hp
  obtain ⟨hjq, hq⟩ := hq
  have := fselsh_apart c p q (hjp.symm.trans hjq) hne
  omega

/-- Driving a pin's line leaves every other latch. -/
theorem getD_driveLatches_maskOf_other (lvl : List Bool) (p q : Nat) (b : Bool) (hne : q ≠ p) :
    (driveLatches lvl (lvlw p) (maskOf p) b).getD q false = lvl.getD q false := by
  rcases Nat.lt_or_ge q lvl.length with hq | hq
  · rw [getD_driveLatches_maskOf lvl p q b hq, if_neg hne]
  · rw [List.getD_eq_default _ _ hq, List.getD_eq_default _ _ (by simpa using hq)]

/-! ### A quiet environment -/

/-- The environment will be quiet in the next `n` slots, with this block and these latches now. -/
structure State.Still (s : State) (n : Nat) (m : List Host.Cell) (lvl : List Bool) : Prop where
  quiet : s.Quiet n
  block : s.block = m
  level : s.level = lvl

/-- An operation that takes no slot and touches neither the block nor the latches. -/
theorem State.Still.of_same {s t : State} {n : Nat} {m : List Host.Cell} {lvl : List Bool} (h : s.Still n m lvl)
    (hb : t.block = s.block := by simp) (hl : t.level = s.level := by simp) (he : t.env = s.env := by simp)
    (hk : t.ticks = s.ticks := by simp) : t.Still n m lvl :=
  ⟨fun k hn => by simpa only [State.movesAt, he, hk] using h.quiet k hn, hb.trans h.block, hl.trans h.level⟩

/-- A quiet slot leaves the block and the latches, and one slot fewer to come. -/
theorem State.Still.envTick {s : State} {n : Nat} {m : List Host.Cell} {lvl : List Bool} (h : s.Still (n + 1) m lvl) :
    s.envTick.Still n m lvl := by
  have h0 := h.quiet 0 n.succ_pos
  refine ⟨fun k hk => ?_, (s.envTick_block_quiet h0).trans h.block, (s.envTick_level_quiet h0).trans h.level⟩
  rw [s.movesAt_of_ticked s.envTick k rfl rfl]
  exact h.quiet (k + 1) (Nat.succ_lt_succ hk)

/-- A write in a quiet slot. -/
theorem State.Still.wr32 {s : State} {n : Nat} {m : List Host.Cell} {lvl : List Bool} (h : s.Still (n + 1) m lvl)
    (off : Nat) (v : Word) :
    (s.wr32 off v).Still n (blockAfterWrite s.cfg.val m off v) (levelAfterWrite s.cfg.val lvl off v) := by
  obtain ⟨hq, hb, hl⟩ := h.envTick
  exact ⟨hq, by rw [State.wr32_block, hb], by rw [State.wr32_level, hl]⟩

/-- Making a pin an output in two quiet slots changes its control word only. -/
theorem State.Still.makeOutput {s : State} {n : Nat} {m : List Host.Cell} {lvl : List Bool}
    (h : s.Still (n + 2) m lvl) (p : Nat) (hp : p < s.cfg.val.pinCount) :
    (configOutput s p).Still n (blockWithOutput s.cfg.val m p) lvl := by
  have hread : (s.rd32 (fseloff s.cfg.val p)).1 = readWord m (fseloff s.cfg.val p) := by
    rw [State.rd32, State.readReg, State.envTick_cfg, regAt_fseloff _ s.cfg.property p hp, h.envTick.block]
  have hw : (configOutput s p).Still n _ _ :=
    State.Still.wr32 (s := (s.rd32 (fseloff s.cfg.val p)).2.setHold (s.rd32 (fseloff s.cfg.val p)).1) h.envTick.of_same
      (fseloff s.cfg.val p) (fselnew s.cfg.val (s.rd32 (fseloff s.cfg.val p)).1 p)
  simpa [hread, blockWithOutput, blockAfterWrite_fseloff _ s.cfg.property m p _ hp,
    levelAfterWrite_fseloff _ s.cfg.property lvl p _ hp] using hw

/-- Driving a pin low in a quiet slot changes its latch only. -/
theorem State.Still.clear {s : State} {n : Nat} {m : List Host.Cell} {lvl : List Bool}
    (h : s.Still (n + 1) m lvl) (p : Nat) (hp : p < s.cfg.val.pinCount) (v : Word) :
    (s.wr32 (clroff s.cfg.val p) v).Still n m (driveLatches lvl (lvlw p) v false) := by
  have hw := h.wr32 (clroff s.cfg.val p) v
  rwa [blockAfterWrite_clroff _ s.cfg.property m p v hp, levelAfterWrite_clroff _ s.cfg.property lvl p v hp] at hw

/-- What a quiet successful INITIALIZE leaves: both pins made outputs, both lines driven low (40_lifecycle.md R111). -/
theorem State.Still.configure {s : State} {n : Nat} {m : List Host.Cell} {lvl : List Bool}
    (h : s.Still (n + 6) m lvl) (hk : s.clk < s.cfg.val.pinCount) (hd : s.dat < s.cfg.val.pinCount) :
    (bigConfigure s).Still n (blockWithOutput s.cfg.val (blockWithOutput s.cfg.val m s.clk) s.dat)
      (driveLatches (driveLatches lvl (lvlw s.clk) (maskOf s.clk) false) (lvlw s.dat) (maskOf s.dat) false) := by
  have hmasks : s.setMasks.Still (n + 6) m lvl := h.of_same
  have hout := (hmasks.makeOutput s.clk hk).makeOutput s.dat (by simpa using hd)
  have hidle := (hout.clear s.clk (by simpa using hk) (maskOf s.clk)).clear s.dat (by simpa using hd) (maskOf s.dat)
  rw [bigConfigure_eq]
  simpa [idleLines] using hidle.of_same

/-- Two requests answered in quiet slots. -/
theorem State.Still.acquire {s : State} {n : Nat} {m : List Host.Cell} {lvl : List Bool}
    (h : s.Still (n + 2) m lvl) : s.acquired.Still n m lvl := by
  have hopen : (s.openReq.2.setSession true).Still (n + 1) m lvl := h.envTick.of_same
  unfold State.acquired
  exact hopen.envTick.of_same

/-- Settles O16: the quiet run changes two control words and two latches, and the two pins' fields are apart. -/
theorem initialisePreservesOtherPins : Obligations.InitialisePreservesOtherPins := by
  unfold Obligations.InitialisePreservesOtherPins
  intro s h hb hl he ho hm hq
  have g := h.goodPins (.inl hl) he
  have hexec := exec_initialise_succeeds s hb hl he ho hm
  have start : s.Still 8 s.block s.level := ⟨hq, rfl, rfl⟩
  obtain ⟨-, hblock, hlevel⟩ := start.acquire.configure (by simpa using g.clkLt) (by simpa using g.datLt)
  simp only [State.acquired_cfg, State.acquired_clk, State.acquired_dat] at hblock hlevel
  refine ⟨bigConfigure s.acquired, hexec, fun j b _ hb => ?_, fun a hak had => ?_, fun p hpk hpd => ?_⟩
  · rw [State.fsel, hblock, exec_cfg hexec,
      getLsbD_blockWithOutput _ _ _ j b (blockWithOutput_wf _ _ _ h.blockWf) hb,
      getLsbD_blockWithOutput _ _ _ j b h.blockWf hb]
    by_cases hk : InField s.cfg.val s.clk j b
    · rw [if_neg (not_inField_both _ _ _ j b g.apart hk), if_pos hk, if_pos hk]
    · rw [if_neg hk, if_neg hk]
      rfl
  · rw [hblock, readByte_blockWithOutput _ _ _ a had, readByte_blockWithOutput _ _ _ a hak]
  · rw [State.levelOf, hlevel, getD_driveLatches_maskOf_other _ _ p _ hpd,
      getD_driveLatches_maskOf_other _ _ p _ hpk]
    rfl

end Sys2Proof.Machine
end

