-- ==== Sys2Proof/Proofs/Teardown.lean ====
section
/-!
TEARDOWN (40_lifecycle.md R116 to R118): its refinement, what it releases, and the balance it leaves.
-/

namespace Sys2Proof.Machine

/-- Settles O21: the phases of R117 run to what R116 writes. -/
theorem teardownRefinesBigStep : Obligations.TeardownRefinesBigStep := by
  unfold Obligations.TeardownRefinesBigStep
  exact fun s hb => exec_eq_bigCommand .teardown s hb

theorem exec_teardown_cases {s t : State} (h : exec .teardown s = .next t) : t = bigTeardown s :=
  (exec_cases h).2.trans (runCommand_acceptTeardown s)

/-! ### From READY -/

theorem State.unmapIfMapped_held (s : State) (h : s.mapped = true) :
    s.unmapIfMapped = s.unmapReq.2.setMapped false := if_pos h

/-- The state in which UNMAP and CLOSE have been answered. -/
def State.released (s : State) : State := (s.unmapReq.2.setMapped false).closeReq.2.setSession false

/-- From READY TEARDOWN makes both requests and ends the lifetime (40_lifecycle.md R116). -/
theorem State.Inv.bigTeardown_ready {s : State} (h : s.Inv) (hb : s.busy = false) (hl : s.lc = .ready) :
    bigTeardown s = (s.released.setLc .tornDown).finish .ok := by
  obtain ⟨hs, hm⟩ := h.quiescent hb
  have hm' : s.mapped = true := hm.2 hl
  have hs' : (s.unmapReq.2.setMapped false).sessionValid = true := hs.symm.trans hm'
  rw [bigTeardown_eq, s.unmapIfMapped_held hm', State.release_held _ hs', hl]
  rfl

/-- The two requests leave the line of an owned pin (20_memory.md R68). -/
theorem State.released_lineLevel (s : State) (hm : MemoryWf s.block) (q : Nat) (hq : s.owns q = true) :
    s.released.lineLevel q = s.lineLevel q := by
  have hf : s.released.fieldOf q = s.fieldOf q :=
    (State.closeReq_fieldOf (s.unmapReq.2.setMapped false) (s.envTick_wf hm) q hq).trans (s.unmapReq_fieldOf hm q hq)
  have hv : s.released.levelOf q = s.levelOf q :=
    (State.closeReq_levelOf (s.unmapReq.2.setMapped false) q hq).trans (s.unmapReq_levelOf q hq)
  have hcfg : s.released.cfg = s.cfg := by simp [State.released]
  rw [State.lineLevel, State.lineLevel, hf, hv, hcfg]

/-- Two requests answered in quiet slots. -/
theorem State.Still.release {s : State} {n : Nat} {m : List Host.Cell} {lvl : List Bool}
    (h : s.Still (n + 2) m lvl) : s.released.Still n m lvl := by
  have hunmap : (s.unmapReq.2.setMapped false).Still (n + 1) m lvl := h.envTick.of_same
  unfold State.released
  exact hunmap.envTick.of_same

/-- Settles O22: the two requests, the lines of the invariant in READY, and quiet slots. -/
theorem teardownReleasesWhatIsHeld : Obligations.TeardownReleasesWhatIsHeld := by
  unfold Obligations.TeardownReleasesWhatIsHeld
  intro s h hb hl
  have g := h.readyGood hl
  obtain ⟨hk, hd⟩ := h.lineLevel_idle hb hl
  have hexec := exec_eq_bigCommand .teardown s hb
  rw [bigCommand, h.bigTeardown_ready hb hl] at hexec
  refine ⟨_, hexec, ?_, (s.released_lineLevel h.blockWf _ g.clkOwned).trans hk,
    (s.released_lineLevel h.blockWf _ g.datOwned).trans hd, fun hq => ?_⟩
  · apply State.ext <;> simp [State.released, hb, h.idleSeq hb, h.pending_at_rest hb, ← List.drop_one]
  · have start : s.Still 2 s.block s.level := ⟨hq, rfl, rfl⟩
    exact ⟨start.release.block, start.release.level⟩

/-! ### With nothing held -/

/-- With nothing held TEARDOWN ends the lifetime and does nothing else (40_lifecycle.md R116). -/
theorem bigTeardown_nothing (s : State) (hs : s.sessionValid = false) (hm : s.mapped = false) :
    bigTeardown s = (s.setLc (lcAfterTeardown s.lc)).finish .ok := by
  rw [bigTeardown_eq, s.unmapIfMapped_nothing hm, s.release_nothing hs]

/-- Settles O23: between two commands outside READY nothing is held. -/
theorem teardownWithNothingHeld : Obligations.TeardownWithNothingHeld := by
  unfold Obligations.TeardownWithNothingHeld
  intro s h hb hl
  obtain ⟨hs, hm⟩ := h.nothing_held hb hl
  rw [exec_eq_bigCommand .teardown s hb, bigCommand, bigTeardown_nothing s hs hm]
  apply congrArg
  apply State.ext <;> simp [lcAfterTeardown, hb, h.idleSeq hb, h.pending_at_rest hb]

/-! ### A second TEARDOWN -/

theorem State.unmapIfMapped_mapped (s : State) : s.unmapIfMapped.mapped = false := by
  cases hm : s.mapped with
  | true => rw [s.unmapIfMapped_held hm]; rfl
  | false => rw [s.unmapIfMapped_nothing hm, hm]

theorem State.release_sessionValid (s : State) : s.release.sessionValid = false := by
  cases hs : s.sessionValid with
  | true => rw [s.release_held hs]; rfl
  | false => rw [s.release_nothing hs, hs]

@[simp] theorem State.release_mapped (s : State) : s.release.mapped = s.mapped := by
  unfold State.release
  split <;> rfl

theorem lcAfterTeardown_idem (l : Lifecycle) : lcAfterTeardown (lcAfterTeardown l) = lcAfterTeardown l := by
  cases l <;> rfl

/-- TEARDOWN leaves nothing held, from every state (40_lifecycle.md R116). -/
theorem bigTeardown_holds_nothing (s : State) :
    (bigTeardown s).sessionValid = false ∧ (bigTeardown s).mapped = false := by
  rw [bigTeardown_eq]
  exact ⟨s.unmapIfMapped.release_sessionValid, (s.unmapIfMapped.release_mapped).trans s.unmapIfMapped_mapped⟩

/-- Settles O24: the first TEARDOWN has released everything and ended the lifetime. -/
theorem secondTeardownIsNoOp : Obligations.SecondTeardownIsNoOp := by
  unfold Obligations.SecondTeardownIsNoOp
  intro s t _ h
  obtain rfl := exec_teardown_cases h
  obtain ⟨hs, hm⟩ := bigTeardown_holds_nothing s
  have hlc : lcAfterTeardown (bigTeardown s).lc = (bigTeardown s).lc := by
    simpa [bigTeardown_eq] using lcAfterTeardown_idem s.lc
  rw [exec_eq_bigCommand .teardown (bigTeardown s) rfl, bigCommand, bigTeardown_nothing _ hs hm, hlc]
  rfl

/-! ### The balance -/

/-- Settles O25: the balance of the invariant, with nothing held. -/
theorem teardownLeavesNothingHeld : Obligations.TeardownLeavesNothingHeld := by
  unfold Obligations.TeardownLeavesNothingHeld
  intro s t h _ he
  have ht := exec_inv h he
  obtain rfl := exec_teardown_cases he
  obtain ⟨hs, hm⟩ := bigTeardown_holds_nothing s
  have ho := ht.opens
  have hu := ht.maps
  rw [hs] at ho
  rw [hm] at hu
  exact ⟨ho, hu, hs, hm⟩

/-- The invariant does not look at the script of answers. -/
theorem State.Inv.with_answers {s : State} (h : s.Inv) (hb : s.busy = false) (answers : List Answer) :
    { s with answers := answers }.Inv :=
  .atRest h.wired.of_same h.balanced.of_same hb (h.idleSeq hb) (h.pending_at_rest hb) (h.quiescent hb)
    (h.idleLevels hb)

/-- Settles O26: the events of INITIALIZE and of TEARDOWN hold one OPEN and one MAP, and TEARDOWN leaves the
balance. -/
theorem initialiseThenTeardownBalances : Obligations.InitialiseThenTeardownBalances := by
  unfold Obligations.InitialiseThenTeardownBalances
  intro c clk dat a b more hclk hdat hne
  have hgood : configError c.val clk dat = false := (configError_eq_false c.val clk dat).2 ⟨hne, hclk, hdat⟩
  have h0 := (powerOn_inv c).with_answers rfl (.ok :: .ok :: a :: b :: more)
  have hconstruct := exec_eq_bigCommand (.construct clk dat)
    { State.powerOn c with answers := .ok :: .ok :: a :: b :: more } rfl
  rw [bigCommand, construct_absent clk dat _ rfl] at hconstruct
  have h1 := exec_inv h0 hconstruct
  obtain ⟨u, v1, v2, hinit, hu, -⟩ := initialiseSuccess _ h1 rfl rfl hgood rfl rfl
  have h2 := exec_inv h1 hinit
  have hrest : u.busy = false := hu ▸ rfl
  obtain ⟨v, htear, hv, -⟩ := teardownReleasesWhatIsHeld u h2 hrest (hu ▸ rfl)
  obtain ⟨hopens, hmaps, -⟩ := teardownLeavesNothingHeld u v h2 hrest htear
  have hutr := congrArg State.tr hu
  have hvtr := congrArg State.tr hv
  have hopen : v.tr.countP Event.isOpenOk = 1 := by simp [hvtr, hutr, Event.isOpenOk, State.powerOn]
  have hmap : v.tr.countP Event.isMapOk = 1 := by simp [hvtr, hutr, Event.isMapOk, State.powerOn]
  exact ⟨_, u, v, hconstruct, hinit, hu ▸ rfl, htear, hv ▸ rfl, hopen, hopens ▸ hopen, hmap, hmaps ▸ hmap⟩

end Sys2Proof.Machine
end

