-- ==== Sys2Proof/Proofs/Send.lean ====
section
/-!
SEND (41_send.md R140 to R146): its refinement, the whole state it leaves in READY, what it leaves on the lines and of
the other pins, SEND of no byte and SEND outside READY, and the rising edge of one bit.
-/

namespace Sys2Proof.Machine

/-! ### SEND as the pseudocode writes it -/

/-- Settles O27: the phases of R146 run to what R140 and R141 write. -/
theorem sendRefinesBigStep : Obligations.SendRefinesBigStep := by
  unfold Obligations.SendRefinesBigStep
  exact fun bytes s hb => exec_eq_bigCommand (.send bytes) s hb

/-- With no byte to send a SEND accepted in READY writes BUF and completes (41_send.md R145). -/
theorem bigSend_nil (s : State) (hl : s.lc = .ready) : bigSend [] s = (s.setBuf []).finish .ok :=
  if_neg (not_not_intro hl)

/-- Any other SEND accepted in READY writes BUF, sends the bits and restores the data line (41_send.md R140, R144). -/
theorem bigSend_nonempty (bytes : List Byte) (s : State) (hl : s.lc = .ready) (hne : bytes.length > 0) :
    bigSend bytes s =
      ((sendBits (s.setBuf bytes) (bufferBits s.cfg.val.bitOrder bytes)).wr32 (clroff s.cfg.val s.dat) s.datMask).finish
        .ok := by
  simp [bigSend, hl, hne, foldl_sendByte]

/-- Everything a SEND accepted in READY does, but for the block and the latches (41_send.md R140, R154). -/
theorem bigSend_effect (bytes : List Byte) (s : State) (hl : s.lc = .ready) :
    bigSend bytes s = { s with
      busy := false, seq := Seq.idle, pending := none, status := .ok, buf := bytes
      block := (bigSend bytes s).block, level := (bigSend bytes s).level
      tr := s.tr ++ sendTrace s bytes
      env := s.env.drop (sendTrace s bytes).length, ticks := s.ticks + (sendTrace s bytes).length } := by
  rw [length_sendTrace]
  by_cases hne : bytes.length > 0
  · have hbits : bitTrace (s.setBuf bytes) = bitTrace s := funext fun b => bitTrace_congr _ _ b rfl rfl rfl rfl rfl
    have hn : 6 * (8 * bytes.length) = 48 * bytes.length := by omega
    rw [bigSend_nonempty bytes s hl hne]
    apply State.ext <;> simp [sendTrace, hne, hbits, hn, ← List.drop_one, Nat.add_assoc]
  · obtain rfl : bytes = [] := by simpa using hne
    rw [bigSend_nil s hl]
    apply State.ext <;> simp [sendTrace, bufferBits]

/-- A SEND accepted while BUSY is 0 does what its big-step pseudocode does. -/
theorem exec_send (bytes : List Byte) (s : State) (hb : s.busy = false) :
    exec (.send bytes) s = .next (bigSend bytes s) := exec_eq_bigCommand (.send bytes) s hb

/-- The events of a SEND accepted in READY. -/
theorem bigSend_tr (bytes : List Byte) (s : State) (hl : s.lc = .ready) :
    (bigSend bytes s).tr = s.tr ++ sendTrace s bytes :=
  congrArg State.tr (bigSend_effect bytes s hl)

/-- Settles O28: the bits of the buffer, then the idle restore. -/
theorem sendResult : Obligations.SendResult := by
  unfold Obligations.SendResult
  exact fun bytes s hb hl => ⟨_, exec_send bytes s hb, bigSend_effect bytes s hl⟩

/-! ### SEND outside READY, and SEND of no byte -/

/-- Settles O30: outside READY a SEND fails its check and only finishes. -/
theorem sendOutsideReady : Obligations.SendOutsideReady := by
  unfold Obligations.SendOutsideReady
  intro bytes s hb hl
  rw [exec_send bytes s hb, bigSend_outsideReady bytes s hl, State.finish]

/-- Settles O31: with no byte to send there is nothing to restore, and the lines are at idle by the invariant. -/
theorem emptySendDoesNothing : Obligations.EmptySendDoesNothing := by
  unfold Obligations.EmptySendDoesNothing
  refine ⟨fun s h hb hl => ⟨?_, h.lineLevel_idle hb hl⟩, fun s h hb hl => ?_⟩
  · rw [exec_send [] s hb, bigSend_nil s hl]
    exact congrArg (Host.Outcome.next <| State.setBuf · []) (h.finish_eq hb .ok)
  · rw [exec_send [] s hb, bigSend_outsideReady [] s hl, h.finish_eq hb]

/-! ### The block and the latches -/

theorem blockAfterWrite_dataOff (c : Cfg) (h : c.WellFormed) (m : List Host.Cell) (p : Nat) (b : Bool) (v : Word)
    (hp : p < c.pinCount) : blockAfterWrite c m (dataOff c p b) v = m := by
  cases b
  · exact blockAfterWrite_clroff c h m p v hp
  · exact blockAfterWrite_setoff c h m p v hp

/-- A write to a pin's set or clear word drives the masked lines to that level (20_memory.md R57, R58). -/
theorem levelAfterWrite_dataOff (c : Cfg) (h : c.WellFormed) (lvl : List Bool) (p : Nat) (b : Bool) (v : Word)
    (hp : p < c.pinCount) : levelAfterWrite c lvl (dataOff c p b) v = driveLatches lvl (lvlw p) v b := by
  cases b
  · exact levelAfterWrite_clroff c h lvl p v hp
  · exact levelAfterWrite_setoff c h lvl p v hp

/-- Driving a line in a quiet slot changes latches only. -/
theorem State.Still.drive {s : State} {n : Nat} {m : List Host.Cell} {lvl : List Bool} (h : s.Still (n + 1) m lvl)
    (p : Nat) (b : Bool) (v : Word) (hp : p < s.cfg.val.pinCount) :
    (s.wr32 (dataOff s.cfg.val p b) v).Still n m (driveLatches lvl (lvlw p) v b) := by
  have hw := h.wr32 (dataOff s.cfg.val p b) v
  rwa [blockAfterWrite_dataOff _ s.cfg.property m p b v hp,
    levelAfterWrite_dataOff _ s.cfg.property lvl p b v hp] at hw

/-- A delay in a quiet slot changes nothing. -/
theorem State.Still.delay {s : State} {n : Nat} {m : List Host.Cell} {lvl : List Bool} (h : s.Still (n + 1) m lvl)
    (k : DelayKind) : (s.delay k).Still n m lvl := h.envTick.of_same

/-- The latches after the three writes of a bit (41_send.md R141). -/
def latchesAfterBit (clk dat : Nat) (lvl : List Bool) (b : Bool) : List Bool :=
  driveLatches (driveLatches (driveLatches lvl (lvlw dat) (maskOf dat) b) (lvlw clk) (maskOf clk) true) (lvlw clk)
    (maskOf clk) false

/-- A bit leaves the latch of every other line. -/
theorem getD_latchesAfterBit_other (clk dat : Nat) (lvl : List Bool) (b : Bool) (p : Nat) (hk : p ≠ clk)
    (hd : p ≠ dat) : (latchesAfterBit clk dat lvl b).getD p false = lvl.getD p false := by
  rw [latchesAfterBit, getD_driveLatches_maskOf_other _ _ p _ hk, getD_driveLatches_maskOf_other _ _ p _ hk,
    getD_driveLatches_maskOf_other _ _ p _ hd]

/-- A bit sent in six quiet slots. -/
theorem State.Still.bit {s : State} {n : Nat} {m : List Host.Cell} {lvl : List Bool} (h : s.Still (n + 6) m lvl)
    (g : s.GoodPins) (hm : s.MasksSet) (b : Bool) :
    (sendBit s b).Still n m (latchesAfterBit s.clk s.dat lvl b) := by
  obtain ⟨hkm, hdm⟩ := hm
  have hsettle := (h.drive s.dat b s.datMask g.datLt).delay .settle
  have hhigh := (hsettle.drive s.clk true s.clkMask g.clkLt).delay .high
  have hlow := (hhigh.drive s.clk false s.clkMask g.clkLt).delay .low
  rw [sendBit_eq, latchesAfterBit, ← hkm, ← hdm]
  exact hlow

theorem State.GoodPins.afterBit {s : State} (g : s.GoodPins) (b : Bool) : (sendBit s b).GoodPins :=
  ⟨by simpa using g.clkLt, by simpa using g.datLt, by simpa using g.apart, by simpa using g.clkOwned,
    by simpa using g.datOwned⟩

/-- A list of bits sent in quiet slots. -/
theorem State.Still.bits {s : State} {n : Nat} {m : List Host.Cell} {lvl : List Bool} (bits : List Bool)
    (h : s.Still (n + 6 * bits.length) m lvl) (g : s.GoodPins) (hm : s.MasksSet) :
    (sendBits s bits).Still n m (bits.foldl (latchesAfterBit s.clk s.dat) lvl) := by
  induction bits generalizing s lvl with
  | nil => exact h
  | cons b rest ih =>
    have hbit : (sendBit s b).Still (n + 6 * rest.length) m (latchesAfterBit s.clk s.dat lvl b) := h.bit g hm b
    simpa [sendBits_cons] using ih hbit (g.afterBit b) (by simpa [State.MasksSet] using hm)

theorem getD_foldl_latchesAfterBit_other (clk dat : Nat) (bits lvl : List Bool) (p : Nat) (hk : p ≠ clk)
    (hd : p ≠ dat) : (bits.foldl (latchesAfterBit clk dat) lvl).getD p false = lvl.getD p false := by
  induction bits generalizing lvl with
  | nil => rfl
  | cons b rest ih => rw [List.foldl_cons, ih, getD_latchesAfterBit_other clk dat lvl b p hk hd]

/-- A SEND in quiet slots leaves the block and the latch of every other line. -/
theorem bigSend_still (bytes : List Byte) {s : State} (hl : s.lc = .ready) (g : s.GoodPins) (hm : s.MasksSet)
    (hq : s.Quiet (sendTrace s bytes).length) :
    (bigSend bytes s).block = s.block ∧
      ∀ p, p ≠ s.clk → p ≠ s.dat → (bigSend bytes s).levelOf p = s.levelOf p := by
  by_cases hne : bytes.length > 0
  · have hn : (sendTrace s bytes).length = 0 + 1 + 6 * (bufferBits s.cfg.val.bitOrder bytes).length := by
      rw [length_sendTrace, length_bufferBits, if_pos hne]
      omega
    have start : (s.setBuf bytes).Still (0 + 1 + 6 * (bufferBits s.cfg.val.bitOrder bytes).length) s.block s.level :=
      ⟨hn ▸ hq, rfl, rfl⟩
    have hbits := start.bits _ ⟨g.clkLt, g.datLt, g.apart, g.clkOwned, g.datOwned⟩ hm
    obtain ⟨-, hblock, hlevel⟩ := hbits.clear s.dat (by simpa using g.datLt) s.datMask
    simp only [sendBits_cfg, State.setBuf_cfg] at hblock hlevel
    rw [bigSend_nonempty bytes s hl hne]
    refine ⟨hblock, fun p hk hd => ?_⟩
    obtain ⟨-, hdm⟩ := hm
    rw [State.finish_levelOf, State.levelOf, hlevel, hdm, getD_driveLatches_maskOf_other _ _ p _ hd]
    exact getD_foldl_latchesAfterBit_other s.clk s.dat _ _ p hk hd
  · obtain rfl : bytes = [] := by simpa using hne
    rw [bigSend_nil s hl]
    exact ⟨rfl, fun _ _ _ => rfl⟩

/-- Settles O29: the lines are those of the invariant in READY, and quiet slots leave the rest. -/
theorem sendLeavesLinesIdle : Obligations.SendLeavesLinesIdle := by
  unfold Obligations.SendLeavesLinesIdle
  intro bytes s h hb hl
  have hexec := exec_send bytes s hb
  have heff := bigSend_effect bytes s hl
  obtain ⟨hk, hd⟩ := (exec_inv h hexec).lineLevel_idle (heff ▸ rfl) (heff ▸ hl)
  obtain ⟨-, hm, -⟩ := h.readyPins hl
  exact ⟨_, hexec, hk, hd, bigSend_still bytes hl (h.readyGood hl) hm⟩

/-! ### The rising edge -/

/-- Settles O35: the write of `S_CLK_HI` drives the clock line, and the data line holds the bit by the invariant. -/
theorem risingEdgeShowsTheBit : Obligations.RisingEdgeShowsTheBit := by
  unfold Obligations.RisingEdgeShowsTheBit
  intro s h _ hp
  obtain ⟨⟨hl, -⟩, hvk, hvd⟩ := by simpa only [State.PhaseInv, hp] using h.phase
  obtain ⟨-, ⟨hkm, -⟩, hk, hd⟩ := h.readyPins hl
  have d := h.driveClk (h.readyGood hl) hkm true
  rw [dataOff_true] at d
  have hstep : microStep s = (s.wr32 (setoff s.cfg.val s.clk) s.clkMask).sameBit .sHoldHi := by
    rw [microStep, hp, phaseClkHi]
  have hk' : (microStep s).levelOf s.clk = true := by rw [hstep, State.sameBit_levelOf, d.clk]
  have hd' : (microStep s).levelOf s.dat = s.currentBit := by rw [hstep, State.sameBit_levelOf, d.dat, hvd]
  have hko : (microStep s).IsOutput s.clk := by rw [hstep]; exact d.clkField.trans hk
  have hdo : (microStep s).IsOutput s.dat := by rw [hstep]; exact d.datField.trans hd
  exact ⟨hvk, hvd, hk', hd', hk' ▸ State.lineLevel_of_isOutput _ _ hko, hd' ▸ State.lineLevel_of_isOutput _ _ hdo⟩

end Sys2Proof.Machine
end

