-- ==== Sys2Proof/Proofs/SendTrace.lean ====
section
/-!
The events of a SEND (41_send.md R142, R148 to R150): how many there are of each kind, what stands around every clock
set write, and what a receiver reads from them. A write of the trace is a pin's mask written to the pin's set or clear
word (`lineWrite`), and two such writes are the same event only for the same pin and level.
-/

namespace Sys2Proof.Machine

/-! ### The writes of a line -/

/-- The write that drives line `p` to a level: its mask to its set or clear word (20_memory.md R57, R58). -/
def lineWrite (c : Cfg) (p : Nat) (high : Bool) : Event := .wr32 (dataOff c p high) (maskOf p)

theorem regAt_dataOff (c : Cfg) (h : c.WellFormed) (p : Nat) (b : Bool) (hp : p < c.pinCount) :
    regAt c (dataOff c p b) = some (if b then .set (lvlw p) else .clr (lvlw p)) := by
  cases b
  · exact regAt_clroff c h p hp
  · exact regAt_setoff c h p hp

/-- The mask says the pin's place in its word. -/
theorem maskOf_inj {p q : Nat} (h : maskOf p = maskOf q) : p % 32 = q % 32 := by
  have hbit := getLsbD_maskOf q (p % 32)
  rw [← h, getLsbD_maskOf] at hbit
  simpa using hbit

/-- The word and the mask together say the pin and the level, although two pins may share either (30_encoding.md
R86). -/
theorem lineWrite_inj (c : Cfg) (h : c.WellFormed) {p q : Nat} (hp : p < c.pinCount) (hq : q < c.pinCount)
    (b d : Bool) : lineWrite c p b = lineWrite c q d ↔ p = q ∧ b = d := by
  refine ⟨fun he => ?_, fun ⟨hpq, hbd⟩ => hpq ▸ hbd ▸ rfl⟩
  obtain ⟨hoff, hmask⟩ := Event.wr32.inj he
  have hreg := (regAt_dataOff c h p b hp).symm.trans (hoff ▸ regAt_dataOff c h q d hq)
  obtain ⟨hw, hbd⟩ : lvlw p = lvlw q ∧ b = d := by cases b <;> cases d <;> simp at hreg <;> simp [hreg]
  have hmod := maskOf_inj hmask
  unfold lvlw at hw
  exact ⟨by omega, hbd⟩

/-- No write of the clock line is one of the data line, even when the pins share a word or a mask. -/
theorem State.GoodPins.lineWrite_clk_ne_dat {s : State} (g : s.GoodPins) (b d : Bool) :
    lineWrite s.cfg.val s.clk b ≠ lineWrite s.cfg.val s.dat d :=
  fun he => g.apart ((lineWrite_inj _ s.cfg.property g.clkLt g.datLt b d).1 he).1

@[simp] theorem lineWrite_ne_delay (c : Cfg) (p : Nat) (b : Bool) (k : DelayKind) : lineWrite c p b ≠ .delay k := nofun

@[simp] theorem delay_ne_lineWrite (c : Cfg) (p : Nat) (b : Bool) (k : DelayKind) : .delay k ≠ lineWrite c p b := nofun

/-- The events of a bit as writes of the two lines (41_send.md R141). -/
theorem bitTrace_eq (s : State) (hm : s.MasksSet) (b : Bool) :
    bitTrace s b = [lineWrite s.cfg.val s.dat b, .delay .settle, lineWrite s.cfg.val s.clk true, .delay .high,
      lineWrite s.cfg.val s.clk false, .delay .low] := by
  obtain ⟨hkm, hdm⟩ := hm
  rw [bitTrace, hkm, hdm]
  rfl

/-- The idle restore, when there was any bit (41_send.md R144). -/
theorem sendTrace_eq (s : State) (hm : s.MasksSet) (bytes : List Byte) :
    sendTrace s bytes = (bufferBits s.cfg.val.bitOrder bytes).flatMap (bitTrace s) ++
      if bytes.length > 0 then [lineWrite s.cfg.val s.dat false] else [] := by
  obtain ⟨-, hdm⟩ := hm
  rw [sendTrace, hdm]
  rfl

/-! ### Counts (41_send.md R148) -/

theorem count_bitTrace_clk {s : State} (g : s.GoodPins) (hm : s.MasksSet) (b high : Bool) :
    (bitTrace s b).count (lineWrite s.cfg.val s.clk high) = 1 := by
  have hlevel (d : Bool) := lineWrite_inj _ s.cfg.property g.clkLt g.clkLt d high
  rw [bitTrace_eq s hm]
  cases high <;> simp [hlevel, (g.lineWrite_clk_ne_dat _ b).symm]

theorem count_bitTrace_dat {s : State} (g : s.GoodPins) (hm : s.MasksSet) (b high : Bool) :
    (bitTrace s b).count (lineWrite s.cfg.val s.dat high) = if b = high then 1 else 0 := by
  have hlevel := lineWrite_inj _ s.cfg.property g.datLt g.datLt b high
  rw [bitTrace_eq s hm]
  simp [List.count_cons, hlevel, g.lineWrite_clk_ne_dat]

theorem count_bitTrace_delay {s : State} (hm : s.MasksSet) (b : Bool) (k : DelayKind) :
    (bitTrace s b).count (.delay k) = 1 := by
  rw [bitTrace_eq s hm]
  cases k <;> simp

/-- An event that every bit has once is there once for each bit, if it is not the idle restore. -/
theorem count_sendTrace {s : State} (hm : s.MasksSet) (bytes : List Byte) (e : Event)
    (hbit : ∀ b, (bitTrace s b).count e = 1) (hrest : lineWrite s.cfg.val s.dat false ≠ e) :
    (sendTrace s bytes).count e = 8 * bytes.length := by
  have hmap : List.count e ∘ bitTrace s = fun _ => 1 := funext hbit
  have htail : List.count e (if bytes.length > 0 then [lineWrite s.cfg.val s.dat false] else []) = 0 := by
    split <;> simp [hrest]
  rw [sendTrace_eq s hm, List.count_append, htail, List.count_flatMap, hmap]
  simp

/-- Every bit writes the data line once, to one of the two levels. -/
theorem count_flatMap_bitTrace_dat {s : State} (g : s.GoodPins) (hm : s.MasksSet) (bits : List Bool) :
    (bits.flatMap (bitTrace s)).count (lineWrite s.cfg.val s.dat true) +
      (bits.flatMap (bitTrace s)).count (lineWrite s.cfg.val s.dat false) = bits.length := by
  induction bits with
  | nil => rfl
  | cons b rest ih =>
    simp only [List.flatMap_cons, List.count_append, count_bitTrace_dat g hm, List.length_cons]
    cases b <;> simp <;> omega

/-- The idle restore writes it low once more. -/
theorem count_sendTrace_dat {s : State} (g : s.GoodPins) (hm : s.MasksSet) (bytes : List Byte) :
    (sendTrace s bytes).count (lineWrite s.cfg.val s.dat true) +
      (sendTrace s bytes).count (lineWrite s.cfg.val s.dat false) =
      8 * bytes.length + (if bytes.length > 0 then 1 else 0) := by
  have hne : lineWrite s.cfg.val s.dat false ≠ lineWrite s.cfg.val s.dat true :=
    fun he => nomatch ((lineWrite_inj _ s.cfg.property g.datLt g.datLt false true).1 he).2
  have hbits := count_flatMap_bitTrace_dat g hm (bufferBits s.cfg.val.bitOrder bytes)
  rw [length_bufferBits] at hbits
  rw [sendTrace_eq s hm, List.count_append, List.count_append]
  split
  · simp [hne]
    omega
  · simpa using hbits

/-- Settles O32: each bit has every clock write and every delay once, and one of the two data writes. -/
theorem sendCounts : Obligations.SendCounts := by
  unfold Obligations.SendCounts
  intro bytes s h hb hl
  have g := h.readyGood hl
  obtain ⟨-, hm, -⟩ := h.readyPins hl
  have hdata := count_sendTrace_dat g hm bytes
  have hclk (high : Bool) := count_sendTrace hm bytes (lineWrite s.cfg.val s.clk high)
    (count_bitTrace_clk g hm · high) (g.lineWrite_clk_ne_dat high false).symm
  have hdelay (k : DelayKind) := count_sendTrace hm bytes (.delay k) (count_bitTrace_delay hm · k)
    (lineWrite_ne_delay _ _ _ k)
  refine ⟨_, _, exec_send bytes s hb, bigSend_tr bytes s hl, length_sendTrace s bytes, ?_⟩
  obtain ⟨hkm, hdm⟩ := hm
  rw [hkm, hdm]
  exact ⟨hdata, hclk true, hclk false, hdelay .settle, hdelay .high, hdelay .low⟩

/-! ### Data before clock (41_send.md R149) -/

/-- Around every clock set write stand the data write and the settling delay, the high hold and the clock clear
write. -/
def EdgesFramed (s : State) (events : List Event) : Prop :=
  ∀ k, events[k]? = some (lineWrite s.cfg.val s.clk true) →
    2 ≤ k ∧ events[k - 1]? = some (.delay .settle) ∧
    (events[k - 2]? = some (lineWrite s.cfg.val s.dat true) ∨ events[k - 2]? = some (lineWrite s.cfg.val s.dat false)) ∧
    events[k + 1]? = some (.delay .high) ∧ events[k + 2]? = some (lineWrite s.cfg.val s.clk false)

/-- The events of one bit before others: its one clock set write is its third event. -/
theorem EdgesFramed.bit {s : State} (g : s.GoodPins) (hm : s.MasksSet) (b : Bool) {events : List Event}
    (h : EdgesFramed s events) : EdgesFramed s (bitTrace s b ++ events) := by
  intro k hk
  rcases Nat.lt_or_ge k 6 with hlt | hge
  · rw [List.getElem?_append_left (by simpa using hlt), bitTrace_eq s hm] at hk
    have hlow := (lineWrite_inj _ s.cfg.property g.clkLt g.clkLt false true).not.2 (by simp)
    obtain rfl : k = 2 := by
      interval_cases k <;> simp [(g.lineWrite_clk_ne_dat _ _).symm, hlow] at hk ⊢
    rw [bitTrace_eq s hm]
    cases b <;> simp
  · obtain ⟨j, rfl⟩ := Nat.exists_eq_add_of_le hge
    have hat (i : Nat) : (bitTrace s b ++ events)[6 + i]? = events[i]? := by
      rw [List.getElem?_append_right (by simp), length_bitTrace, Nat.add_sub_cancel_left]
    rw [hat] at hk
    obtain ⟨hj, hsettle, hdata, hhigh, hlow⟩ := h j hk
    rw [show 6 + j - 1 = 6 + (j - 1) by omega, show 6 + j - 2 = 6 + (j - 2) by omega, Nat.add_assoc, Nat.add_assoc,
      hat, hat, hat, hat]
    exact ⟨by omega, hsettle, hdata, hhigh, hlow⟩

theorem EdgesFramed.bits {s : State} (g : s.GoodPins) (hm : s.MasksSet) (bits : List Bool) {events : List Event}
    (h : EdgesFramed s events) : EdgesFramed s (bits.flatMap (bitTrace s) ++ events) := by
  induction bits with
  | nil => exact h
  | cons b rest ih => simpa using ih.bit g hm b

/-- Settles O33: the idle restore has no clock set write, and each bit frames its own. -/
theorem dataSettledBeforeEveryRisingEdge : Obligations.DataSettledBeforeEveryRisingEdge := by
  unfold Obligations.DataSettledBeforeEveryRisingEdge
  intro bytes s h hb hl
  have g := h.readyGood hl
  obtain ⟨-, hm, -⟩ := h.readyPins hl
  have hrest : EdgesFramed s (if bytes.length > 0 then [lineWrite s.cfg.val s.dat false] else []) := by
    intro k hk
    have hmem := List.mem_of_getElem? hk
    split at hmem <;> simp [g.lineWrite_clk_ne_dat] at hmem
  have hframed := hrest.bits g hm (bufferBits s.cfg.val.bitOrder bytes)
  rw [← sendTrace_eq s hm] at hframed
  refine ⟨_, _, exec_send bytes s hb, bigSend_tr bytes s hl, ?_⟩
  obtain ⟨hkm, hdm⟩ := hm
  rw [hkm, hdm]
  exact hframed

/-! ### What a receiver reads (41_send.md R150) -/

@[simp] theorem samples_delay (c : Cfg) (clk dat : Nat) (lvl : List Bool) (k : DelayKind) (rest : List Event) :
    samples c clk dat lvl (.delay k :: rest) = samples c clk dat lvl rest := rfl

@[simp] theorem length_latchesAfterBit (clk dat : Nat) (lvl : List Bool) (b : Bool) :
    (latchesAfterBit clk dat lvl b).length = lvl.length := by simp [latchesAfterBit]

theorem getD_latchesAfterBit_clk (clk dat : Nat) (lvl : List Bool) (b : Bool) (hk : clk < lvl.length) :
    (latchesAfterBit clk dat lvl b).getD clk false = false := by
  rw [latchesAfterBit, getD_driveLatches_maskOf _ _ _ _ (by simpa using hk), if_pos rfl]

section Receiver

variable {s : State} (g : s.GoodPins)

include g

/-- A receiver takes no sample at a write of the data line. -/
theorem samples_lineWrite_dat (b : Bool) (lvl : List Bool) (rest : List Event) :
    samples s.cfg.val s.clk s.dat lvl (lineWrite s.cfg.val s.dat b :: rest) =
      samples s.cfg.val s.clk s.dat (driveLatches lvl (lvlw s.dat) (maskOf s.dat) b) rest := by
  rw [lineWrite, samples, levelAfterWrite_dataOff _ s.cfg.property lvl _ b _ g.datLt,
    getD_driveLatches_maskOf_other _ _ _ _ g.apart, if_neg (by simp)]

/-- It samples the data line when the clock rises. -/
theorem samples_lineWrite_clk_high (lvl : List Bool) (rest : List Event) (hk : s.clk < lvl.length)
    (hlow : lvl.getD s.clk false = false) :
    samples s.cfg.val s.clk s.dat lvl (lineWrite s.cfg.val s.clk true :: rest) =
      lvl.getD s.dat false ::
        samples s.cfg.val s.clk s.dat (driveLatches lvl (lvlw s.clk) (maskOf s.clk) true) rest := by
  rw [lineWrite, samples, levelAfterWrite_dataOff _ s.cfg.property lvl _ true _ g.clkLt,
    getD_driveLatches_maskOf _ _ _ _ hk, if_pos ⟨hlow, if_pos rfl⟩,
    getD_driveLatches_maskOf_other _ _ _ _ g.apart.symm]

/-- It takes no sample when the clock falls. -/
theorem samples_lineWrite_clk_low (lvl : List Bool) (rest : List Event) (hk : s.clk < lvl.length) :
    samples s.cfg.val s.clk s.dat lvl (lineWrite s.cfg.val s.clk false :: rest) =
      samples s.cfg.val s.clk s.dat (driveLatches lvl (lvlw s.clk) (maskOf s.clk) false) rest := by
  rw [lineWrite, samples, levelAfterWrite_dataOff _ s.cfg.property lvl _ false _ g.clkLt,
    getD_driveLatches_maskOf _ _ _ _ hk, if_neg (by simp)]

/-- With the clock low, the events of a bit give a receiver that bit. -/
theorem samples_bitTrace (hm : s.MasksSet) (b : Bool) (lvl : List Bool) (rest : List Event)
    (hlen : lvl.length = s.cfg.val.pinCount) (hlow : lvl.getD s.clk false = false) :
    samples s.cfg.val s.clk s.dat lvl (bitTrace s b ++ rest) =
      b :: samples s.cfg.val s.clk s.dat (latchesAfterBit s.clk s.dat lvl b) rest := by
  have hk : s.clk < lvl.length := hlen ▸ g.clkLt
  have hdata : (driveLatches lvl (lvlw s.dat) (maskOf s.dat) b).getD s.dat false = b := by
    rw [getD_driveLatches_maskOf _ _ _ _ (hlen ▸ g.datLt), if_pos rfl]
  have hlow' := (getD_driveLatches_maskOf_other lvl s.dat s.clk b g.apart).trans hlow
  simp only [bitTrace_eq s hm, List.cons_append, List.nil_append]
  rw [samples_lineWrite_dat g, samples_delay, samples_lineWrite_clk_high g _ _ (by simpa using hk) hlow',
    samples_delay, samples_lineWrite_clk_low g _ _ (by simpa using hk), samples_delay, hdata, latchesAfterBit]

theorem samples_bits (hm : s.MasksSet) (bits lvl : List Bool) (rest : List Event)
    (hlen : lvl.length = s.cfg.val.pinCount) (hlow : lvl.getD s.clk false = false) :
    samples s.cfg.val s.clk s.dat lvl (bits.flatMap (bitTrace s) ++ rest) =
      bits ++ samples s.cfg.val s.clk s.dat (bits.foldl (latchesAfterBit s.clk s.dat) lvl) rest := by
  induction bits generalizing lvl with
  | nil => rfl
  | cons b bits ih =>
    rw [List.flatMap_cons, List.append_assoc, samples_bitTrace g hm b lvl _ hlen hlow,
      ih _ (by simpa using hlen) (getD_latchesAfterBit_clk _ _ _ _ (hlen ▸ g.clkLt))]
    rfl

/-- The idle restore gives a receiver nothing (41_send.md R144). -/
theorem samples_sendTrace (hm : s.MasksSet) (bytes : List Byte) (lvl : List Bool)
    (hlen : lvl.length = s.cfg.val.pinCount) (hlow : lvl.getD s.clk false = false) :
    samples s.cfg.val s.clk s.dat lvl (sendTrace s bytes) = bufferBits s.cfg.val.bitOrder bytes := by
  rw [sendTrace_eq s hm, samples_bits g hm _ lvl _ hlen hlow]
  split
  · rw [samples_lineWrite_dat g, samples, List.append_nil]
  · rw [samples, List.append_nil]

end Receiver

/-- Settles O34: each bit gives one sample, the idle restore none, and the bits are the buffer's (41_send.md R142,
R143). -/
theorem receiverReadsTheBytes : Obligations.ReceiverReadsTheBytes := by
  unfold Obligations.ReceiverReadsTheBytes
  intro bytes s h hb hl
  obtain ⟨-, hm, -⟩ := h.readyPins hl
  obtain ⟨hlow, -⟩ := h.idleLevels hb hl
  refine ⟨_, _, exec_send bytes s hb, bigSend_tr bytes s hl, ?_⟩
  rw [samples_sendTrace (h.readyGood hl) hm bytes s.level h.levelLength hlow]
  cases s.cfg.val.bitOrder <;> rfl

/-- Settles O37: bit selection is the definition of the two orders, and the example is computed. -/
theorem bitSelection : Obligations.BitSelection := by
  unfold Obligations.BitSelection
  exact ⟨fun _ _ _ => ⟨rfl, rfl⟩, by decide⟩

end Sys2Proof.Machine
end

