-- ==== Sys2Proof/Proofs/SetRegion.lean ====
section
/-!
Only a SEND accepted in READY writes the set region (41_send.md R153): what the other commands append to the trace are
requests, and accesses of control and clear words.
-/

namespace Sys2Proof.Machine

/-- The event is no write of a set word (20_memory.md R53). -/
def NotSetWrite (c : Cfg) (e : Event) : Prop := ∀ w v, w < c.nw → e ≠ .wr32 (c.setOff + 4 * w) v

/-- A write where the block has no set word. -/
theorem notSetWrite_wr32 (c : Cfg) (h : c.WellFormed) (off : Nat) (v : Word) (hreg : ∀ w, regAt c off ≠ some (.set w)) :
    NotSetWrite c (.wr32 off v) := by
  intro w v' hw he
  obtain ⟨rfl, -⟩ := Event.wr32.inj he
  exact hreg w (regAt_setWord c h w hw)

theorem notSetWrite_fseloff (c : Cfg) (h : c.WellFormed) (p : Nat) (hp : p < c.pinCount) (v : Word) :
    NotSetWrite c (.wr32 (fseloff c p) v) :=
  notSetWrite_wr32 c h _ v fun w => by simp [regAt_fseloff c h p hp]

theorem notSetWrite_clroff (c : Cfg) (h : c.WellFormed) (p : Nat) (hp : p < c.pinCount) (v : Word) :
    NotSetWrite c (.wr32 (clroff c p) v) :=
  notSetWrite_wr32 c h _ v fun w => by simp [regAt_clroff c h p hp]

/-- From `s` to `t` the trace has grown by events that are no writes of a set word. -/
def RaisesNoLine (s t : State) : Prop := ∃ events, t.tr = s.tr ++ events ∧ ∀ e ∈ events, NotSetWrite s.cfg.val e

theorem RaisesNoLine.of_no_event {s t : State} (h : t.tr = s.tr) : RaisesNoLine s t := ⟨[], by simpa using h, nofun⟩

/-! ### INITIALIZE and TEARDOWN -/

/-- The configuration of the pins writes their control words and their clear words (40_lifecycle.md R111, R114). -/
theorem configureTrace_notSetWrite {s : State} (g : s.GoodPins) (v1 v2 : Word) :
    ∀ e ∈ configureTrace s v1 v2, NotSetWrite s.cfg.val e := by
  have hwf := s.cfg.property
  simp only [configureTrace, List.forall_mem_cons]
  exact ⟨nofun, notSetWrite_fseloff _ hwf _ g.clkLt _, nofun, notSetWrite_fseloff _ hwf _ g.datLt _,
    notSetWrite_clroff _ hwf _ g.clkLt _, notSetWrite_clroff _ hwf _ g.datLt _, nofun⟩

theorem bigInitialise_raisesNoLine {s : State} (h : s.Inv) : RaisesNoLine s (bigInitialise s) := by
  by_cases hl : s.lc = .constructed
  · cases he : s.cfgErr with
    | true => exact .of_no_event (by simp [bigInitialise_badPins s hl he])
    | false =>
      cases ho : s.nextAnswer with
      | fail => exact ⟨[.openEv .fail], by simp [bigInitialise_openFails s hl he ho, ho], by simp [NotSetWrite]⟩
      | ok =>
        cases hm : (s.openReq.2.setSession true).nextAnswer with
        | fail =>
          refine ⟨[.openEv .ok, .mapEv s.cfg.val.basePhys s.cfg.val.blockLen .fail,
            .closeEv (s.openReq.2.setSession true).mapReq.2.nextAnswer], ?_, by simp [NotSetWrite]⟩
          rw [bigInitialise_mapFails s hl he ho hm]
          simpa [ho] using hm
        | ok =>
          have g := h.goodPins (.inl hl) he
          obtain ⟨v1, v2, heff⟩ := bigConfigure_effect s.acquired
          have htr : (bigConfigure s.acquired).tr = s.acquired.tr ++ configureTrace s v1 v2 := by
            simpa [configureTrace] using congrArg State.tr heff
          refine ⟨.openEv .ok :: .mapEv s.cfg.val.basePhys s.cfg.val.blockLen .ok :: configureTrace s v1 v2, ?_,
            List.forall_mem_cons.2 ⟨nofun, List.forall_mem_cons.2 ⟨nofun, configureTrace_notSetWrite g v1 v2⟩⟩⟩
          rw [bigInitialise_succeeds s hl he ho hm]
          refine htr.trans ?_
          simpa [State.acquired, ho] using hm
  · exact .of_no_event (by simp [bigInitialise_wrongState s hl])

theorem unmapIfMapped_tr (s : State) :
    s.unmapIfMapped.tr = s.tr ++ (if s.mapped then some (.unmapEv s.nextAnswer) else none : Option Event).toList := by
  unfold State.unmapIfMapped
  split <;> simp

/-- TEARDOWN makes at most two requests and no access (40_lifecycle.md R116). -/
theorem bigTeardown_raisesNoLine (s : State) : RaisesNoLine s (bigTeardown s) := by
  refine ⟨(if s.mapped then some (.unmapEv s.nextAnswer) else none : Option Event).toList ++
    (if s.unmapIfMapped.sessionValid then some (.closeEv s.unmapIfMapped.nextAnswer) else none : Option Event).toList,
    by simp [bigTeardown_eq, release_tr, unmapIfMapped_tr], fun e he => ?_⟩
  rcases List.mem_append.1 he with he | he
  · obtain ⟨-, rfl⟩ : s.mapped = true ∧ _ = e := by simpa using he
    nofun
  · obtain ⟨-, rfl⟩ : s.unmapIfMapped.sessionValid = true ∧ _ = e := by simpa using he
    nofun

/-! ### Every command but a SEND in READY -/

theorem bigCommand_raisesNoLine (i : Instr) {s : State} (h : s.Inv) (hi : s.lc ≠ .ready ∨ ∀ bytes, i ≠ .send bytes) :
    RaisesNoLine s (bigCommand i s) := by
  cases i with
  | construct clk dat => exact .of_no_event (acceptRow_tr (.construct clk dat) s)
  | initialise => exact bigInitialise_raisesNoLine h
  | send bytes =>
    have hl : s.lc ≠ .ready := hi.resolve_right fun hne => hne bytes rfl
    exact .of_no_event (by simp [bigCommand, bigSend_outsideReady bytes s hl])
  | teardown => exact bigTeardown_raisesNoLine s

/-- Settles O54, command by command. -/
theorem onlySendDrivesALineHigh : Obligations.OnlySendDrivesALineHigh := by
  unfold Obligations.OnlySendDrivesALineHigh
  intro i s t h hb he hi
  obtain rfl : bigCommand i s = t := by simpa [exec_eq_bigCommand i s hb] using he
  exact bigCommand_raisesNoLine i h hi

end Sys2Proof.Machine
end

