-- ==== Sys2Proof/Proofs/Exceptions.lean ====
section
/-!
The errors CONSTRUCT and INITIALIZE report, and what each leaves (60_exceptions.md R171, R172, R175, R176): a failed
check changes STATUS only, a refused MAP costs three requests, and no failure of INITIALIZE holds anything.
-/

namespace Sys2Proof.Machine

/-! ### The checks -/

/-- An INITIALIZE in CONSTRUCTED with pins that failed the check only finishes (60_exceptions.md R171). -/
theorem exec_initialise_badPins (s : State) (hb : s.busy = false) (hl : s.lc = .constructed) (he : s.cfgErr = true) :
    exec .initialise s = .next (s.finish .configurationError) := by
  rw [exec_eq_bigCommand .initialise s hb, bigCommand, bigInitialise_badPins s hl he]

/-- Settles O12: CONSTRUCT latches pins that fail the check and finishes; INITIALIZE with such pins only finishes. -/
theorem configurationErrorTouchesNothing : Obligations.ConfigurationErrorTouchesNothing := by
  unfold Obligations.ConfigurationErrorTouchesNothing
  constructor
  · intro clk dat s hb hl hbad
    have herr : configError s.cfg.val clk dat = true := by rw [configError_eq_decide]; exact decide_eq_true hbad
    have hexec : exec (.construct clk dat) s = .next ((s.latchPins clk dat).finish .configurationError) := by
      rw [exec_eq_bigCommand _ s hb, bigCommand, construct_absent clk dat s hl, if_pos herr]
    exact ⟨_, hexec, rfl, rfl, rfl, rfl, rfl⟩
  · exact fun s hb hl he => ⟨_, exec_initialise_badPins s hb hl he, rfl, rfl, rfl, rfl, rfl⟩

/-- Settles O14: the lifecycle is looked at before the check of the pins, and either error only finishes. -/
theorem initialiseChecksInOrder : Obligations.InitialiseChecksInOrder := by
  unfold Obligations.InitialiseChecksInOrder
  intro s hb hfails
  by_cases hl : s.lc = .constructed
  · have he : s.cfgErr = true := hfails.resolve_left (not_not_intro hl)
    rw [exec_initialise_badPins s hb hl he, if_neg (not_not_intro hl), State.finish]
  · rw [exec_eq_bigCommand .initialise s hb, bigCommand, bigInitialise_wrongState s hl, if_pos hl, State.finish]

/-! ### The platform refuses -/

/-- The state in which OPEN and MAP have been answered and the session has been closed again. -/
def State.mapRefused (s : State) : State := (s.openReq.2.setSession true).mapReq.2.closeReq.2.setSession false

/-- INITIALIZE when the platform refuses OPEN (60_exceptions.md R172). -/
theorem exec_initialise_openFails (s : State) (hb : s.busy = false) (hl : s.lc = .constructed) (he : s.cfgErr = false)
    (ho : s.nextAnswer = .fail) : exec .initialise s = .next (s.openReq.2.finish .mappingFailure) := by
  rw [exec_eq_bigCommand .initialise s hb, bigCommand, bigInitialise_openFails s hl he ho]

/-- INITIALIZE when the platform refuses MAP (60_exceptions.md R172). -/
theorem exec_initialise_mapFails (s : State) (hb : s.busy = false) (hl : s.lc = .constructed) (he : s.cfgErr = false)
    (ho : s.nextAnswer = .ok) (hm : s.openReq.2.nextAnswer = .fail) :
    exec .initialise s = .next (s.mapRefused.finish .mappingFailure) := by
  rw [exec_eq_bigCommand .initialise s hb, bigCommand, bigInitialise_mapFails s hl he ho hm, State.mapRefused]

/-- Three requests answered in quiet slots. -/
theorem State.Still.refuseMap {s : State} {n : Nat} {m : List Host.Cell} {lvl : List Bool}
    (h : s.Still (n + 3) m lvl) : s.mapRefused.Still n m lvl := by
  have hopen : (s.openReq.2.setSession true).Still (n + 2) m lvl := h.envTick.of_same
  have hmap : (s.openReq.2.setSession true).mapReq.2.Still (n + 1) m lvl := hopen.envTick.of_same
  unfold State.mapRefused
  exact hmap.envTick.of_same

/-- Settles O17: a refused OPEN is one request; a refused MAP is three, and the last one closes the session. -/
theorem initialiseMappingFailure : Obligations.InitialiseMappingFailure := by
  unfold Obligations.InitialiseMappingFailure
  constructor
  · intro s h hb hl he ho
    refine ⟨?_, h.nothing_held hb (by simp [hl])⟩
    refine (exec_initialise_openFails s hb hl he ho).trans (congrArg _ ?_)
    apply State.ext <;> simp [hb, h.idleSeq hb, h.pending_at_rest hb, ho]
  · intro s h hb hl he ho hm
    obtain ⟨hs, hu⟩ := h.nothing_held hb (by simp [hl])
    refine ⟨_, (s.openReq.2.setSession true).mapReq.2.nextAnswer, exec_initialise_mapFails s hb hl he ho hm, ?_,
      fun hq => ?_, rfl, by simp [State.mapRefused, hu]⟩
    · have hseq := h.idleSeq hb
      have hpending := h.pending_at_rest hb
      apply State.ext <;> simp [State.mapRefused, hb, hs, hseq, hpending, ho, hm, ← List.drop_one]
    · have start : s.Still 3 s.block s.level := ⟨hq, rfl, rfl⟩
      exact ⟨start.refuseMap.block, start.refuseMap.level⟩

end Sys2Proof.Machine
end

