-- ==== Sys2Proof/Proofs/Hazards.lean ====
section
/-!
The two hazards of 70_reset_and_hazards.md that the model can show: what a line shows from the moment its pin becomes an
output (R215), and the least time a SEND takes, which is a sum over its events (R220).
-/

namespace Sys2Proof.Machine

/-! ### The level of a new output -/

/-- The write that makes an owned pin an output puts its old latch on the line (20_memory.md R56, R59). -/
theorem State.wr32_fselnew_lineLevel (s : State) (hm : MemoryWf s.block) (p : Nat) (w : Word)
    (hp : p < s.cfg.val.pinCount) (ho : s.owns p = true) :
    (s.wr32 (fseloff s.cfg.val p) (fselnew s.cfg.val w p)).lineLevel p = some (s.levelOf p) := by
  have hout : (s.wr32 (fseloff s.cfg.val p) (fselnew s.cfg.val w p)).IsOutput p := by
    rw [State.IsOutput, s.wr32_fseloff_fieldOf hm p _ hp p ho, if_pos rfl, fieldAt_fselnew_same _ s.cfg.property,
      State.wr32_cfg]
  rw [State.lineLevel_of_isOutput _ p hout, s.wr32_fseloff_levelOf p _ hp p ho]

/-- The pins are good when INITIALIZE writes a control word (40_lifecycle.md R112). -/
theorem State.Inv.goodPins_at_controlWrite {s : State} (h : s.Inv)
    (hp : s.seq.phase = .iClkWr ∨ s.seq.phase = .iDatWr) : s.GoodPins := by
  obtain ⟨hl, hc, -⟩ : s.Configuring := by
    have hphase := h.phase
    rcases hp with hp | hp <;> rw [State.PhaseInv, hp] at hphase <;> exact hphase.1
  exact h.goodPins (.inl hl) hc

/-- Settles O19: each of the two writes makes its own pin an output, and both pins are good. -/
theorem newOutputShowsTheOldLatch : Obligations.NewOutputShowsTheOldLatch := by
  unfold Obligations.NewOutputShowsTheOldLatch
  refine fun s h _ => ⟨fun hp => ?_, fun hp => ?_⟩
  · have g := h.goodPins_at_controlWrite (.inl hp)
    rw [microStep, hp]
    exact s.wr32_fselnew_lineLevel h.blockWf s.clk s.hold g.clkLt g.clkOwned
  · have g := h.goodPins_at_controlWrite (.inr hp)
    rw [microStep, hp]
    exact s.wr32_fselnew_lineLevel h.blockWf s.dat s.hold g.datLt g.datOwned

/-! ### The least time of a SEND -/

@[simp] theorem traceTime_nil (c : Cfg) : traceTime c [] = 0 := rfl

@[simp] theorem traceTime_append (c : Cfg) (a b : List Event) :
    traceTime c (a ++ b) = traceTime c a + traceTime c b := by
  simp [traceTime]

/-- A write takes no time that the model counts (70_reset_and_hazards.md R220). -/
@[simp] theorem traceTime_wr32 (c : Cfg) (off : Nat) (v : Word) : traceTime c [.wr32 off v] = 0 := rfl

/-- The least time of one bit (70_reset_and_hazards.md R220). -/
abbrev bitTime (c : Cfg) : Nat := c.tSettle + c.tHigh + c.tLow

/-- Each bit has every one of the three delays once (41_send.md R141). -/
theorem traceTime_bitTrace (c : Cfg) (s : State) (b : Bool) : traceTime c (bitTrace s b) = bitTime c := by
  simp [traceTime, bitTrace, eventTime, holdOf, Nat.add_assoc]

theorem traceTime_flatMap_bitTrace (c : Cfg) (s : State) (bits : List Bool) :
    traceTime c (bits.flatMap (bitTrace s)) = bits.length * bitTime c := by
  induction bits with
  | nil => simp
  | cons b rest ih =>
    rw [List.flatMap_cons, traceTime_append, traceTime_bitTrace, ih, List.length_cons, Nat.succ_mul, Nat.add_comm]

/-- The idle restore adds nothing (41_send.md R144). -/
theorem traceTime_sendTrace (c : Cfg) (s : State) (bytes : List Byte) :
    traceTime c (sendTrace s bytes) = 8 * bytes.length * bitTime c := by
  have hrest : traceTime c (if bytes.length > 0 then [.wr32 (clroff s.cfg.val s.dat) s.datMask] else []) = 0 := by
    split <;> simp
  rw [sendTrace, traceTime_append, hrest, traceTime_flatMap_bitTrace, length_bufferBits, Nat.add_zero]

/-- Settles O36: the events are those of the bits, eight for each byte, and the idle restore. -/
theorem sendTakesAtLeast : Obligations.SendTakesAtLeast := by
  unfold Obligations.SendTakesAtLeast
  exact fun bytes s hb hl => ⟨_, _, exec_send bytes s hb, bigSend_tr bytes s hl, traceTime_sendTrace _ s bytes⟩

end Sys2Proof.Machine
end
